-- ==== Sys2Proof/Word.lean ====
section
/-!
DEFINITION. The word types of the machine (spec/00_scope.md R5): the addressable unit and the data
bus are 8 bits wide, the program counter and the addresses the processor forms are 16 bits wide.
-/

namespace Sys2Proof

/-- The 8-bit unit: registers A, X, Y, S, the data bus, every memory location (R5, R20). -/
abbrev Byte := BitVec 8

/-- A 16-bit quantity: the program counter and every address the processor forms (R5, R22, R60). -/
abbrev Word := BitVec 16

end Sys2Proof
end

