-- ==== Sys2Proof/Config.lean ====
section
/-!
DEFINITION. The open parameters of the machine that the spec leaves to the model as arguments
(spec/00_scope.md R6, spec/92_eei_decisions.md section 2): the audio tick period, the 16 waveform
tables and the bank selected at power-on.  They are held as plain data in the state's bus, no
instruction changes them, and statements quantify over them.  The remaining parameters stand where
they are used: ROM and SCHEME are the cartridge, INPUTS is the environment record, RESET_REGS and
POWERON_RAM are arguments of the power-on operation.  No uninterpreted constant is needed: this spec
leaves no instruction with an undefined result.
-/

namespace Sys2Proof

/-- One waveform table: its bit sequence (index 0 first, so `LEN` is the list's length) and its
extra divisor `EXTRA` (R376). -/
structure Waveform where
  bits : List Bool
  extra : Nat
deriving DecidableEq, Repr

/-- `LEN` of R376: the length of the bit sequence. -/
abbrev Waveform.len (w : Waveform) : Nat := w.bits.length

/-- The open parameters (R6). -/
structure Config where
  /-- `AUDIO_TICK_PERIOD`: system clocks between two audio ticks, a positive number (R373, D21). -/
  audioTickPeriod : Nat
  /-- `WAVE[0..15]` with `LEN` and `EXTRA` (R376, D22). -/
  waves : Vector Waveform 16
  /-- `MAPPER_INIT_BANK` (R398, D23); read only when a cartridge is created. -/
  mapperInitBank : Nat
deriving DecidableEq, Repr

/-- The domain of the parameters in spec/92_eei_decisions.md section 2: a positive period, sixteen
nonempty tables with positive extra divisors. -/
abbrev Config.wf (c : Config) : Prop :=
  0 < c.audioTickPeriod ∧ ∀ k : Fin 16, 0 < c.waves[k].len ∧ 0 < c.waves[k].extra

end Sys2Proof
end

