-- ==== Sys2Proof/Machine/Waveforms.lean ====
section
/-!
DEFINITION. The default waveform tables of the audio channels (spec/63_tia_audio.md R376, R377) and the
default parameters (spec/00_scope.md R6).  The polynomial tables are produced by the shift registers R377
defines them by; Tests/Slice0.lean checks them against the bit and hex listings of the same rule.
-/

namespace Sys2Proof.Machine

/-- `n` output bits of the right-shifting linear-feedback shift register of R377 of width `w` with
tap `t` in state `st`: the output bit is `s[0]`, the new top bit is `s[0] ^ s[t]`. -/
def lfsrBits (w t : Nat) : Nat → Nat → List Bool
  | 0, _ => []
  | n + 1, st => st.testBit 0 :: lfsrBits w t n (st / 2 + if st.testBit 0 != st.testBit t then 2 ^ (w - 1) else 0)

/-- The shift register of R377 started at all ones. -/
def lfsrTable (w t n : Nat) : List Bool := lfsrBits w t n (2 ^ w - 1)

/-- Table `ONE` of R377. -/
def waveOne : List Bool := [true]

/-- Table `DIV2` of R377. -/
def waveDiv2 : List Bool := [true, false]

/-- Table `DIV31` of R377: 18 ones, then 13 zeros. -/
def waveDiv31 : List Bool := List.replicate 18 true ++ List.replicate 13 false

/-- Table `P4` of R377. -/
def waveP4 : List Bool := lfsrTable 4 1 15

/-- Table `P5` of R377. -/
def waveP5 : List Bool := lfsrTable 5 2 31

/-- Table `P9` of R377. -/
def waveP9 : List Bool := lfsrTable 9 4 511

/-- `n` bits of a gated table (R377): `P4` is read at `i`, and `i` steps where the trigger bit of tick
`t` is 1. -/
def gatedBits (trig : Nat → Bool) : Nat → Nat → Nat → List Bool
  | 0, _, _ => []
  | n + 1, t, i => waveP4.getD i false :: gatedBits trig n (t + 1) (if trig (t % 31) then (i + 1) % 15 else i)

/-- Table `D31P4` of R377: the trigger is 1 at indices 17 and 30 only. -/
def waveD31P4 : List Bool := gatedBits (fun k => k == 17 || k == 30) 465 0 0

/-- Table `P5P4` of R377: the trigger is `P5`. -/
def waveP5P4 : List Bool := gatedBits (fun k => waveP5.getD k false) 465 0 0

/-- The 16 default waveforms of R376, `audc` 0 first, each with its extra divisor. -/
def defaultWaves : Vector Waveform 16 :=
  #v[⟨waveOne, 1⟩, ⟨waveP4, 1⟩, ⟨waveD31P4, 1⟩, ⟨waveP5P4, 1⟩,
     ⟨waveDiv2, 1⟩, ⟨waveDiv2, 1⟩, ⟨waveDiv31, 1⟩, ⟨waveP5, 1⟩,
     ⟨waveP9, 1⟩, ⟨waveP5, 1⟩, ⟨waveDiv31, 1⟩, ⟨waveOne, 1⟩,
     ⟨waveDiv2, 3⟩, ⟨waveDiv2, 3⟩, ⟨waveDiv31, 3⟩, ⟨waveP5, 3⟩]

/-- The defaults of R6: audio tick period 114, the tables of R376, initial bank 0. -/
def defaultConfig : Config := { audioTickPeriod := 114, waves := defaultWaves, mapperInitBank := 0 }

end Sys2Proof.Machine
end

