-- ==== Sys2Proof/Syntax.lean ====
section
/-!
DEFINITION. The instructions as data.  An instruction is what the OpcodeTable gives for an opcode
byte (spec/10_state.md R26, spec/30_encoding.md R100, R112): a mnemonic and an addressing mode.  Each
of the 57 mnemonics of spec/opcode_table.json is one constructor; a table row is a constructor
together with its addressing mode, so the 256 rows are the 256 well-formed terms (WellFormed.lean).
The operand bytes of R100 are not part of this term because the machine reads them from the bus
itself, one `Fetch()` at a time, while the instruction runs (R101); Decode.lean adds them for the byte
images of whole instructions: DESIGN CHOICE, safe, notes/assumptions/13.
-/

namespace Sys2Proof

/-- The thirteen formats of R102: the `format` column of spec/opcode_table.json. -/
inductive Format where
  | imp | acc | imm | zp | zpx | zpy | abs | abx | aby | ind | izx | izy | rel
deriving DecidableEq, Repr

/-- The addressing modes that yield an effective address in memory (R105 to R110). -/
inductive Mem where
  /-- zero page (R105) -/
  | zp
  /-- zero page, X (R106) -/
  | zpx
  /-- zero page, Y (R106) -/
  | zpy
  /-- absolute (R107) -/
  | abs
  /-- absolute, X (R108) -/
  | abx
  /-- absolute, Y (R108) -/
  | aby
  /-- indexed indirect (R109) -/
  | izx
  /-- indirect indexed (R110) -/
  | izy
deriving DecidableEq, Repr

/-- A source operand: the immediate byte (R104) or a byte of memory. -/
inductive Src where
  | imm
  | mem (m : Mem)
deriving DecidableEq, Repr

/-- What a shift or rotate works on: the accumulator (R103) or a byte of memory (R178). -/
inductive ShiftLoc where
  | acc
  | mem (m : Mem)
deriving DecidableEq, Repr

/-- The two forms of JMP (R190, R191). -/
inductive JmpMode where
  | abs
  | ind
deriving DecidableEq, Repr

/-- One constructor per mnemonic of spec/opcode_table.json, with the addressing mode as its
argument where the mnemonic has more than one row.  `unimpl op` is any opcode byte outside the
OpcodeTable (R120, R233). -/
inductive Instr where
  | adc (o : Src)
  | and (o : Src)
  | asl (l : ShiftLoc)
  | bcc
  | bcs
  | beq
  | bit (m : Mem)
  | bmi
  | bne
  | bpl
  | brk
  | bvc
  | bvs
  | clc
  | cld
  | cli
  | clv
  | cmp (o : Src)
  | cpx (o : Src)
  | cpy (o : Src)
  | dec (m : Mem)
  | dex
  | dey
  | eor (o : Src)
  | inc (m : Mem)
  | inx
  | iny
  | jmp (t : JmpMode)
  | jsr
  | lda (o : Src)
  | ldx (o : Src)
  | ldy (o : Src)
  | lsr (l : ShiftLoc)
  | nop
  | ora (o : Src)
  | pha
  | php
  | pla
  | plp
  | rol (l : ShiftLoc)
  | ror (l : ShiftLoc)
  | rti
  | rts
  | sbc (o : Src)
  | sec
  | sed
  | sei
  | sta (m : Mem)
  | stx (m : Mem)
  | sty (m : Mem)
  | tax
  | tay
  | tsx
  | txa
  | txs
  | tya
  | unimpl (op : Byte)
deriving DecidableEq, Repr

/-- The format of a memory addressing mode (R102). -/
def Mem.format : Mem → Format
  | .zp => .zp
  | .zpx => .zpx
  | .zpy => .zpy
  | .abs => .abs
  | .abx => .abx
  | .aby => .aby
  | .izx => .izx
  | .izy => .izy

/-- The format of a source operand (R102). -/
def Src.format : Src → Format
  | .imm => .imm
  | .mem m => m.format

/-- The format of a shift's operand (R102). -/
def ShiftLoc.format : ShiftLoc → Format
  | .acc => .acc
  | .mem m => m.format

/-- The format of a JMP form (R102). -/
def JmpMode.format : JmpMode → Format
  | .abs => .abs
  | .ind => .ind

/-- The `format` column of the opcode table for an instruction (R102, R113). -/
def Instr.format : Instr → Format
  | .adc o | .and o | .cmp o | .cpx o | .cpy o | .eor o | .lda o | .ldx o | .ldy o | .ora o
  | .sbc o => o.format
  | .asl l | .lsr l | .rol l | .ror l => l.format
  | .bit m | .dec m | .inc m | .sta m | .stx m | .sty m => m.format
  | .bcc | .bcs | .beq | .bmi | .bne | .bpl | .bvc | .bvs => .rel
  | .jmp t => t.format
  | .jsr => .abs
  | .brk | .clc | .cld | .cli | .clv | .dex | .dey | .inx | .iny | .nop | .pha | .php | .pla
  | .plp | .rti | .rts | .sec | .sed | .sei | .tax | .tay | .tsx | .txa | .txs | .tya
  | .unimpl _ => .imp

/-- Operand bytes after the opcode byte, by format (R100, R102). -/
def Format.operandBytes : Format → Nat
  | .imp | .acc => 0
  | .imm | .zp | .zpx | .zpy | .izx | .izy | .rel => 1
  | .abs | .abx | .aby | .ind => 2

/-- Instruction length in bytes: 1, 2 or 3 (R100, R121). -/
def Instr.length (i : Instr) : Nat := 1 + i.format.operandBytes

end Sys2Proof
end

