-- ==== Sys2Proof/Machine/State.lean ====
section
/-!
DEFINITION. The machine's state as plain data: every variable spec/10_state.md R20 to R37 names, the
cartridge of spec/64_mappers.md, the open parameters (R6), the environment's input values, and what the
machine has handed to the host.  A state is the processor (`cpu`) beside everything on the bus (`bus`),
so that an operation of one cannot touch the other.
-/

namespace Sys2Proof.Machine

/-- Bytes by address in canonical form: addresses strictly rising, no entry equal to what an unlisted
address reads as (Machine/Memory.lean).  RAM, cartridge RAM and the ROM image are held so. -/
abbrev Memory := List Host.Cell

/-- The processor's registers and flags (R20, R22, R23). -/
structure Cpu where
  /-- accumulator -/
  a : Byte
  /-- index register X -/
  x : Byte
  /-- index register Y -/
  y : Byte
  /-- stack pointer: low byte of the next free stack byte's address (R21) -/
  s : Byte
  /-- program counter (R22) -/
  pc : Word
  /-- carry -/
  c : Bool
  /-- zero -/
  z : Bool
  /-- interrupt-disable -/
  i : Bool
  /-- decimal -/
  d : Bool
  /-- overflow -/
  v : Bool
  /-- negative -/
  n : Bool
deriving DecidableEq, Repr

/-- A pixel's colour: `none` is Blank, else the 7-bit colour code (R339). -/
abbrev Colour := Option (BitVec 7)

/-- A player and its missile, with the registers they share: the variables of R31 whose names end in
0 (or P0, M0) in one record and those that end in 1 in the other. -/
structure PlayerUnit where
  /-- `pos_PN`, 0..159 -/
  pos : Nat
  /-- `pos_MN`, 0..159 -/
  mpos : Nat
  /-- `nusizN`: copies and stretch -/
  nusiz : BitVec 3
  /-- `m_sizeN`: the missile is `1 << m_size` pixels wide -/
  mSize : BitVec 2
  /-- `grpN_new` -/
  grpNew : Byte
  /-- `grpN_old`: the delayed copy -/
  grpOld : Byte
  /-- `refpN`: reflect -/
  refp : Bool
  /-- `vdelpN`: draw from the delayed copy -/
  vdelp : Bool
  /-- `enamN`: missile enable -/
  enam : Bool
  /-- `resmpN`: missile locked to its player -/
  resmp : Bool
  /-- `hm_PN`: the player's motion offset, signed -/
  hm : BitVec 4
  /-- `hm_MN`: the missile's motion offset, signed -/
  mhm : BitVec 4
  /-- `colupN`: bits 7:1 of the written colour -/
  colup : BitVec 7
deriving DecidableEq, Repr

/-- The timing chip's video state (R30 to R33). -/
structure Tia where
  /-- beam position, -68..159 (R30) -/
  h : Int
  /-- vertical line count (R30) -/
  scanline : Nat
  /-- catch-up cursor: every position below it is rendered (R30) -/
  rendered : Int
  /-- pixels 0..7 of this line are blanked (R30, R329) -/
  hmoveBlank : Bool
  /-- playfield pattern, `pf[0]` leftmost (R31, R314) -/
  pf : BitVec 20
  pfReflect : Bool
  pfScore : Bool
  pfPriority : Bool
  /-- the ball is `1 << bl_size` pixels wide -/
  blSize : BitVec 2
  /-- `pos_BL`, 0..159 -/
  posBL : Nat
  /-- player 0 and missile 0 -/
  p0 : PlayerUnit
  /-- player 1 and missile 1 -/
  p1 : PlayerUnit
  vdelbl : Bool
  enablNew : Bool
  enablOld : Bool
  hmBL : BitVec 4
  colupf : BitVec 7
  colubk : BitVec 7
  vsync : Bool
  vblank : Bool
  /-- fire-button latch mode -/
  inptLatch : Bool
  /-- paddle capacitors grounded -/
  inptGround : Bool
  /-- the 15 collision latches (R32, R335) -/
  cx : Vector Bool 15
  /-- the presence masks of the line (R33, R320) -/
  line : Vector (BitVec 6) 160
  /-- the colours of the line (R306, R339; host-visible only) -/
  colour : Vector Colour 160
  /-- finished lines handed to the host (`EmitLine`, R340), row number and colours, newest first; DESIGN CHOICE,
  safe, notes/assumptions/10 -/
  lines : List (Nat × Vector Colour 160)
  /-- refreshes of the host's pixel surface: 0→1 transitions of `vblank` (R343) -/
  refreshes : Nat
deriving DecidableEq, Repr

/-- One audio channel (R37). -/
structure Channel where
  /-- waveform table index -/
  audc : BitVec 4
  /-- frequency divisor minus 1 -/
  audf : BitVec 5
  /-- volume -/
  audv : BitVec 4
  /-- ticks counted toward the next phase step -/
  divCount : Nat
  /-- index into the waveform table -/
  phase : Nat
deriving DecidableEq, Repr

/-- The timing chip's audio state (R37). -/
structure Audio where
  ch0 : Channel
  ch1 : Channel
  /-- system clocks since the last audio tick -/
  residue : Nat
  /-- levels handed to the host (`EmitSample`, R373), newest first; DESIGN CHOICE, safe, notes/assumptions/10 -/
  samples : List (BitVec 4 × BitVec 4)
deriving DecidableEq, Repr

/-- The four prescales of the interval timer: right shifts by 0, 3, 6 and 10 (R34, R271). -/
inductive Prescale where
  | shift0
  | shift3
  | shift6
  | shift10
deriving DecidableEq, Repr

/-- The I/O and timer chip's state (R34). -/
structure Riot where
  ddra : Byte
  ddrb : Byte
  ora : Byte
  orb : Byte
  /-- the countdown value in processor cycles, signed (R34, D13) -/
  timer : Int
  shift : Prescale
  /-- system clocks not yet turned into timer ticks -/
  residue : Nat
  /-- sticky: timer rollover -/
  timerIrq : Bool
  /-- sticky: negative edge on PA7 -/
  edgeIrq : Bool
  /-- last sampled level of PA7 -/
  pa7Prev : Bool
deriving DecidableEq, Repr

/-- What the calls on a controller port that return a value answer at one moment (R286). -/
structure Pins where
  /-- `peek()`: the 4-bit port value -/
  peek : BitVec 4
  pot1 : Byte
  pot2 : Byte
  fire : Byte
deriving DecidableEq, Repr

/-- A call the machine makes on one controller port (R286). -/
inductive PortCall where
  /-- `transitions(riot)` -/
  | transitions
  /-- `clock(n)`, with the system clocks forwarded -/
  | clock (n : Nat)
  | peek
  /-- `poke(nibble)` -/
  | poke (nibble : BitVec 4)
  | latch (on : Bool)
  | ground (on : Bool)
  | pot1
  | pot2
  | fire
deriving DecidableEq, Repr

/-- A controller: a function from the history of calls on its port, time among them, to the values its calls answer
(R286), held as a table so that it is plain data: `scripted` lists histories, newest call first, each with its
answers, and any other history is answered by `held`.  `Controller.answers` in Ports.lean is the function.  DESIGN
CHOICE, safe, notes/assumptions/9. -/
structure Controller where
  held : Pins
  scripted : List (List PortCall × Pins)
deriving DecidableEq, Repr

/-- The console switch panel as the player has set it (R288).  Bits 2, 4 and 5 of the panel have no switch, so they
are not here; `Switches.byte` in Riot.lean gives the byte. -/
structure Switches where
  /-- the reset switch is pressed: bit 0 reads 0 -/
  resetPressed : Bool
  /-- the select switch is pressed: bit 1 reads 0 -/
  selectPressed : Bool
  /-- bit 3: colour, else black-and-white -/
  colour : Bool
  /-- bit 6: left difficulty A/expert -/
  leftExpert : Bool
  /-- bit 7: right difficulty A/expert -/
  rightExpert : Bool
deriving DecidableEq, Repr

/-- The environment's inputs; they change only between steps (R469, D32).  How a device computes its answers is
outside the core (R4): the controllers are arbitrary functions of their calls (R286). -/
structure Inputs where
  /-- the console switch panel (R288) -/
  switches : Switches
  left : Controller
  right : Controller
deriving DecidableEq, Repr

/-- What the input lines show at one moment: the switch panel and what the two ports answer. -/
structure Lines where
  switches : Switches
  left : Pins
  right : Pins
deriving DecidableEq, Repr

/-- The calls made on the two controller ports so far, newest first (R286). -/
structure PortCalls where
  left : List PortCall
  right : List PortCall
deriving DecidableEq, Repr

/-- The cartridge image: its size in bytes and its contents (R35, R470). -/
structure Rom where
  size : Nat
  bytes : Memory
deriving DecidableEq, Repr

/-- The three sizes of the standard schemes: two, four and eight 4 KiB banks (R401 to R403). -/
inductive StdSize where
  | f8
  | f6
  | f4
deriving DecidableEq, Repr

/-- The Pitfall-II scheme's state (R417). -/
structure Dpc where
  bank : Nat
  /-- the eight 11-bit counters -/
  ctr : Vector (BitVec 11) 8
  top : Vector Byte 8
  bot : Vector Byte 8
  /-- the mask flags: `true` is `0xFF`, `false` is `0x00` -/
  flag : Vector Bool 8
  lfsr : Byte
  /-- `music[5..7]`, stored and otherwise unused -/
  music : Vector Bool 3
deriving DecidableEq, Repr

/-- The bound mapper variant with its state (R35, R36): exactly one of the 20 schemes of R428. -/
inductive Mapper where
  /-- `2K` (R399) -/
  | fixed2K
  /-- `4K` (R400) -/
  | fixed4K
  /-- `F8 F6 F4`, and with `reversed` `F8R F6R F4R` (R401 to R404) -/
  | std (size : StdSize) (reversed : Bool) (bank : Nat)
  /-- `F8SC F6SC F4SC` (R405): 128 bytes of cartridge RAM -/
  | superChip (size : StdSize) (bank : Nat) (cram : Memory)
  /-- `E0` (R406): the slices in slots 0, 1, 2 -/
  | parker (slot0 slot1 slot2 : BitVec 3)
  /-- `3F` (R407) -/
  | tigervision (bank : Nat)
  /-- `3E` (R408): 32 KiB of cartridge RAM -/
  | tigervisionRam (ramMode : Bool) (bank : Nat) (rbank : BitVec 5) (cram : Memory)
  /-- `FE` (R411) -/
  | activision (bank : Nat) (armed : Bool)
  /-- `E7` (R412): `ram1k` has 1024 bytes; page `p` of `ram256` is bytes 256·p and up of 1024 -/
  | mNetwork (low : BitVec 3) (page : BitVec 2) (ram1k ram256 : Memory)
  /-- `FA` (R413): 256 bytes of cartridge RAM -/
  | cbs (bank : Nat) (cram : Memory)
  /-- `F0` (R414) -/
  | megaboy (bank : BitVec 4)
  /-- `UA` (R415) -/
  | uaLimited (bank : Nat)
  /-- `DPC` (R416) -/
  | pitfall2 (dpc : Dpc)
deriving DecidableEq, Repr

/-- The cartridge: the image and the mapper bound to it (R35, R36). -/
structure Cart where
  rom : Rom
  mapper : Mapper
deriving DecidableEq, Repr

/-- Everything the processor reaches over the bus, the clock, and the host boundary. -/
structure Bus where
  /-- the open parameters (R6); no instruction changes them; DESIGN CHOICE, safe, notes/assumptions/7 -/
  cfg : Config
  /-- the last byte driven onto the bus (R27) -/
  busTrash : Byte
  /-- the 128 bytes of RAM, by index 0..127 (R28) -/
  ram : Memory
  /-- system clocks passed (R29) -/
  sysclk : Nat
  /-- extra clocks the next cycle forwards (R29, R76) -/
  wsyncExtra : Nat
  /-- processor cycles passed: the count `step()` accumulates (R115, R9); DESIGN CHOICE, safe,
  notes/assumptions/11 -/
  cycles : Nat
  tia : Tia
  audio : Audio
  riot : Riot
  cart : Cart
  inputs : Inputs
  /-- the history of calls on the controller ports, which the controllers answer by (R286) -/
  portCalls : PortCalls
deriving DecidableEq, Repr

/-- The machine's state. -/
structure State where
  cpu : Cpu
  bus : Bus
deriving DecidableEq, Repr

/-- The reasons a step can stop with a fault: there are none.  R250: no instruction, operand value,
address or device state makes the processor trap, fault, abort or halt; the type is empty, so that no
meaning can answer a fault.  DEDUCED, safe, notes/assumptions/12. -/
inductive Fault
deriving DecidableEq, Repr

/-- The reasons a step can be refused. -/
inductive Refusal where
  /-- Raised only by an arm of `exec` for an instruction that has no meaning yet; no arm does so.
  Safe: nothing can be proved of a step that is refused. -/
  | notModelled (mnemonic : String)
deriving DecidableEq, Repr

/-- A player and its missile at power-on: all zero (R31). -/
def PlayerUnit.powerOn : PlayerUnit :=
  { pos := 0, mpos := 0, nusiz := 0, mSize := 0, grpNew := 0, grpOld := 0, refp := false,
    vdelp := false, enam := false, resmp := false, hm := 0, mhm := 0, colup := 0 }

/-- The timing chip at power-on (R30 to R33, R350): `h = rendered = -68`, everything else zero.  The
colour buffer, which the spec gives no power-on value, is blank: DESIGN CHOICE, unsafe, notes/assumptions/5. -/
def Tia.powerOn : Tia :=
  { h := -68, scanline := 0, rendered := -68, hmoveBlank := false, pf := 0, pfReflect := false,
    pfScore := false, pfPriority := false, blSize := 0, posBL := 0, p0 := .powerOn, p1 := .powerOn,
    vdelbl := false, enablNew := false, enablOld := false, hmBL := 0, colupf := 0, colubk := 0,
    vsync := false, vblank := false, inptLatch := false, inptGround := false,
    cx := Vector.replicate 15 false, line := Vector.replicate 160 0,
    colour := Vector.replicate 160 none, lines := [], refreshes := 0 }

/-- An audio channel at power-on: all zero (R37, R381). -/
def Channel.powerOn : Channel := { audc := 0, audf := 0, audv := 0, divCount := 0, phase := 0 }

/-- The audio half at power-on: all zero (R37, R381). -/
def Audio.powerOn : Audio := { ch0 := .powerOn, ch1 := .powerOn, residue := 0, samples := [] }

/-- The I/O and timer chip at power-on: all zero, `pa7_prev = 1` (R34, R291). -/
def Riot.powerOn : Riot :=
  { ddra := 0, ddrb := 0, ora := 0, orb := 0, timer := 0, shift := .shift0, residue := 0,
    timerIrq := false, edgeIrq := false, pa7Prev := true }

/-- A port on which every line reads 1. -/
def Pins.idle : Pins := { peek := 0xF, pot1 := 0xFF, pot2 := 0xFF, fire := 0xFF }

/-- A controller with nothing pressed, whatever its history: every line reads 1. -/
def Controller.idle : Controller := { held := .idle, scripted := [] }

/-- The calls made on the ports when the machine is created (R286): `transitions(riot)`, once. -/
def PortCalls.powerOn : PortCalls := { left := [.transitions], right := [.transitions] }

/-- The panel with nothing pressed, colour, both difficulties A: every bit reads 1. -/
def Switches.idle : Switches :=
  { resetPressed := false, selectPressed := false, colour := true, leftExpert := true, rightExpert := true }

/-- The inputs of the reset state: every line reads 1, as the test vectors' "inputs all 1" have it.  DESIGN CHOICE,
unsafe, notes/assumptions/4. -/
def Inputs.idle : Inputs := { switches := .idle, left := .idle, right := .idle }

/-- The cartridge of the reset state: scheme `4K` with nothing listed in its image.  DESIGN CHOICE, unsafe,
notes/assumptions/3. -/
def Cart.blank : Cart := { rom := { size := 4096, bytes := [] }, mapper := .fixed4K }

/-- The machine right after power-on and the `reset()` that power-on runs (R450, R451): `I = 1`, two
processor cycles have passed, so `sysclk = 6`, `h = -62` and the audio and timer residues are 6; `pc`
and `BusTrash` hold what the vector reads of the blank cartridge returned; RAM lists nothing; each port has had
`transitions(riot)` and the two cycles' `clock(3)`.  The
values the spec leaves open are those of notes/assumptions 1 to 5, each a DESIGN CHOICE and unsafe.  Obligation
ResetIsWellFormed states that this is `State.powerOn` of Boundary.lean with those values. -/
def State.reset : State :=
  { cpu :=
      { a := 0, x := 0, y := 0, s := 0, pc := 0x0000, c := false, z := false, i := true, d := false,
        v := false, n := false },
    bus :=
      { cfg := defaultConfig, busTrash := 0, ram := [], sysclk := 6, wsyncExtra := 0, cycles := 2,
        tia := { Tia.powerOn with h := -62 }, audio := { Audio.powerOn with residue := 6 },
        riot := { Riot.powerOn with residue := 6 }, cart := .blank, inputs := .idle,
        portCalls :=
          { left := [.clock 3, .clock 3, .transitions], right := [.clock 3, .clock 3, .transitions] } } }

end Sys2Proof.Machine
end

