-- ==== Sys2Proof/Machine/Audio.lean ====
section
/-!
DEFINITION. The audio channels (spec/63_tia_audio.md R370 to R381).
-/

namespace Sys2Proof.Machine

/-- The waveform a channel's `audc` selects (R376). -/
def Channel.wave (cfg : Config) (c : Channel) : Waveform := cfg.waves[c.audc.toFin]

/-- `ChannelTick` (R374): the phase steps every `(audf + 1) * EXTRA` ticks. -/
def Channel.tick (cfg : Config) (c : Channel) : Channel :=
  let w := c.wave cfg
  let n := (c.audf.toNat + 1) * w.extra
  if n ≤ c.divCount + 1 then { c with divCount := 0, phase := (c.phase + 1) % w.len }
  else { c with divCount := c.divCount + 1 }

/-- `Level` (R375): the volume where the waveform's bit is 1, else 0. -/
def Channel.level (cfg : Config) (c : Channel) : BitVec 4 :=
  if (c.wave cfg).bits.getD c.phase false then c.audv else 0

/-- One audio tick: both channels step, then their levels go to the host (R373). -/
def Audio.tick (cfg : Config) (au : Audio) : Audio :=
  let c0 := au.ch0.tick cfg
  let c1 := au.ch1.tick cfg
  { au with ch0 := c0, ch1 := c1, samples := (c0.level cfg, c1.level cfg) :: au.samples }

/-- `k` audio ticks. -/
def Audio.ticks (cfg : Config) : Nat → Audio → Audio
  | 0, au => au
  | k + 1, au => Audio.ticks cfg k (au.tick cfg)

/-- `Audio.Clock(n)` (R373): the residue grows by `n`, and each full period in it is one tick. -/
def Audio.clock (cfg : Config) (n : Nat) (au : Audio) : Audio :=
  let total := au.residue + n
  { Audio.ticks cfg (total / cfg.audioTickPeriod) au with residue := total % cfg.audioTickPeriod }

/-- An AUDC write stores the field and reduces the phase into the new table (R371, R372). -/
def Channel.writeAudc (cfg : Config) (v : Byte) (c : Channel) : Channel :=
  let c := { c with audc := v.extractLsb' 0 4 }
  { c with phase := c.phase % (c.wave cfg).len }

/-- AUDF stores bits 4:0 (R371). -/
def Channel.writeAudf (v : Byte) (c : Channel) : Channel := { c with audf := v.extractLsb' 0 5 }

/-- AUDV stores bits 3:0 (R371). -/
def Channel.writeAudv (v : Byte) (c : Channel) : Channel := { c with audv := v.extractLsb' 0 4 }

/-- The six audio registers among the timing chip's write registers (R371); any other index is not
theirs. -/
def Audio.write (cfg : Config) (i : Nat) (v : Byte) (au : Audio) : Audio :=
  match i with
  | 0x15 => { au with ch0 := au.ch0.writeAudc cfg v }
  | 0x16 => { au with ch1 := au.ch1.writeAudc cfg v }
  | 0x17 => { au with ch0 := au.ch0.writeAudf v }
  | 0x18 => { au with ch1 := au.ch1.writeAudf v }
  | 0x19 => { au with ch0 := au.ch0.writeAudv v }
  | 0x1A => { au with ch1 := au.ch1.writeAudv v }
  | _ => au

end Sys2Proof.Machine
end

