-- ==== Sys2Proof/Machine/Memory.lean ====
section
/-!
DEFINITION. Memories as canonical lists of (address, byte) pairs: what an unlisted address reads as, the
read, the write that keeps the form, and the form itself (spec/20_memory.md R68; spec/10_state.md R28).
-/

namespace Sys2Proof.Machine

/-- What an address with no entry reads as.  The spec leaves RAM and cartridge RAM open at power-on
(R28, D28) and the image's bytes are the host's (R470): DESIGN CHOICE 0x00, unsafe, notes/assumptions/2. -/
def Memory.unlisted : Byte := 0

/-- Read one byte. -/
def Memory.read : Memory → Nat → Byte
  | [], _ => Memory.unlisted
  | (k, v) :: rest, a => if k = a then v else Memory.read rest a

/-- Write one byte, keeping addresses rising and no entry equal to the unlisted value. -/
def Memory.write : Memory → Nat → Byte → Memory
  | [], a, v => if v = Memory.unlisted then [] else [(a, v)]
  | (k, w) :: rest, a, v =>
    if a < k then (if v = Memory.unlisted then (k, w) :: rest else (a, v) :: (k, w) :: rest)
    else if a = k then (if v = Memory.unlisted then rest else (a, v) :: rest)
    else (k, w) :: Memory.write rest a v

/-- The canonical form: addresses strictly rising, no entry equal to the unlisted value. -/
abbrev Memory.wf (m : Memory) : Prop :=
  List.Pairwise (fun p q => p.1 < q.1) m ∧ ∀ c ∈ m, c.2 ≠ Memory.unlisted

/-- The canonical form within `size` bytes. -/
abbrev Memory.wfIn (size : Nat) (m : Memory) : Prop := Memory.wf m ∧ ∀ c ∈ m, c.1 < size

end Sys2Proof.Machine
end

