-- ==== Sys2Proof/Machine/Mapper.lean ====
section
/-!
DEFINITION. Cartridge bank switching (spec/64_mappers.md R390 to R428): the access each scheme answers,
the side-effect-free read, the registry, and the power-on selection.  Addresses are the 13-bit bus
address as a number; `none` is the spec's `undriven`.
-/

namespace Sys2Proof.Machine

/-- One byte of the image. -/
def Rom.read (rom : Rom) (off : Nat) : Byte := rom.bytes.read off

/-- The access selects the cartridge: `a13[12] = 1` (R390). -/
def inWindow (a : Nat) : Bool := decide (4096 ≤ a)

/-- Number of banks of a standard scheme (R401 to R403). -/
def StdSize.banks : StdSize → Nat
  | .f8 => 2
  | .f6 => 4
  | .f4 => 8

/-- Lowest hotspot of a standard scheme (R401 to R403). -/
def StdSize.firstHotspot : StdSize → Nat
  | .f8 => 0x1FF8
  | .f6 => 0x1FF6
  | .f4 => 0x1FF4

/-- The bank in force in an access to `a` under a standard scheme: hotspot number `i` selects bank `i`,
or bank `nb - 1 - i` in the reversed variants (R401 to R404). -/
def StdSize.select (sz : StdSize) (reversed : Bool) (a bank : Nat) : Nat :=
  if sz.firstHotspot ≤ a ∧ a < sz.firstHotspot + sz.banks then
    let i := a - sz.firstHotspot
    if reversed then sz.banks - 1 - i else i
  else bank

/-- A ROM byte of a 4 KiB bank, when the window is accessed (R394). -/
def bankRead (rom : Rom) (bank a : Nat) : Option Byte :=
  if inWindow a then some (rom.read (bank * 4096 + a % 4096)) else none

/-- The slot `a` falls in and its slice under the Parker Brothers scheme (R406). -/
def parkerSlice (s0 s1 s2 : BitVec 3) (a : Nat) : Nat :=
  match a / 1024 % 4 with
  | 0 => s0.toNat
  | 1 => s1.toNat
  | 2 => s2.toNat
  | _ => 7

/-- One step of the Pitfall-II shift register (R421). -/
def lfsrStep (l : Byte) : Byte :=
  let b := !((l.getLsbD 7 ^^ l.getLsbD 5) ^^ (l.getLsbD 4 ^^ l.getLsbD 3))
  l.extractLsb' 0 7 ++ BitVec.ofBool b

/-- The mask flag as the byte a program reads: `0xFF` or `0x00` (R417). -/
def flagByte (f : Bool) : Byte := if f then 0xFF else 0x00

/-- The flag of fetcher `i` after the comparator has run (R420). -/
def Dpc.flagNow (d : Dpc) (i : Fin 8) : Bool :=
  let low := d.ctr[i].extractLsb' 0 8
  if low = d.top[i] then true else if low = d.bot[i] then false else d.flag[i]

/-- The value function `f` of fetcher `i` shows, from the state after the shift register and the
comparator have moved (R424). -/
def Dpc.readValue (rom : Rom) (d : Dpc) (i : Fin 8) (f : Nat) : Byte :=
  let data := rom.read (8192 + (2047 - d.ctr[i].toNat))
  match f with
  | 0 => if i.val < 4 then d.lfsr else 0
  | 1 => data
  | 2 => data &&& flagByte d.flag[i]
  | 7 => flagByte d.flag[i]
  | _ => 0

/-- `DpcRead(i, f)` (R424): step the shift register, update the flag, read, count down. -/
def Dpc.read (rom : Rom) (i : Fin 8) (f : Nat) (d : Dpc) : Byte × Dpc :=
  let d := { d with lfsr := lfsrStep d.lfsr, flag := d.flag.set i (d.flagNow i) }
  (d.readValue rom i f, { d with ctr := d.ctr.set i (d.ctr[i] - 1) })

/-- The music bits after a high-counter write of `v` to fetcher `i` (R419). -/
def Dpc.musicSet (d : Dpc) (i : Fin 8) (v : Byte) : Vector Bool 3 :=
  Vector.ofFn fun k : Fin 3 => if i.val = 5 + k.val then v.getLsbD 4 else d.music[k]

/-- `DpcWrite(i, f, v)` (R419). -/
def Dpc.write (i : Fin 8) (f : Nat) (v : Byte) (d : Dpc) : Dpc :=
  match f with
  | 0 => { d with top := d.top.set i v, flag := d.flag.set i false }
  | 1 => { d with bot := d.bot.set i v }
  | 2 => { d with ctr := d.ctr.set i (d.ctr[i].extractLsb' 8 3 ++ v) }
  | 3 =>
    { d with
      ctr := d.ctr.set i (v.extractLsb' 0 3 ++ d.ctr[i].extractLsb' 0 8)
      music := d.musicSet i v }
  | 6 => { d with lfsr := 1 }
  | _ => d

/-- The fetcher number `o & 7` of a register address (R418). -/
def fetcherOf (o : Nat) : Fin 8 := ⟨o % 8, Nat.mod_lt _ (by decide)⟩

/-- `F8 F6 F4` and the reversed variants (R401 to R404). -/
def accessStd (rom : Rom) (a : Nat) (sz : StdSize) (reversed : Bool) (bank : Nat) : Option Byte × Mapper :=
  let bank := sz.select reversed a bank
  (bankRead rom bank a, .std sz reversed bank)

/-- `F8SC F6SC F4SC` (R405, R397). -/
def accessSuperChip (rom : Rom) (a : Nat) (data : Byte) (sz : StdSize) (bank : Nat) (cram : Memory) :
    Option Byte × Mapper :=
  let bank := sz.select false a bank
  let o := a % 4096
  if inWindow a && decide (o < 0x080) then (none, .superChip sz bank (cram.write o data))
  else if inWindow a && decide (o < 0x100) then (some (cram.read (o - 0x080)), .superChip sz bank cram)
  else (bankRead rom bank a, .superChip sz bank cram)

/-- `E0` (R406). -/
def accessParker (rom : Rom) (a : Nat) (s0 s1 s2 : BitVec 3) : Option Byte × Mapper :=
  let s0 := if 0x1FE0 ≤ a ∧ a ≤ 0x1FE7 then BitVec.ofNat 3 a else s0
  let s1 := if 0x1FE8 ≤ a ∧ a ≤ 0x1FEF then BitVec.ofNat 3 a else s1
  let s2 := if 0x1FF0 ≤ a ∧ a ≤ 0x1FF7 then BitVec.ofNat 3 a else s2
  (if inWindow a then some (rom.read (parkerSlice s0 s1 s2 a * 1024 + a % 1024)) else none, .parker s0 s1 s2)

/-- Number of 2 KiB slices of the image (R407). -/
def Rom.slices (rom : Rom) : Nat := rom.size / 2048

/-- `3F` (R407): any access to `a13 <= 0x3F` selects by the byte on the data bus. -/
def accessTigervision (rom : Rom) (a : Nat) (data : Byte) (bank : Nat) : Option Byte × Mapper :=
  let bank := if a ≤ 0x003F then data.toNat % rom.slices else bank
  (if inWindow a then
      some (rom.read ((if a / 2048 % 2 = 0 then bank else rom.slices - 1) * 2048 + a % 2048))
    else none,
    .tigervision bank)

/-- `3E` (R408, R397). -/
def accessTigervisionRam (rom : Rom) (a : Nat) (data : Byte) (ramMode : Bool) (bank : Nat) (rbank : BitVec 5)
    (cram : Memory) : Option Byte × Mapper :=
  if a = 0x003F then (none, .tigervisionRam false (data.toNat % rom.slices) rbank cram)
  else if a = 0x003E then (none, .tigervisionRam true bank (data.extractLsb' 0 5) cram)
  else if !inWindow a then (none, .tigervisionRam ramMode bank rbank cram)
  else if a / 2048 % 2 = 1 then
    (some (rom.read ((rom.slices - 1) * 2048 + a % 2048)), .tigervisionRam ramMode bank rbank cram)
  else if !ramMode then (some (rom.read (bank * 2048 + a % 2048)), .tigervisionRam ramMode bank rbank cram)
  else
    let k := rbank.toNat * 1024 + a % 1024
    if a / 1024 % 2 = 0 then (some (cram.read k), .tigervisionRam ramMode bank rbank cram)
    else (none, .tigervisionRam ramMode bank rbank (cram.write k data))

/-- `FE` (R411): the byte comes from the bank selected before the access; an armed trigger takes bit 5 of
the byte on the data bus. -/
def accessActivision (rom : Rom) (a : Nat) (data : Byte) (bank : Nat) (armed : Bool) : Option Byte × Mapper :=
  let r := bankRead rom bank a
  let d := r.getD data
  (r, .activision (if armed then (if d.getLsbD 5 then 0 else 1) else bank) (decide (a = 0x01FE)))

/-- `E7` (R412, R397). -/
def accessMNetwork (rom : Rom) (a : Nat) (data : Byte) (low : BitVec 3) (page : BitVec 2)
    (ram1k ram256 : Memory) : Option Byte × Mapper :=
  let low := if 0x1FE0 ≤ a ∧ a ≤ 0x1FE7 then BitVec.ofNat 3 a else low
  let page := if 0x1FE8 ≤ a ∧ a ≤ 0x1FEB then BitVec.ofNat 2 a else page
  let o := a % 4096
  if !inWindow a then (none, .mNetwork low page ram1k ram256)
  else if o < 0x0800 then
    if low.toNat < 7 then (some (rom.read (low.toNat * 2048 + o)), .mNetwork low page ram1k ram256)
    else if o < 0x0400 then (none, .mNetwork low page (ram1k.write o data) ram256)
    else (some (ram1k.read (o - 0x0400)), .mNetwork low page ram1k ram256)
  else if o < 0x0900 then
    (none, .mNetwork low page ram1k (ram256.write (page.toNat * 256 + (o - 0x0800)) data))
  else if o < 0x0A00 then
    (some (ram256.read (page.toNat * 256 + (o - 0x0900))), .mNetwork low page ram1k ram256)
  else (some (rom.read (7 * 2048 + (o - 0x0800))), .mNetwork low page ram1k ram256)

/-- The bank in force in an access to `a` under `FA` (R413). -/
def cbsSelect (a bank : Nat) : Nat := if 0x1FF8 ≤ a ∧ a ≤ 0x1FFA then a - 0x1FF8 else bank

/-- `FA` (R413, R397). -/
def accessCbs (rom : Rom) (a : Nat) (data : Byte) (bank : Nat) (cram : Memory) : Option Byte × Mapper :=
  let bank := cbsSelect a bank
  let o := a % 4096
  if inWindow a && decide (o < 0x100) then (none, .cbs bank (cram.write o data))
  else if inWindow a && decide (o < 0x200) then (some (cram.read (o - 0x100)), .cbs bank cram)
  else (bankRead rom bank a, .cbs bank cram)

/-- `F0` (R414): each access to the hotspot selects the next bank. -/
def accessMegaboy (rom : Rom) (a : Nat) (bank : BitVec 4) : Option Byte × Mapper :=
  let bank := if a = 0x1FF0 then bank + 1 else bank
  (bankRead rom bank.toNat a, .megaboy bank)

/-- `UA` (R415). -/
def accessUa (rom : Rom) (a bank : Nat) : Option Byte × Mapper :=
  let bank := if a = 0x0220 then 0 else if a = 0x0240 then 1 else bank
  (bankRead rom bank a, .uaLimited bank)

/-- `DPC` (R418). -/
def accessPitfall2 (rom : Rom) (a : Nat) (data : Byte) (d : Dpc) : Option Byte × Mapper :=
  let d := { d with bank := StdSize.f8.select false a d.bank }
  let o := a % 4096
  if !inWindow a then (none, .pitfall2 d)
  else if o < 0x040 then
    let r := d.read rom (fetcherOf o) (o / 8 % 8)
    (some r.1, .pitfall2 r.2)
  else if o < 0x080 then (none, .pitfall2 (d.write (fetcherOf o) (o / 8 % 8) data))
  else (some (rom.read (d.bank * 4096 + o)), .pitfall2 d)

/-- `Mapper.Access(a13, data)` (R390). -/
def Mapper.access (rom : Rom) (a : Nat) (data : Byte) : Mapper → Option Byte × Mapper
  | .fixed2K => (if inWindow a then some (rom.read (a % 2048)) else none, .fixed2K)
  | .fixed4K => (bankRead rom 0 a, .fixed4K)
  | .std sz reversed bank => accessStd rom a sz reversed bank
  | .superChip sz bank cram => accessSuperChip rom a data sz bank cram
  | .parker s0 s1 s2 => accessParker rom a s0 s1 s2
  | .tigervision bank => accessTigervision rom a data bank
  | .tigervisionRam ramMode bank rbank cram => accessTigervisionRam rom a data ramMode bank rbank cram
  | .activision bank armed => accessActivision rom a data bank armed
  | .mNetwork low page ram1k ram256 => accessMNetwork rom a data low page ram1k ram256
  | .cbs bank cram => accessCbs rom a data bank cram
  | .megaboy bank => accessMegaboy rom a bank
  | .uaLimited bank => accessUa rom a bank
  | .pitfall2 d => accessPitfall2 rom a data d

/-- `Mapper.Read(a13)` (R391): the byte mapped at `a`, with no state change; behind a RAM write port it is
the RAM byte.  `none` where the rule calls the result meaningless (`a13[12] = 0`) and at the Pitfall-II
write registers, which hold no byte; at the Pitfall-II read registers it is the value their function has now.
DESIGN CHOICE, safe, notes/assumptions/14. -/
def Mapper.view (rom : Rom) (a : Nat) (m : Mapper) : Option Byte :=
  let o := a % 4096
  if !inWindow a then none
  else match m with
  | .fixed2K => some (rom.read (a % 2048))
  | .fixed4K => some (rom.read o)
  | .std _ _ bank => some (rom.read (bank * 4096 + o))
  | .superChip _ bank cram =>
    if o < 0x100 then some (cram.read (o % 0x080)) else some (rom.read (bank * 4096 + o))
  | .parker s0 s1 s2 => some (rom.read (parkerSlice s0 s1 s2 a * 1024 + a % 1024))
  | .tigervision bank => some (rom.read ((if a / 2048 % 2 = 0 then bank else rom.slices - 1) * 2048 + a % 2048))
  | .tigervisionRam ramMode bank rbank cram =>
    if a / 2048 % 2 = 1 then some (rom.read ((rom.slices - 1) * 2048 + a % 2048))
    else if !ramMode then some (rom.read (bank * 2048 + a % 2048))
    else some (cram.read (rbank.toNat * 1024 + a % 1024))
  | .activision bank _ => some (rom.read (bank * 4096 + o))
  | .mNetwork low page ram1k ram256 =>
    if o < 0x0800 then
      if low.toNat < 7 then some (rom.read (low.toNat * 2048 + o)) else some (ram1k.read (o % 0x0400))
    else if o < 0x0A00 then some (ram256.read (page.toNat * 256 + o % 0x0100))
    else some (rom.read (7 * 2048 + (o - 0x0800)))
  | .cbs bank cram =>
    if o < 0x200 then some (cram.read (o % 0x100)) else some (rom.read (bank * 4096 + o))
  | .megaboy bank => some (rom.read (bank.toNat * 4096 + o))
  | .uaLimited bank => some (rom.read (bank * 4096 + o))
  | .pitfall2 d =>
    if o < 0x040 then some (d.readValue rom (fetcherOf o) (o / 8 % 8))
    else if o < 0x080 then none
    else some (rom.read (d.bank * 4096 + o))

/-- `Mapper.Access` on the bound cartridge; the image never changes (R390). -/
def Cart.access (a : Nat) (data : Byte) (c : Cart) : Option Byte × Cart :=
  let r := c.mapper.access c.rom a data
  (r.1, { c with mapper := r.2 })

/-- The 20 scheme names of R428. -/
inductive Scheme where
  | s2K | s4K
  | sF8 | sF6 | sF4
  | sF8R | sF6R | sF4R
  | sF8SC | sF6SC | sF4SC
  | sE0 | s3F | s3E | sFE | sE7 | sFA | sF0 | sUA | sDPC
deriving DecidableEq, Repr

/-- All schemes, in the order of R428's table. -/
def allSchemes : List Scheme :=
  [.s2K, .s4K, .sF8, .sF6, .sF4, .sF8R, .sF6R, .sF4R, .sF8SC, .sF6SC, .sF4SC, .sE0, .s3F, .s3E, .sFE, .sE7,
   .sFA, .sF0, .sUA, .sDPC]

/-- The image sizes a scheme accepts (R428). -/
def Scheme.accepts (s : Scheme) (size : Nat) : Bool :=
  match s with
  | .s2K => size == 2048
  | .s4K => size == 4096
  | .sF8 | .sF8R | .sF8SC | .sE0 | .sFE | .sUA => size == 8192
  | .sF6 | .sF6R | .sF6SC | .sE7 => size == 16384
  | .sF4 | .sF4R | .sF4SC => size == 32768
  | .s3F | .s3E => size % 2048 == 0 && decide (1 ≤ size / 2048 ∧ size / 2048 ≤ 256)
  | .sFA => size == 12288
  | .sF0 => size == 65536
  | .sDPC => decide (10240 ≤ size)

/-- The registry's `schemesFor(size)` (R393). -/
def schemesFor (size : Nat) : List Scheme := allSchemes.filter (·.accepts size)

/-- Membership in the registry's `alllowedSizes()` (R393). -/
def sizeAllowed (size : Nat) : Bool := !(schemesFor size).isEmpty

/-- The scheme a mapper variant is. -/
def Mapper.scheme : Mapper → Scheme
  | .fixed2K => .s2K
  | .fixed4K => .s4K
  | .std .f8 false _ => .sF8
  | .std .f6 false _ => .sF6
  | .std .f4 false _ => .sF4
  | .std .f8 true _ => .sF8R
  | .std .f6 true _ => .sF6R
  | .std .f4 true _ => .sF4R
  | .superChip .f8 _ _ => .sF8SC
  | .superChip .f6 _ _ => .sF6SC
  | .superChip .f4 _ _ => .sF4SC
  | .parker _ _ _ => .sE0
  | .tigervision _ => .s3F
  | .tigervisionRam _ _ _ _ => .s3E
  | .activision _ _ => .sFE
  | .mNetwork _ _ _ _ => .sE7
  | .cbs _ _ => .sFA
  | .megaboy _ => .sF0
  | .uaLimited _ => .sUA
  | .pitfall2 _ => .sDPC

/-- The Pitfall-II state at power-on with bank `b` (R417). -/
def Dpc.powerOn (b : Nat) : Dpc :=
  { bank := b, ctr := Vector.replicate 8 0, top := Vector.replicate 8 0, bot := Vector.replicate 8 0,
    flag := Vector.replicate 8 false, lfsr := 1, music := Vector.replicate 3 false }

/-- The mapper at power-on (R398): every bank or slice selector at `MAPPER_INIT_BANK` mod the number of
choices; `mem` is the power-on content of cartridge RAM (for `E7`: of the 1 KiB and of the four pages). -/
def Mapper.powerOn (initBank slices : Nat) (mem mem256 : Memory) : Scheme → Mapper
  | .s2K => .fixed2K
  | .s4K => .fixed4K
  | .sF8 => .std .f8 false (initBank % 2)
  | .sF6 => .std .f6 false (initBank % 4)
  | .sF4 => .std .f4 false (initBank % 8)
  | .sF8R => .std .f8 true (initBank % 2)
  | .sF6R => .std .f6 true (initBank % 4)
  | .sF4R => .std .f4 true (initBank % 8)
  | .sF8SC => .superChip .f8 (initBank % 2) mem
  | .sF6SC => .superChip .f6 (initBank % 4) mem
  | .sF4SC => .superChip .f4 (initBank % 8) mem
  | .sE0 => .parker (BitVec.ofNat 3 initBank) (BitVec.ofNat 3 initBank) (BitVec.ofNat 3 initBank)
  | .s3F => .tigervision (initBank % slices)
  | .s3E => .tigervisionRam false (initBank % slices) (BitVec.ofNat 5 initBank) mem
  | .sFE => .activision (initBank % 2) false
  | .sE7 => .mNetwork (BitVec.ofNat 3 initBank) (BitVec.ofNat 2 initBank) mem mem256
  | .sFA => .cbs (initBank % 3) mem
  | .sF0 => .megaboy (BitVec.ofNat 4 initBank)
  | .sUA => .uaLimited (initBank % 2)
  | .sDPC => .pitfall2 (Dpc.powerOn (initBank % 2))

/-- The registry's `create(schemeName, romBytes)` (R393): none for a (size, scheme) pair outside the
table, where the machine is not built; notes/assumptions/15. -/
def Cart.create (cfg : Config) (s : Scheme) (rom : Rom) (mem mem256 : Memory) : Option Cart :=
  if s.accepts rom.size then some { rom := rom, mapper := Mapper.powerOn cfg.mapperInitBank rom.slices mem mem256 s }
  else none

/-- Every selector is one of its scheme's choices and cartridge RAM is in canonical form within its
size (R401 to R417). -/
abbrev Mapper.wf (slices : Nat) (m : Mapper) : Prop :=
  match m with
  | .fixed2K | .fixed4K | .parker _ _ _ | .megaboy _ => True
  | .std sz _ bank => bank < sz.banks
  | .superChip sz bank cram => bank < sz.banks ∧ Memory.wfIn 128 cram
  | .tigervision bank => bank < slices
  | .tigervisionRam _ bank _ cram => bank < slices ∧ Memory.wfIn 32768 cram
  | .activision bank _ | .uaLimited bank => bank < 2
  | .mNetwork _ _ ram1k ram256 => Memory.wfIn 1024 ram1k ∧ Memory.wfIn 1024 ram256
  | .cbs bank cram => bank < 3 ∧ Memory.wfIn 256 cram
  | .pitfall2 d => d.bank < 2

/-- The cartridge is a row of the registry, with its image and its mapper state well formed (R393,
R428). -/
abbrev Cart.wf (c : Cart) : Prop :=
  c.mapper.scheme.accepts c.rom.size = true ∧ Memory.wfIn c.rom.size c.rom.bytes ∧ c.mapper.wf c.rom.slices

end Sys2Proof.Machine
end

