-- ==== Sys2Proof/Machine/Ports.lean ====
section
/-!
DEFINITION. The controller-port interface (spec/61_riot.md R286): what a controller answers, the history of calls
it answers by, and the calls each access makes.
-/

namespace Sys2Proof.Machine

/-- What a controller answers after a history of calls (R286). -/
def Controller.answers (c : Controller) (history : List PortCall) : Pins :=
  (c.scripted.lookup history).getD c.held

/-- The part of its history a controller's answers can depend on: all of it, or nothing where no history is
listed. -/
def Controller.remembers (c : Controller) (history : List PortCall) : List PortCall :=
  if c.scripted.isEmpty then [] else history

/-- The time a call takes: `clock(n)` says that `n` system clocks pass (R75, R286). -/
def PortCall.time : PortCall → Nat
  | .clock n => n
  | .transitions | .peek | .poke _ | .latch _ | .ground _ | .pot1 | .pot2 | .fire => 0

/-- The system clocks a history of calls tells of. -/
def callTime : List PortCall → Nat
  | [] => 0
  | c :: cs => c.time + callTime cs

/-- The input lines as they are now: what the accesses of this moment read (R286, R469). -/
def Bus.lines (b : Bus) : Lines :=
  { switches := b.inputs.switches
    left := b.inputs.left.answers b.portCalls.left
    right := b.inputs.right.answers b.portCalls.right }

/-- The calls `xs` made after the history `h`. -/
def PortCalls.after (xs h : PortCalls) : PortCalls := { left := xs.left ++ h.left, right := xs.right ++ h.right }

/-- Make calls on the ports (R286). -/
def Bus.call (calls : PortCalls) (b : Bus) : Bus := { b with portCalls := calls.after b.portCalls }

/-- The same calls on both ports. -/
def PortCalls.both (cs : List PortCall) : PortCalls := { left := cs, right := cs }

/-- No call. -/
def PortCalls.none : PortCalls := .both []

/-- The calls a timing-chip read makes, by its index (R286, R345). -/
def inptCalls (i : Nat) : PortCalls :=
  match i with
  | 0x8 => { left := [.pot1], right := [] }
  | 0x9 => { left := [.pot2], right := [] }
  | 0xA => { left := [], right := [.pot1] }
  | 0xB => { left := [], right := [.pot2] }
  | 0xC => { left := [.fire], right := [] }
  | 0xD => { left := [], right := [.fire] }
  | _ => .none

/-- The calls an I/O-chip read makes: SWCHA peeks at both ports (R283, R286). -/
def riotReadCalls (idx : BitVec 5) : PortCalls :=
  if idx.getLsbD 2 = false ∧ idx.extractLsb' 0 2 = 0 then .both [.peek] else .none

/-- The calls a timing-chip write makes: VBLANK calls `latch` and then `ground` on both ports (R343). -/
def tiaWriteCalls (i : Nat) (v : Byte) : PortCalls :=
  if i = 0x01 then .both [.ground (v.getLsbD 7), .latch (v.getLsbD 6)] else .none

/-- What a notification presents at port A: output bits, and 1 on input pins (R286, D15). -/
def Riot.portOut (r : Riot) : Byte := (r.ora &&& r.ddra) ||| ~~~r.ddra

/-- The write changes port A's outputs, so the controllers are notified (R283, R284, R286). -/
def notifiesControllers (idx : BitVec 5) : Bool := !idx.getLsbD 2 && !idx.getLsbD 1

/-- The calls an I/O-chip write makes, on the chip as the write leaves it: `NotifyControllers()` pokes each port
with its four bits (R286). -/
def Riot.writeCalls (idx : BitVec 5) (r : Riot) : PortCalls :=
  if notifiesControllers idx then
    { left := [.poke (r.portOut.extractLsb' 4 4)], right := [.poke (r.portOut.extractLsb' 0 4)] }
  else .none

end Sys2Proof.Machine
end

