-- ==== Sys2Proof/Machine/Bits.lean ====
section
/-!
DEFINITION. Bit-field, extension and byte-order helpers (spec/00_scope.md R7, R8; spec/20_memory.md R69).
-/

namespace Sys2Proof.Machine

/-- `hi:lo`, the 16-bit quantity assembled from two bytes (R7, R69). -/
def wordOf (hi lo : Byte) : Word := hi ++ lo

/-- `a[15:8]`, the page of an address (R7). -/
def page (a : Word) : Byte := a.extractLsb' 8 8

/-- `a[7:0]`. -/
def lowByte (a : Word) : Byte := a.extractLsb' 0 8

/-- `zext_16` (R8). -/
def zext16 (v : Byte) : Word := v.setWidth 16

/-- `sext_16` (R8). -/
def sext16 (v : Byte) : Word := v.signExtend 16

/-- A flag as a number, 0 or 1 (R8). -/
def bitNat (b : Bool) : Nat := if b then 1 else 0

/-- The byte with its bits in the opposite order: bit `j` of the result is bit `7 - j` (R314). -/
def reverseByte (v : Byte) : Byte :=
  BitVec.ofBoolListLE [v.getLsbD 7, v.getLsbD 6, v.getLsbD 5, v.getLsbD 4, v.getLsbD 3, v.getLsbD 2, v.getLsbD 1,
    v.getLsbD 0]

/-- The 13 address bits that reach the bus, as a number (R60). -/
def addr13 (a : Word) : Nat := a.toNat % 8192

end Sys2Proof.Machine
end

