-- ==== Sys2Proof/Machine/Riot.lean ====
section
/-!
DEFINITION. The I/O and timer chip (spec/61_riot.md R270 to R291).
-/

namespace Sys2Proof.Machine

/-- The right-shift a prescale stands for (R271). -/
def Prescale.bits : Prescale → Nat
  | .shift0 => 0
  | .shift3 => 3
  | .shift6 => 6
  | .shift10 => 10

/-- The prescale a timer write selects by `idx[1:0]` (R272). -/
def prescaleOf (idx : BitVec 5) : Prescale :=
  match (idx.extractLsb' 0 2).toNat with
  | 0 => .shift0
  | 1 => .shift3
  | 2 => .shift6
  | _ => .shift10

/-- `RIOT.Clock(n)` (R276). -/
def Riot.clock (n : Nat) (r : Riot) : Riot := { r with residue := r.residue + n }

/-- `CatchUp()` (R277): elapsed ticks are subtracted; below zero the value wraps to 8 bits, the prescale
is dropped and the timer flag is set. -/
def Riot.catchUp (r : Riot) : Riot :=
  let t := r.timer - (r.residue / 3 : Nat)
  let r := { r with residue := r.residue % 3 }
  if t < 0 then { r with timer := t % 256, shift := .shift0, timerIrq := true }
  else { r with timer := t }

/-- The visible countdown `(timer >> shift) & 0xFF` (R275, R281). -/
def Riot.visible (r : Riot) : Byte := BitVec.ofInt 8 (r.timer / (2 ^ r.shift.bits : Nat))

/-- `in` of R283: the left port is the high nibble. -/
def Lines.portA (inp : Lines) : Byte := inp.left.peek ++ inp.right.peek

/-- The byte of the switch panel (R288): bit 0 reset and bit 1 select, 0 when pressed; bit 3 colour; bits 6 and 7
left and right difficulty; bits 2, 4 and 5 have no switch and read 1. -/
def Switches.byte (p : Switches) : Byte :=
  BitVec.ofBoolListLE
    [!p.resetPressed, !p.selectPressed, true, p.colour, true, true, p.leftExpert, p.rightExpert]

/-- What a port reads: the output register on output bits, the input on the others (R283, R285). -/
def portRead (out ddr inp : Byte) : Byte := (out &&& ddr) ||| (inp &&& ~~~ddr)

/-- Sample the level of PA7: a fall from 1 to 0 sets the edge flag (R287). -/
def Riot.samplePa7 (lvl : Bool) (r : Riot) : Riot :=
  { r with edgeIrq := r.edgeIrq || (r.pa7Prev && !lvl), pa7Prev := lvl }

/-- The TIMINT byte: timer flag in bit 7, edge flag in bit 6 (R282). -/
def Riot.timint (r : Riot) : Byte := BitVec.ofBool r.timerIrq ++ BitVec.ofBool r.edgeIrq ++ 0#6

/-- `RIOT.Read(idx)` (R272, R273): catch up, then the register's read rule. -/
def Riot.read (idx : BitVec 5) (inp : Lines) (r : Riot) : Byte × Riot :=
  let r := r.catchUp
  if idx.getLsbD 2 then
    if idx.getLsbD 0 then (r.timint, { r with edgeIrq := false })
    else (r.visible, { r with timerIrq := false })
  else
    match (idx.extractLsb' 0 2).toNat with
    | 0 => (portRead r.ora r.ddra inp.portA, r.samplePa7 (inp.portA.getLsbD 7))
    | 1 => (r.ddra, r)
    | 2 => (portRead r.orb r.ddrb inp.switches.byte, r)
    | _ => (r.ddrb, r)

/-- `RIOT.Write(idx, v)` (R272, R274): catch up, then the register's write rule.  The notification of the
controllers is `Riot.writeCalls` in Ports.lean. -/
def Riot.write (idx : BitVec 5) (v : Byte) (r : Riot) : Riot :=
  let r := r.catchUp
  if idx.getLsbD 2 then
    if idx.getLsbD 4 then
      let k := prescaleOf idx
      { r with shift := k, timer := (v.toNat * 2 ^ k.bits : Nat), timerIrq := false, residue := 0 }
    else r
  else
    match (idx.extractLsb' 0 2).toNat with
    | 0 => { r with ora := v }
    | 1 => { r with ddra := v }
    | 2 => { r with orb := v }
    | _ => { r with ddrb := v }

end Sys2Proof.Machine
end

