-- ==== Sys2Proof/Machine/Tia.lean ====
section
/-!
DEFINITION. The timing chip's video half (spec/62_tia_video.md R300 to R352): the beam, the presence of
each object at a pixel, lazy rendering with the collision latches, colours, and the register file.
-/

namespace Sys2Proof.Machine

/-- `COPIES(nusiz)`: the pixel offsets of each copy's first pixel (R325). -/
def copies (nusiz : BitVec 3) : List Nat :=
  match nusiz.toNat with
  | 1 => [0, 16]
  | 2 => [0, 32]
  | 3 => [0, 16, 32]
  | 4 => [0, 64]
  | 6 => [0, 32, 64]
  | _ => [0]

/-- `stretch(nusiz)` (R325). -/
def stretch (nusiz : BitVec 3) : Nat :=
  match nusiz.toNat with
  | 5 => 2
  | 7 => 4
  | _ => 1

/-- `(x - pos - o) mod 160`: how far right of an object's first pixel `x` is, wrapping in the line
(R321). -/
def pixelOffset (x pos o : Nat) : Nat := (((x : Int) - pos - o) % 160).toNat

/-- `PlayerOn(N, x)` (R321). -/
def PlayerUnit.playerOn (p : PlayerUnit) (x : Nat) : Bool :=
  let g := if p.vdelp then p.grpOld else p.grpNew
  let s := stretch p.nusiz
  (copies p.nusiz).any fun o =>
    let d := pixelOffset x p.pos o
    decide (d < 8 * s) && (if p.refp then g.getLsbD (d / s) else g.getLsbD (7 - d / s))

/-- `MissileOn(N, x)` (R326). -/
def PlayerUnit.missileOn (p : PlayerUnit) (x : Nat) : Bool :=
  p.enam && !p.resmp &&
    (copies p.nusiz).any fun o => decide (pixelOffset x p.mpos o < 2 ^ p.mSize.toNat)

/-- `BallOn(x)` (R327). -/
def Tia.ballOn (t : Tia) (x : Nat) : Bool :=
  (if t.vdelbl then t.enablOld else t.enablNew) && decide (pixelOffset x t.posBL 0 < 2 ^ t.blSize.toNat)

/-- `PlayfieldOn(x)` (R328). -/
def Tia.playfieldOn (t : Tia) (x : Nat) : Bool :=
  let b := x / 4
  if b < 20 then t.pf.getLsbD b
  else if t.pfReflect then t.pf.getLsbD (39 - b) else t.pf.getLsbD (b - 20)

/-- The pixel is one of the first eight of a line under HMOVE blanking (R329). -/
def Tia.blanked (t : Tia) (x : Nat) : Bool := t.hmoveBlank && decide (x < 8)

/-- `Presence(x)` (R320, R321): bit 0 P0, 1 M0, 2 P1, 3 M1, 4 BL, 5 PF. -/
def Tia.presence (t : Tia) (x : Nat) : BitVec 6 :=
  if t.blanked x then 0
  else
    BitVec.ofBoolListLE [t.p0.playerOn x, t.p0.missileOn x, t.p1.playerOn x, t.p1.missileOn x, t.ballOn x,
      t.playfieldOn x]

/-- `Colour(x, m)` (R339). -/
def Tia.colourAt (t : Tia) (x : Nat) (m : BitVec 6) : Colour :=
  if t.vblank || t.blanked x then none
  else
    let pfcol :=
      if t.pfScore && !t.pfPriority then (if x < 80 then t.p0.colup else t.p1.colup) else t.colupf
    let unit0 := m &&& 0x03 != 0
    let unit1 := m &&& 0x0C != 0
    let ball := m &&& 0x10 != 0
    let field := m &&& 0x20 != 0
    if t.pfPriority then
      if field then some pfcol
      else if ball then some t.colupf
      else if unit0 then some t.p0.colup
      else if unit1 then some t.p1.colup
      else some t.colubk
    else
      if unit0 then some t.p0.colup
      else if unit1 then some t.p1.colup
      else if ball then some t.colupf
      else if field then some pfcol
      else some t.colubk

/-- `PAIR[0..14]` (R335). -/
def collisionPairs : Vector (BitVec 6) 15 :=
  #v[0x06, 0x03, 0x09, 0x0C, 0x21, 0x11, 0x24, 0x14, 0x22, 0x12, 0x28, 0x18, 0x30, 0x05, 0x0A]

/-- The mask shows both objects of pair `k` (R306, R336). -/
def covers (m : BitVec 6) (k : Fin 15) : Bool := m &&& collisionPairs[k] == collisionPairs[k]

/-- Pixel `x` is in the still-undrawn range of a catch-up: `max(rendered, 0) <= x < h` (R306). -/
def Tia.undrawn (t : Tia) (x : Nat) : Bool := decide (max t.rendered 0 ≤ (x : Int) ∧ (x : Int) < t.h)

/-- `CatchUp()` (R306): render the undrawn pixels left of the beam from the registers as they are, and
set the latch of every pair that meets in one of them (R336). -/
def Tia.catchUp (t : Tia) : Tia :=
  { t with
    line := Vector.ofFn fun x : Fin 160 => if t.undrawn x then t.presence x else t.line[x]
    colour := Vector.ofFn fun x : Fin 160 =>
      if t.undrawn x then t.colourAt x (t.presence x) else t.colour[x]
    cx := Vector.ofFn fun k : Fin 15 =>
      t.cx[k] || (List.range 160).any fun x => t.undrawn x && covers (t.presence x) k
    rendered := max t.rendered t.h }

/-- The beam moves by one clock; at the right edge the line is finished and handed to the host
(R301, R340). -/
def Tia.clock1 (t : Tia) : Tia :=
  let t := { t with h := t.h + 1 }
  if t.h = 160 then
    let t := t.catchUp
    { t with
      lines := (t.scanline, t.colour) :: t.lines
      h := -68
      rendered := -68
      scanline := t.scanline + 1
      hmoveBlank := false }
  else t

/-- The video half of `TIA.Clock(n)` (R301). -/
def Tia.clock : Nat → Tia → Tia
  | 0, t => t
  | n + 1, t => Tia.clock n t.clock1

/-- Clocks from the beam to the start of the next line: what a WSYNC write adds to the next cycle
(R341). -/
def Tia.wsyncClocks (t : Tia) : Nat := ((160 - t.h) % 228).toNat

/-- The position a player takes from the beam (R315). -/
def Tia.respPlayer (t : Tia) : Nat := if t.h < 0 then 3 else ((t.h + 5) % 160).toNat

/-- The position a missile or the ball takes from the beam (R315). -/
def Tia.respMissile (t : Tia) : Nat := if t.h < 0 then 2 else ((t.h + 4) % 160).toNat

/-- A position moved by a signed motion offset, positive to the left (R318, R323). -/
def moved (pos : Nat) (hm : BitVec 4) : Nat := (((pos : Int) - hm.toInt) % 160).toNat

/-- HMOVE on a player and its missile (R323). -/
def PlayerUnit.hmove (p : PlayerUnit) : PlayerUnit :=
  { p with pos := moved p.pos p.hm, mpos := moved p.mpos p.mhm }

/-- HMOVE (R323): shift all five objects and blank the first eight pixels of the line. -/
def Tia.hmove (t : Tia) : Tia :=
  { t with p0 := t.p0.hmove, p1 := t.p1.hmove, posBL := moved t.posBL t.hmBL, hmoveBlank := true }

/-- RESMPN (R322): lock the missile, or release it at the middle of the player's first copy. -/
def PlayerUnit.writeResmp (v : Byte) (p : PlayerUnit) : PlayerUnit :=
  { p with
    resmp := v.getLsbD 1
    mpos := if p.resmp && !v.getLsbD 1 then (p.pos + 4 * stretch p.nusiz) % 160 else p.mpos }

/-- NUSIZN (R310). -/
def PlayerUnit.writeNusiz (v : Byte) (p : PlayerUnit) : PlayerUnit :=
  { p with nusiz := v.extractLsb' 0 3, mSize := v.extractLsb' 4 2 }

/-- The rule of write register `i` of the video half (R303, R308 to R323, R337, R343), after the
catch-up.  WSYNC (index 2) acts on the processor's clock and the audio registers on the audio half: see
Bus.lean; RSYNC and indices above 0x2C have no effect (R308). -/
def Tia.write (i : Nat) (v : Byte) (t : Tia) : Tia :=
  match i with
  | 0x00 => { t with scanline := if !t.vsync && v.getLsbD 1 then 0 else t.scanline, vsync := v.getLsbD 1 }
  | 0x01 =>
    { t with
      refreshes := if !t.vblank && v.getLsbD 1 then t.refreshes + 1 else t.refreshes
      vblank := v.getLsbD 1
      inptLatch := v.getLsbD 6
      inptGround := v.getLsbD 7 }
  | 0x04 => { t with p0 := t.p0.writeNusiz v }
  | 0x05 => { t with p1 := t.p1.writeNusiz v }
  | 0x06 => { t with p0 := { t.p0 with colup := v.extractLsb' 1 7 } }
  | 0x07 => { t with p1 := { t.p1 with colup := v.extractLsb' 1 7 } }
  | 0x08 => { t with colupf := v.extractLsb' 1 7 }
  | 0x09 => { t with colubk := v.extractLsb' 1 7 }
  | 0x0A =>
    { t with
      pfReflect := v.getLsbD 0
      pfScore := v.getLsbD 1
      pfPriority := v.getLsbD 2
      blSize := v.extractLsb' 4 2 }
  | 0x0B => { t with p0 := { t.p0 with refp := v.getLsbD 3 } }
  | 0x0C => { t with p1 := { t.p1 with refp := v.getLsbD 3 } }
  | 0x0D => { t with pf := t.pf.extractLsb' 4 16 ++ v.extractLsb' 4 4 }
  | 0x0E => { t with pf := t.pf.extractLsb' 12 8 ++ reverseByte v ++ t.pf.extractLsb' 0 4 }
  | 0x0F => { t with pf := v ++ t.pf.extractLsb' 0 12 }
  | 0x10 => { t with p0 := { t.p0 with pos := t.respPlayer } }
  | 0x11 => { t with p1 := { t.p1 with pos := t.respPlayer } }
  | 0x12 => { t with p0 := { t.p0 with mpos := t.respMissile } }
  | 0x13 => { t with p1 := { t.p1 with mpos := t.respMissile } }
  | 0x14 => { t with posBL := t.respMissile }
  | 0x1B => { t with p0 := { t.p0 with grpNew := v }, p1 := { t.p1 with grpOld := t.p1.grpNew } }
  | 0x1C =>
    { t with
      p1 := { t.p1 with grpNew := v }
      p0 := { t.p0 with grpOld := t.p0.grpNew }
      enablOld := t.enablNew }
  | 0x1D => { t with p0 := { t.p0 with enam := v.getLsbD 1 } }
  | 0x1E => { t with p1 := { t.p1 with enam := v.getLsbD 1 } }
  | 0x1F => { t with enablNew := v.getLsbD 1 }
  | 0x20 => { t with p0 := { t.p0 with hm := v.extractLsb' 4 4 } }
  | 0x21 => { t with p1 := { t.p1 with hm := v.extractLsb' 4 4 } }
  | 0x22 => { t with p0 := { t.p0 with mhm := v.extractLsb' 4 4 } }
  | 0x23 => { t with p1 := { t.p1 with mhm := v.extractLsb' 4 4 } }
  | 0x24 => { t with hmBL := v.extractLsb' 4 4 }
  | 0x25 => { t with p0 := { t.p0 with vdelp := v.getLsbD 0 } }
  | 0x26 => { t with p1 := { t.p1 with vdelp := v.getLsbD 0 } }
  | 0x27 => { t with vdelbl := v.getLsbD 0 }
  | 0x28 => { t with p0 := t.p0.writeResmp v }
  | 0x29 => { t with p1 := t.p1.writeResmp v }
  | 0x2A => t.hmove
  | 0x2B =>
    { t with
      p0 := { t.p0 with hm := 0, mhm := 0 }
      p1 := { t.p1 with hm := 0, mhm := 0 }
      hmBL := 0 }
  | 0x2C => { t with cx := Vector.replicate 15 false }
  | _ => t

/-- Bits 7 and 6 of read register `i`, for `i` in 0..13 (R303, R335, R345). -/
def Tia.readBits (t : Tia) (inp : Lines) (i : Nat) : Bool × Bool :=
  match i with
  | 0x0 => (t.cx[0], t.cx[1])
  | 0x1 => (t.cx[2], t.cx[3])
  | 0x2 => (t.cx[4], t.cx[5])
  | 0x3 => (t.cx[6], t.cx[7])
  | 0x4 => (t.cx[8], t.cx[9])
  | 0x5 => (t.cx[10], t.cx[11])
  | 0x6 => (t.cx[12], false)
  | 0x7 => (t.cx[13], t.cx[14])
  | 0x8 => (inp.left.pot1.getLsbD 7, false)
  | 0x9 => (inp.left.pot2.getLsbD 7, false)
  | 0xA => (inp.right.pot1.getLsbD 7, false)
  | 0xB => (inp.right.pot2.getLsbD 7, false)
  | 0xC => (inp.left.fire.getLsbD 7, false)
  | 0xD => (inp.right.fire.getLsbD 7, false)
  | _ => (false, false)

/-- The byte `TIA.Read(i)` returns after its catch-up (R304): two driven bits over the open bus, or the
open bus alone for the two indices with no register. -/
def Tia.readByte (t : Tia) (inp : Lines) (trash : Byte) (i : Nat) : Byte :=
  if 0xE ≤ i then trash
  else
    let r := t.readBits inp i
    BitVec.ofBool r.1 ++ BitVec.ofBool r.2 ++ trash.extractLsb' 0 6

end Sys2Proof.Machine
end

