-- ==== Sys2Proof/Machine/Bus.lean ====
section
/-!
DEFINITION. The bus: address decoding, the decoder's read and write, and the passing of one processor
cycle (spec/20_memory.md R60 to R81).
-/

namespace Sys2Proof.Machine

/-- The four chips an address can select (R62). -/
inductive Chip where
  | cart
  | tia
  | ram
  | riot
deriving DecidableEq, Repr

/-- The decoding rule on the 13 address bits (R60, R62). -/
def chipOf (a : Word) : Chip :=
  if a.getLsbD 12 then .cart
  else if !a.getLsbD 7 then .tia
  else if !a.getLsbD 9 then .ram
  else .riot

/-- Index passed to RAM: `a13 & 0x7F` (R62). -/
def ramIndex (a : Word) : Nat := a.toNat % 128

/-- Index of a timing-chip read: `a13 & 0x0F` (R62). -/
def tiaReadIndex (a : Word) : Nat := a.toNat % 16

/-- Index of a timing-chip write: `a13 & 0x3F` (R62). -/
def tiaWriteIndex (a : Word) : Nat := a.toNat % 64

/-- Index passed to the I/O chip: `a13 & 0x1F` (R62, R270). -/
def riotIndex (a : Word) : BitVec 5 := a.extractLsb' 0 5

/-- The cartridge observes an access made to another chip, whose byte is `v`; its answer is ignored
(R64, R65, R67).  The byte becomes the open-bus value (R66). -/
def Bus.settle (a : Word) (v : Byte) (b : Bus) : Bus :=
  { b with cart := (b.cart.access (addr13 a) v).2, busTrash := v }

/-- `Peek(a)` (R64). -/
def Bus.peek (a : Word) (b : Bus) : Byte × Bus :=
  match chipOf a with
  | .cart =>
    let r := b.cart.access (addr13 a) b.busTrash
    let v := r.1.getD b.busTrash
    (v, { b with cart := r.2, busTrash := v })
  | .tia =>
    let t := b.tia.catchUp
    let v := t.readByte b.lines b.busTrash (tiaReadIndex a)
    (v, ({ b with tia := t }.call (inptCalls (tiaReadIndex a))).settle a v)
  | .ram =>
    let v := b.ram.read (ramIndex a)
    (v, b.settle a v)
  | .riot =>
    let r := b.riot.read (riotIndex a) b.lines
    (r.1, ({ b with riot := r.2 }.call (riotReadCalls (riotIndex a))).settle a r.1)

/-- `TIA.Write(i, v)` (R305): catch up, then the rule of register `i`.  A WSYNC write (index 2) sets the
extra clocks of the next cycle (R76, R341); indices 0x15 to 0x1A are the audio registers (R371); a VBLANK
write (index 1) also calls the controllers (R343). -/
def Bus.tiaWrite (i : Nat) (v : Byte) (b : Bus) : Bus :=
  let t := b.tia.catchUp
  { b with
    tia := t.write i v
    audio := b.audio.write b.cfg i v
    wsyncExtra := if i = 0x02 then t.wsyncClocks else b.wsyncExtra }.call (tiaWriteCalls i v)

/-- `RIOT.Write(idx, v)` with the notification of the controllers (R274, R286). -/
def Bus.riotWrite (idx : BitVec 5) (v : Byte) (b : Bus) : Bus :=
  let r := b.riot.write idx v
  { b with riot := r }.call (r.writeCalls idx)

/-- `Poke(a, v)` (R65). -/
def Bus.poke (a : Word) (v : Byte) (b : Bus) : Bus :=
  match chipOf a with
  | .cart => b.settle a v
  | .tia => (b.tiaWrite (tiaWriteIndex a) v).settle a v
  | .ram => { b with ram := b.ram.write (ramIndex a) v }.settle a v
  | .riot => (b.riotWrite (riotIndex a) v).settle a v

/-- `Tick()` (R75): one processor cycle is 3 system clocks and the pending WSYNC stall; every chip is
forwarded the same count (R74).  `Mapper.Clock` does nothing (R392), and `clock(n)` is called on both
controllers (R286). -/
def Bus.tick (b : Bus) : Bus :=
  let n := 3 + b.wsyncExtra
  { b with
    wsyncExtra := 0
    sysclk := b.sysclk + n
    cycles := b.cycles + 1
    tia := b.tia.clock n
    audio := b.audio.clock b.cfg n
    riot := b.riot.clock n }.call (.both [.clock n])

/-- The byte stored at an address, read without time or side effect: RAM, or what the cartridge maps
there (R68, R391); none for the device chips. -/
def Bus.byteAt (a : Word) (b : Bus) : Option Byte :=
  match chipOf a with
  | .cart => b.cart.mapper.view b.cart.rom (addr13 a)
  | .ram => some (b.ram.read (ramIndex a))
  | .tia | .riot => none

end Sys2Proof.Machine
end

