-- ==== Sys2Proof/Machine/Flags.lean ====
section
/-!
DEFINITION. Flag and result computations (spec/10_state.md R24; spec/41_arithmetic.md R150 to R156, R163;
spec/42_logic_shift.md R173 to R178), as functions of bytes and bits.
-/

namespace Sys2Proof.Machine

/-- `N` of a result: bit 7 (R8). -/
def negFlag (v : Byte) : Bool := v.getLsbD 7

/-- `Z` of a result (R8). -/
def zeroFlag (v : Byte) : Bool := v == 0

/-- What an addition or subtraction writes: the accumulator and four flags. -/
structure AluResult where
  value : Byte
  n : Bool
  v : Bool
  z : Bool
  c : Bool
deriving DecidableEq, Repr

/-- Signed overflow of an addition of `x` and `y` with result `r`: `((x ^ r) & (y ^ r) & 0x80) != 0`
(R150). -/
def addOverflow (x y r : Byte) : Bool := (x ^^^ r) &&& (y ^^^ r) &&& 0x80 != 0

/-- ADC, binary mode (R150). -/
def adcBinary (a v : Byte) (c : Bool) : AluResult :=
  let s := a.toNat + v.toNat + bitNat c
  let r := BitVec.ofNat 8 s
  { value := r, n := negFlag r, v := addOverflow a v r, z := zeroFlag r, c := decide (256 ≤ s) }

/-- ADC, decimal mode (R151): `Z` from the binary sum, `N` and `V` from the intermediate `t`, `C` and the
accumulator after the high-digit correction. -/
def adcDecimal (a v : Byte) (c : Bool) : AluResult :=
  let lo := a.toNat % 16 + v.toNat % 16 + bitNat c
  let lo := if 0x0A ≤ lo then (lo + 0x06) % 16 + 0x10 else lo
  let t := a.toNat / 16 * 16 + v.toNat / 16 * 16 + lo
  let tb := BitVec.ofNat 8 t
  let t' := if 0xA0 ≤ t then t + 0x60 else t
  { value := BitVec.ofNat 8 t'
    n := negFlag tb
    v := addOverflow a v tb
    z := zeroFlag (BitVec.ofNat 8 (a.toNat + v.toNat + bitNat c))
    c := decide (0x100 ≤ t') }

/-- SBC, binary mode (R152): the addition of the complement. -/
def sbcBinary (a v : Byte) (c : Bool) : AluResult :=
  let w := v ^^^ 0xFF
  let s := a.toNat + w.toNat + bitNat c
  let r := BitVec.ofNat 8 s
  { value := r, n := negFlag r, v := addOverflow a w r, z := zeroFlag r, c := decide (256 ≤ s) }

/-- SBC, decimal mode (R153): the flags of the binary subtraction, the accumulator digit-corrected with
signed integers. -/
def sbcDecimal (a v : Byte) (c : Bool) : AluResult :=
  let lo : Int := (a.toNat % 16 : Nat) - (v.toNat % 16 : Nat) + (bitNat c : Nat) - 1
  let lo := if lo < 0 then (lo - 0x06) % 16 - 0x10 else lo
  let t : Int := (a.toNat / 16 * 16 : Nat) - (v.toNat / 16 * 16 : Nat) + lo
  let t := if t < 0 then t - 0x60 else t
  { sbcBinary a v c with value := BitVec.ofInt 8 t }

/-- ADC: `D` selects the mode (R150, R151). -/
def adcResult (d : Bool) (a v : Byte) (c : Bool) : AluResult :=
  if d then adcDecimal a v c else adcBinary a v c

/-- SBC: `D` selects the mode (R152, R153). -/
def sbcResult (d : Bool) (a v : Byte) (c : Bool) : AluResult :=
  if d then sbcDecimal a v c else sbcBinary a v c

/-- ASL (R174): result and carry. -/
def aslBits (v : Byte) (_c : Bool) : Byte × Bool := (v <<< 1, v.getLsbD 7)

/-- LSR (R175). -/
def lsrBits (v : Byte) (_c : Bool) : Byte × Bool := (v >>> 1, v.getLsbD 0)

/-- ROL (R176): old carry into bit 0, old bit 7 into carry. -/
def rolBits (v : Byte) (c : Bool) : Byte × Bool := (v <<< 1 ||| (BitVec.ofBool c).setWidth 8, v.getLsbD 7)

/-- ROR (R177): old carry into bit 7, old bit 0 into carry. -/
def rorBits (v : Byte) (c : Bool) : Byte × Bool :=
  (v >>> 1 ||| (BitVec.ofBool c).setWidth 8 <<< 7, v.getLsbD 0)

end Sys2Proof.Machine
end

