-- ==== Sys2Proof/Machine/Ops.lean ====
section
/-!
DEFINITION. The operations instructions are made of (spec/00_scope.md R8): register and flag writes, timed
bus access, instruction fetch, the stack, the status byte, and the transfer through the BRK vector with
the return from it (spec/60_exceptions.md R254, R255).
-/

namespace Sys2Proof.Machine

/-- Apply a bus operation that answers nothing. -/
def State.onBus (f : Bus → Bus) (s : State) : State := { s with bus := f s.bus }

/-- `A <- v`. -/
def State.setA (v : Byte) (s : State) : State := { s with cpu := { s.cpu with a := v } }

/-- `X <- v`. -/
def State.setX (v : Byte) (s : State) : State := { s with cpu := { s.cpu with x := v } }

/-- `Y <- v`. -/
def State.setY (v : Byte) (s : State) : State := { s with cpu := { s.cpu with y := v } }

/-- `S <- v`. -/
def State.setS (v : Byte) (s : State) : State := { s with cpu := { s.cpu with s := v } }

/-- `pc <- t`. -/
def State.setPc (t : Word) (s : State) : State := { s with cpu := { s.cpu with pc := t } }

/-- `C <- b`. -/
def State.setC (b : Bool) (s : State) : State := { s with cpu := { s.cpu with c := b } }

/-- `I <- b`. -/
def State.setI (b : Bool) (s : State) : State := { s with cpu := { s.cpu with i := b } }

/-- `D <- b`. -/
def State.setD (b : Bool) (s : State) : State := { s with cpu := { s.cpu with d := b } }

/-- `V <- b`. -/
def State.setV (b : Bool) (s : State) : State := { s with cpu := { s.cpu with v := b } }

/-- `N <- b`, `Z <- b'`. -/
def State.setNZFlags (n z : Bool) (s : State) : State := { s with cpu := { s.cpu with n := n, z := z } }

/-- `SetNZ(v)` (R8). -/
def State.setNZ (v : Byte) (s : State) : State := s.setNZFlags (negFlag v) (zeroFlag v)

/-- Write the accumulator and the four flags of an addition or subtraction (R150 to R153). -/
def State.setAlu (r : AluResult) (s : State) : State :=
  { s with cpu := { s.cpu with a := r.value, n := r.n, v := r.v, z := r.z, c := r.c } }

/-- `Idle()`: a cycle with no bus access (R8, D2). -/
def State.idle (s : State) : State := s.onBus Bus.tick

/-- `MemRead(a, 1)`: the cycle passes, then the bus is read (R72). -/
def State.memRead (a : Word) (s : State) : Byte × State :=
  let r := s.bus.tick.peek a
  (r.1, { s with bus := r.2 })

/-- `MemWrite(a, 1, v)`: the cycle passes, then the bus is written (R73). -/
def State.memWrite (a : Word) (v : Byte) (s : State) : State := s.onBus fun b => b.tick.poke a v

/-- `Fetch()` (R8, R22, R101): read the byte at `pc`, then advance `pc`. -/
def State.fetch (s : State) : Byte × State :=
  let r := s.memRead s.cpu.pc
  (r.1, r.2.setPc (r.2.cpu.pc + 1))

/-- The stack address of a stack pointer value (R21). -/
def stackAddr (sp : Byte) : Word := 0x0100 + zext16 sp

/-- `Push(v)` (R8, R21). -/
def State.push (v : Byte) (s : State) : State :=
  let s := s.memWrite (stackAddr s.cpu.s) v
  s.setS (s.cpu.s - 1)

/-- `Pull()` (R8, R21). -/
def State.pull (s : State) : Byte × State :=
  let s := s.setS (s.cpu.s + 1)
  s.memRead (stackAddr s.cpu.s)

/-- `PackP(b)`: the status byte `N V 1 b D I Z C` (R24). -/
def Cpu.packP (b : Bool) (c : Cpu) : Byte :=
  BitVec.ofBoolListLE [c.c, c.z, c.i, c.d, b, true, c.v, c.n]

/-- Unpack a pulled status byte; bits 5 and 4 are ignored (R24). -/
def State.unpackP (p : Byte) (s : State) : State :=
  { s with cpu := { s.cpu with
      n := p.getLsbD 7, v := p.getLsbD 6, d := p.getLsbD 3, i := p.getLsbD 2, z := p.getLsbD 1,
      c := p.getLsbD 0 } }

/-- Push a 16-bit value, high byte first (R192, R195). -/
def State.pushWord (w : Word) (s : State) : State := (s.push (page w)).push (lowByte w)

/-- Pull a 16-bit value, low byte first (R193, R194). -/
def State.pullWord (s : State) : Word × State :=
  let lo := s.pull
  let hi := lo.2.pull
  (wordOf hi.1 lo.1, hi.2)

/-- Read a 16-bit value at `a` and `a'`, low byte first (R69). -/
def State.readWord (a a' : Word) (s : State) : Word × State :=
  let lo := s.memRead a
  let hi := lo.2.memRead a'
  (wordOf hi.1 lo.1, hi.2)

/-- Load `pc` from a vector, low byte at the lower address (R69, R195, R450). -/
def State.jumpVector (a : Word) (s : State) : State :=
  let t := s.readWord a (a + 1)
  t.2.setPc t.1

/-- Taking the one trap-like transfer of the machine (R254): push `pc`, push the status byte with bit 4
set, set `I`, and go through the vector at `0xFFFE`.  `D` is kept; there is one mode and one stack. -/
def State.enterTrap (s : State) : State :=
  let s := s.pushWord s.cpu.pc
  let s := s.push (s.cpu.packP true)
  (s.setI true).jumpVector 0xFFFE

/-- The return from it (R255): pull the status byte, then `pc`, which is not incremented. -/
def State.returnFromTrap (s : State) : State :=
  let p := s.pull
  let t := (p.2.unpackP p.1).pullWord
  t.2.setPc t.1

end Sys2Proof.Machine
end

