-- ==== Sys2Proof/Machine/Operands.lean ====
section
/-!
DEFINITION. Operand forms (spec/30_encoding.md R103 to R111): the effective address of each addressing
mode with its fetches and idle cycles, reading a source operand, and the read-modify-write access.
-/

namespace Sys2Proof.Machine

/-- The access classes that decide the idle cycles of the indexed modes (spec/30_encoding.md section 2). -/
inductive AccessClass where
  | read
  | write
  | rmw
deriving DecidableEq, Repr

/-- Add an index to a base address: a read pays an idle cycle when the page changes, the other classes
always pay it (R108, R110). -/
def State.index (cls : AccessClass) (base : Word) (idx : Byte) (s : State) : Word × State :=
  let ea := base + zext16 idx
  (ea, if cls = .read ∧ page ea = page base then s else s.idle)

/-- Fetch a 16-bit operand, low byte first (R107). -/
def State.fetchWord (s : State) : Word × State :=
  let lo := s.fetch
  let hi := lo.2.fetch
  (wordOf hi.1 lo.1, hi.2)

/-- A zero-page pointer at `q`; its high byte wraps inside page zero (R109, R110). -/
def State.zpPointer (q : Byte) (s : State) : Word × State := s.readWord (zext16 q) (zext16 (q + 1))

/-- The effective address of an addressing mode for an access class (R105 to R110). -/
def State.effAddr (m : Mem) (cls : AccessClass) (s : State) : Word × State :=
  match m with
  | .zp =>
    let z := s.fetch
    (zext16 z.1, z.2)
  | .zpx =>
    let z := s.fetch
    (zext16 (z.1 + z.2.cpu.x), z.2.idle)
  | .zpy =>
    let z := s.fetch
    (zext16 (z.1 + z.2.cpu.y), z.2.idle)
  | .abs => s.fetchWord
  | .abx =>
    let b := s.fetchWord
    b.2.index cls b.1 b.2.cpu.x
  | .aby =>
    let b := s.fetchWord
    b.2.index cls b.1 b.2.cpu.y
  | .izx =>
    let z := s.fetch
    z.2.idle.zpPointer (z.1 + z.2.cpu.x)
  | .izy =>
    let z := s.fetch
    let b := z.2.zpPointer z.1
    b.2.index cls b.1 b.2.cpu.y

/-- Read a source operand (R104, R111). -/
def State.readSrc (o : Src) (s : State) : Byte × State :=
  match o with
  | .imm => s.fetch
  | .mem m =>
    let e := s.effAddr m .read
    e.2.memRead e.1

/-- Store a byte by an addressing mode (R111, write class). -/
def State.store (m : Mem) (v : Byte) (s : State) : State :=
  let e := s.effAddr m .write
  e.2.memWrite e.1 v

/-- What a read-modify-write reads: the address, the byte, and the state after the idle cycle (R111). -/
def State.rmwRead (m : Mem) (s : State) : Word × Byte × State :=
  let e := s.effAddr m .rmw
  let v := e.2.memRead e.1
  (e.1, v.1, v.2.idle)

/-- Relative branch (R196). -/
def State.branch (taken : Bool) (s : State) : State :=
  let off := s.fetch
  let s := off.2
  if taken then
    let s := s.idle
    let target := s.cpu.pc + sext16 off.1
    let s := if page target = page s.cpu.pc then s else s.idle
    s.setPc target
  else s

end Sys2Proof.Machine
end

