-- ==== Sys2Proof/Machine/Arithmetic.lean ====
section
/-!
DEFINITION. Arithmetic, compare, increment and decrement instructions (spec/41_arithmetic.md R150 to R162).
Each meaning is what runs after the opcode fetch of R115.
-/

namespace Sys2Proof.Machine

/-- ADC, binary (R150) or decimal (R151). -/
def execAdc (o : Src) (s : State) : Host.Outcome State Fault Refusal :=
  let r := s.readSrc o
  .next (r.2.setAlu (adcResult r.2.cpu.d r.2.cpu.a r.1 r.2.cpu.c))

/-- SBC, binary (R152) or decimal (R153). -/
def execSbc (o : Src) (s : State) : Host.Outcome State Fault Refusal :=
  let r := s.readSrc o
  .next (r.2.setAlu (sbcResult r.2.cpu.d r.2.cpu.a r.1 r.2.cpu.c))

/-- The comparison of a register with a byte: `C` when not below, `N Z` of the difference (R154). -/
def State.compare (reg v : Byte) (s : State) : State := (s.setC (decide (v.toNat ≤ reg.toNat))).setNZ (reg - v)

/-- CMP (R154). -/
def execCmp (o : Src) (s : State) : Host.Outcome State Fault Refusal :=
  let r := s.readSrc o
  .next (r.2.compare r.2.cpu.a r.1)

/-- CPX (R155). -/
def execCpx (o : Src) (s : State) : Host.Outcome State Fault Refusal :=
  let r := s.readSrc o
  .next (r.2.compare r.2.cpu.x r.1)

/-- CPY (R156). -/
def execCpy (o : Src) (s : State) : Host.Outcome State Fault Refusal :=
  let r := s.readSrc o
  .next (r.2.compare r.2.cpu.y r.1)

/-- INC (R157). -/
def execInc (m : Mem) (s : State) : Host.Outcome State Fault Refusal :=
  let r := s.rmwRead m
  let w := r.2.1 + 1
  .next ((r.2.2.memWrite r.1 w).setNZ w)

/-- DEC (R160). -/
def execDec (m : Mem) (s : State) : Host.Outcome State Fault Refusal :=
  let r := s.rmwRead m
  let w := r.2.1 - 1
  .next ((r.2.2.memWrite r.1 w).setNZ w)

/-- INX (R158). -/
def execInx (s : State) : Host.Outcome State Fault Refusal :=
  .next ((s.idle.setX (s.cpu.x + 1)).setNZ (s.cpu.x + 1))

/-- INY (R159). -/
def execIny (s : State) : Host.Outcome State Fault Refusal :=
  .next ((s.idle.setY (s.cpu.y + 1)).setNZ (s.cpu.y + 1))

/-- DEX (R161). -/
def execDex (s : State) : Host.Outcome State Fault Refusal :=
  .next ((s.idle.setX (s.cpu.x - 1)).setNZ (s.cpu.x - 1))

/-- DEY (R162). -/
def execDey (s : State) : Host.Outcome State Fault Refusal :=
  .next ((s.idle.setY (s.cpu.y - 1)).setNZ (s.cpu.y - 1))

end Sys2Proof.Machine
end

