-- ==== Sys2Proof/Machine/Control.lean ====
section
/-!
DEFINITION. Jumps, subroutine calls, returns, the software interrupt and branches
(spec/43_control_flow.md R190 to R204).  Each meaning is what runs after the opcode fetch of R115.
-/

namespace Sys2Proof.Machine

/-- JMP (R190, R191): in the indirect form the pointer's high byte comes from the same page. -/
def execJmp (t : JmpMode) (s : State) : Host.Outcome State Fault Refusal :=
  match t with
  | .abs =>
    let r := s.fetchWord
    .next (r.2.setPc r.1)
  | .ind =>
    let p := s.fetchWord
    let r := p.2.readWord p.1 (wordOf (page p.1) (lowByte p.1 + 1))
    .next (r.2.setPc r.1)

/-- JSR (R192): the target's high byte is read after the pushes. -/
def execJsr (s : State) : Host.Outcome State Fault Refusal :=
  let lo := s.fetch
  let s := lo.2.idle
  let s := s.pushWord s.cpu.pc
  let hi := s.memRead s.cpu.pc
  .next (hi.2.setPc (wordOf hi.1 lo.1))

/-- RTS (R193). -/
def execRts (s : State) : Host.Outcome State Fault Refusal :=
  let r := s.idle.idle.pullWord
  .next (r.2.idle.setPc (r.1 + 1))

/-- BRK (R195): skip the padding byte, then the trap entry of R254. -/
def execBrk (s : State) : Host.Outcome State Fault Refusal :=
  let s := s.idle
  .next (s.setPc (s.cpu.pc + 1)).enterTrap

/-- RTI (R194). -/
def execRti (s : State) : Host.Outcome State Fault Refusal := .next s.idle.idle.returnFromTrap

/-- BCC (R197). -/
def execBcc (s : State) : Host.Outcome State Fault Refusal := .next (s.branch !s.cpu.c)

/-- BCS (R198). -/
def execBcs (s : State) : Host.Outcome State Fault Refusal := .next (s.branch s.cpu.c)

/-- BEQ (R199). -/
def execBeq (s : State) : Host.Outcome State Fault Refusal := .next (s.branch s.cpu.z)

/-- BNE (R200). -/
def execBne (s : State) : Host.Outcome State Fault Refusal := .next (s.branch !s.cpu.z)

/-- BMI (R201). -/
def execBmi (s : State) : Host.Outcome State Fault Refusal := .next (s.branch s.cpu.n)

/-- BPL (R202). -/
def execBpl (s : State) : Host.Outcome State Fault Refusal := .next (s.branch !s.cpu.n)

/-- BVC (R203). -/
def execBvc (s : State) : Host.Outcome State Fault Refusal := .next (s.branch !s.cpu.v)

/-- BVS (R204). -/
def execBvs (s : State) : Host.Outcome State Fault Refusal := .next (s.branch s.cpu.v)

end Sys2Proof.Machine
end

