-- ==== Sys2Proof/Machine/LoadStore.lean ====
section
/-!
DEFINITION. Load, store and register-transfer instructions (spec/40_load_store_transfer.md R130 to R141).
Each meaning is what runs after the opcode fetch of R115.
-/

namespace Sys2Proof.Machine

/-- LDA (R130). -/
def execLda (o : Src) (s : State) : Host.Outcome State Fault Refusal :=
  let r := s.readSrc o
  .next ((r.2.setA r.1).setNZ r.1)

/-- LDX (R131). -/
def execLdx (o : Src) (s : State) : Host.Outcome State Fault Refusal :=
  let r := s.readSrc o
  .next ((r.2.setX r.1).setNZ r.1)

/-- LDY (R132). -/
def execLdy (o : Src) (s : State) : Host.Outcome State Fault Refusal :=
  let r := s.readSrc o
  .next ((r.2.setY r.1).setNZ r.1)

/-- STA (R133). -/
def execSta (m : Mem) (s : State) : Host.Outcome State Fault Refusal := .next (s.store m s.cpu.a)

/-- STX (R134). -/
def execStx (m : Mem) (s : State) : Host.Outcome State Fault Refusal := .next (s.store m s.cpu.x)

/-- STY (R135). -/
def execSty (m : Mem) (s : State) : Host.Outcome State Fault Refusal := .next (s.store m s.cpu.y)

/-- TAX (R136). -/
def execTax (s : State) : Host.Outcome State Fault Refusal := .next ((s.idle.setX s.cpu.a).setNZ s.cpu.a)

/-- TAY (R137). -/
def execTay (s : State) : Host.Outcome State Fault Refusal := .next ((s.idle.setY s.cpu.a).setNZ s.cpu.a)

/-- TXA (R138). -/
def execTxa (s : State) : Host.Outcome State Fault Refusal := .next ((s.idle.setA s.cpu.x).setNZ s.cpu.x)

/-- TYA (R139). -/
def execTya (s : State) : Host.Outcome State Fault Refusal := .next ((s.idle.setA s.cpu.y).setNZ s.cpu.y)

/-- TSX (R140). -/
def execTsx (s : State) : Host.Outcome State Fault Refusal := .next ((s.idle.setX s.cpu.s).setNZ s.cpu.s)

/-- TXS (R141): the one transfer that touches no flag. -/
def execTxs (s : State) : Host.Outcome State Fault Refusal := .next (s.idle.setS s.cpu.x)

end Sys2Proof.Machine
end

