-- ==== Sys2Proof/Machine/Logic.lean ====
section
/-!
DEFINITION. Logic, bit-test, shift and rotate instructions (spec/42_logic_shift.md R170 to R178).  Each
meaning is what runs after the opcode fetch of R115.
-/

namespace Sys2Proof.Machine

/-- AND (R170). -/
def execAnd (o : Src) (s : State) : Host.Outcome State Fault Refusal :=
  let r := s.readSrc o
  let w := r.2.cpu.a &&& r.1
  .next ((r.2.setA w).setNZ w)

/-- ORA (R171). -/
def execOra (o : Src) (s : State) : Host.Outcome State Fault Refusal :=
  let r := s.readSrc o
  let w := r.2.cpu.a ||| r.1
  .next ((r.2.setA w).setNZ w)

/-- EOR (R172). -/
def execEor (o : Src) (s : State) : Host.Outcome State Fault Refusal :=
  let r := s.readSrc o
  let w := r.2.cpu.a ^^^ r.1
  .next ((r.2.setA w).setNZ w)

/-- BIT (R173): `Z` of the conjunction, `N` and `V` from bits 7 and 6 of the memory byte. -/
def execBit (m : Mem) (s : State) : Host.Outcome State Fault Refusal :=
  let r := s.readSrc (.mem m)
  .next ((r.2.setNZFlags (r.1.getLsbD 7) (zeroFlag (r.2.cpu.a &&& r.1))).setV (r.1.getLsbD 6))

/-- The common shape of the shifts and rotates (R178), for the function `f` of the operand and `C`. -/
def State.shift (f : Byte → Bool → Byte × Bool) (l : ShiftLoc) (s : State) : State :=
  match l with
  | .acc =>
    let s := s.idle
    let w := f s.cpu.a s.cpu.c
    ((s.setA w.1).setC w.2).setNZ w.1
  | .mem m =>
    let r := s.rmwRead m
    let w := f r.2.1 r.2.2.cpu.c
    ((r.2.2.memWrite r.1 w.1).setC w.2).setNZ w.1

/-- ASL (R174). -/
def execAsl (l : ShiftLoc) (s : State) : Host.Outcome State Fault Refusal := .next (s.shift aslBits l)

/-- LSR (R175). -/
def execLsr (l : ShiftLoc) (s : State) : Host.Outcome State Fault Refusal := .next (s.shift lsrBits l)

/-- ROL (R176). -/
def execRol (l : ShiftLoc) (s : State) : Host.Outcome State Fault Refusal := .next (s.shift rolBits l)

/-- ROR (R177). -/
def execRor (l : ShiftLoc) (s : State) : Host.Outcome State Fault Refusal := .next (s.shift rorBits l)

end Sys2Proof.Machine
end

