-- ==== Sys2Proof/Machine/StackFlags.lean ====
section
/-!
DEFINITION. Stack, flag, no-operation instructions and unimplemented opcodes
(spec/44_stack_flags_misc.md R220 to R233).  Each meaning is what runs after the opcode fetch of R115.
-/

namespace Sys2Proof.Machine

/-- PHA (R220). -/
def execPha (s : State) : Host.Outcome State Fault Refusal := .next (s.idle.push s.cpu.a)

/-- PHP (R221). -/
def execPhp (s : State) : Host.Outcome State Fault Refusal := .next (s.idle.push (s.cpu.packP true))

/-- PLA (R222). -/
def execPla (s : State) : Host.Outcome State Fault Refusal :=
  let r := s.idle.idle.pull
  .next ((r.2.setA r.1).setNZ r.1)

/-- PLP (R223). -/
def execPlp (s : State) : Host.Outcome State Fault Refusal :=
  let r := s.idle.idle.pull
  .next (r.2.unpackP r.1)

/-- CLC (R224). -/
def execClc (s : State) : Host.Outcome State Fault Refusal := .next (s.idle.setC false)

/-- SEC (R225). -/
def execSec (s : State) : Host.Outcome State Fault Refusal := .next (s.idle.setC true)

/-- CLI (R226): the flag is stored; it gates nothing (R252). -/
def execCli (s : State) : Host.Outcome State Fault Refusal := .next (s.idle.setI false)

/-- SEI (R227). -/
def execSei (s : State) : Host.Outcome State Fault Refusal := .next (s.idle.setI true)

/-- CLD (R228). -/
def execCld (s : State) : Host.Outcome State Fault Refusal := .next (s.idle.setD false)

/-- SED (R229). -/
def execSed (s : State) : Host.Outcome State Fault Refusal := .next (s.idle.setD true)

/-- CLV (R230). -/
def execClv (s : State) : Host.Outcome State Fault Refusal := .next (s.idle.setV false)

/-- NOP (R231). -/
def execNop (s : State) : Host.Outcome State Fault Refusal := .next s.idle

/-- An unimplemented opcode (R233): nothing after its fetch. -/
def execUnimpl (_op : Byte) (s : State) : Host.Outcome State Fault Refusal := .next s

end Sys2Proof.Machine
end

