-- ==== Sys2Proof/WellFormed.lean ====
section
/-!
DEFINITION. Which instructions exist: the addressing modes each mnemonic has in the opcode table
(spec/30_encoding.md R113 and the Encoding line of each instruction's rule), and the 105 opcode bytes
that are unimplemented (R120).
-/

namespace Sys2Proof

/-- The eight forms of ADC AND CMP EOR LDA ORA SBC (R130, R150, R152, R154, R170 to R172). -/
def aluFormats : List Format := [.imm, .zp, .zpx, .abs, .abx, .aby, .izx, .izy]

/-- The five forms of ASL LSR ROL ROR (R174 to R177). -/
def shiftFormats : List Format := [.acc, .zp, .zpx, .abs, .abx]

/-- The four forms of INC and DEC (R157, R160). -/
def incFormats : List Format := [.zp, .zpx, .abs, .abx]

/-- The 105 opcode bytes outside the OpcodeTable, in the order R120 lists them. -/
def unimplementedOpcodes : List Nat :=
  [0x02, 0x03, 0x04, 0x07, 0x0B, 0x0C, 0x0F, 0x12, 0x13, 0x14, 0x17, 0x1A, 0x1B, 0x1C, 0x1F] ++
  [0x22, 0x23, 0x27, 0x2B, 0x2F, 0x32, 0x33, 0x34, 0x37, 0x3A, 0x3B, 0x3C, 0x3F] ++
  [0x42, 0x43, 0x44, 0x47, 0x4B, 0x4F, 0x52, 0x53, 0x54, 0x57, 0x5A, 0x5B, 0x5C, 0x5F] ++
  [0x62, 0x63, 0x64, 0x67, 0x6B, 0x6F, 0x72, 0x73, 0x74, 0x77, 0x7A, 0x7B, 0x7C, 0x7F] ++
  [0x80, 0x82, 0x83, 0x87, 0x89, 0x8B, 0x8F, 0x92, 0x93, 0x97, 0x9B, 0x9C, 0x9E, 0x9F] ++
  [0xA3, 0xA7, 0xAB, 0xAF, 0xB2, 0xB3, 0xB7, 0xBB, 0xBF] ++
  [0xC2, 0xC3, 0xC7, 0xCB, 0xCF, 0xD2, 0xD3, 0xD4, 0xD7, 0xDA, 0xDB, 0xDC, 0xDF] ++
  [0xE2, 0xE3, 0xE7, 0xEB, 0xEF, 0xF2, 0xF3, 0xF4, 0xF7, 0xFA, 0xFB, 0xFC, 0xFF]

/-- The instruction is a row of spec/opcode_table.json: its mnemonic has that addressing mode
(R113), or it is an unimplemented opcode byte (R120). -/
def Instr.wellFormed : Instr → Bool
  | .adc o | .and o | .cmp o | .eor o | .lda o | .ora o | .sbc o => aluFormats.contains o.format
  | .asl l | .lsr l | .rol l | .ror l => shiftFormats.contains l.format
  | .bit m => [Format.zp, .abs].contains m.format
  | .cpx o | .cpy o => [Format.imm, .zp, .abs].contains o.format
  | .dec m | .inc m => incFormats.contains m.format
  | .ldx o => [Format.imm, .zp, .zpy, .abs, .aby].contains o.format
  | .ldy o => [Format.imm, .zp, .zpx, .abs, .abx].contains o.format
  | .sta m => [Format.zp, .zpx, .abs, .abx, .aby, .izx, .izy].contains m.format
  | .stx m => [Format.zp, .zpy, .abs].contains m.format
  | .sty m => [Format.zp, .zpx, .abs].contains m.format
  | .bcc | .bcs | .beq | .bmi | .bne | .bpl | .bvc | .bvs => true
  | .jmp _ | .jsr => true
  | .brk | .clc | .cld | .cli | .clv | .dex | .dey | .inx | .iny | .nop | .pha | .php | .pla
  | .plp | .rti | .rts | .sec | .sed | .sei | .tax | .tay | .tsx | .txa | .txs | .tya => true
  | .unimpl op => unimplementedOpcodes.contains op.toNat

end Sys2Proof
end

