-- ==== Sys2Proof/Decode.lean ====
section
/-!
DEFINITION. Decoding and encoding.  The decoder is the opcode matrix of spec/30_encoding.md R112, row by
row; decoding an instruction is a pure function of its opcode byte (R100, R115), and every byte decodes.
The encoder is written apart from it, from the by-mnemonic list of R113, so that the round trip compares
two transcriptions.  The byte image of a whole instruction is the opcode byte and then its operand bytes
(R100, R101).
-/

namespace Sys2Proof

/-- Row 0x of the opcode map R112; `none` is a cell that is not in the table. -/
def opcodeRow0 : List (Option Instr) :=
  [some (.brk), some (.ora (.mem .izx)), none, none,
   none, some (.ora (.mem .zp)), some (.asl (.mem .zp)), none,
   some (.php), some (.ora .imm), some (.asl .acc), none,
   none, some (.ora (.mem .abs)), some (.asl (.mem .abs)), none]

/-- Row 1x of the opcode map R112; `none` is a cell that is not in the table. -/
def opcodeRow1 : List (Option Instr) :=
  [some (.bpl), some (.ora (.mem .izy)), none, none,
   none, some (.ora (.mem .zpx)), some (.asl (.mem .zpx)), none,
   some (.clc), some (.ora (.mem .aby)), none, none,
   none, some (.ora (.mem .abx)), some (.asl (.mem .abx)), none]

/-- Row 2x of the opcode map R112; `none` is a cell that is not in the table. -/
def opcodeRow2 : List (Option Instr) :=
  [some (.jsr), some (.and (.mem .izx)), none, none,
   some (.bit .zp), some (.and (.mem .zp)), some (.rol (.mem .zp)), none,
   some (.plp), some (.and .imm), some (.rol .acc), none,
   some (.bit .abs), some (.and (.mem .abs)), some (.rol (.mem .abs)), none]

/-- Row 3x of the opcode map R112; `none` is a cell that is not in the table. -/
def opcodeRow3 : List (Option Instr) :=
  [some (.bmi), some (.and (.mem .izy)), none, none,
   none, some (.and (.mem .zpx)), some (.rol (.mem .zpx)), none,
   some (.sec), some (.and (.mem .aby)), none, none,
   none, some (.and (.mem .abx)), some (.rol (.mem .abx)), none]

/-- Row 4x of the opcode map R112; `none` is a cell that is not in the table. -/
def opcodeRow4 : List (Option Instr) :=
  [some (.rti), some (.eor (.mem .izx)), none, none,
   none, some (.eor (.mem .zp)), some (.lsr (.mem .zp)), none,
   some (.pha), some (.eor .imm), some (.lsr .acc), none,
   some (.jmp .abs), some (.eor (.mem .abs)), some (.lsr (.mem .abs)), none]

/-- Row 5x of the opcode map R112; `none` is a cell that is not in the table. -/
def opcodeRow5 : List (Option Instr) :=
  [some (.bvc), some (.eor (.mem .izy)), none, none,
   none, some (.eor (.mem .zpx)), some (.lsr (.mem .zpx)), none,
   some (.cli), some (.eor (.mem .aby)), none, none,
   none, some (.eor (.mem .abx)), some (.lsr (.mem .abx)), none]

/-- Row 6x of the opcode map R112; `none` is a cell that is not in the table. -/
def opcodeRow6 : List (Option Instr) :=
  [some (.rts), some (.adc (.mem .izx)), none, none,
   none, some (.adc (.mem .zp)), some (.ror (.mem .zp)), none,
   some (.pla), some (.adc .imm), some (.ror .acc), none,
   some (.jmp .ind), some (.adc (.mem .abs)), some (.ror (.mem .abs)), none]

/-- Row 7x of the opcode map R112; `none` is a cell that is not in the table. -/
def opcodeRow7 : List (Option Instr) :=
  [some (.bvs), some (.adc (.mem .izy)), none, none,
   none, some (.adc (.mem .zpx)), some (.ror (.mem .zpx)), none,
   some (.sei), some (.adc (.mem .aby)), none, none,
   none, some (.adc (.mem .abx)), some (.ror (.mem .abx)), none]

/-- Row 8x of the opcode map R112; `none` is a cell that is not in the table. -/
def opcodeRow8 : List (Option Instr) :=
  [none, some (.sta .izx), none, none,
   some (.sty .zp), some (.sta .zp), some (.stx .zp), none,
   some (.dey), none, some (.txa), none,
   some (.sty .abs), some (.sta .abs), some (.stx .abs), none]

/-- Row 9x of the opcode map R112; `none` is a cell that is not in the table. -/
def opcodeRow9 : List (Option Instr) :=
  [some (.bcc), some (.sta .izy), none, none,
   some (.sty .zpx), some (.sta .zpx), some (.stx .zpy), none,
   some (.tya), some (.sta .aby), some (.txs), none,
   none, some (.sta .abx), none, none]

/-- Row Ax of the opcode map R112; `none` is a cell that is not in the table. -/
def opcodeRowA : List (Option Instr) :=
  [some (.ldy .imm), some (.lda (.mem .izx)), some (.ldx .imm), none,
   some (.ldy (.mem .zp)), some (.lda (.mem .zp)), some (.ldx (.mem .zp)), none,
   some (.tay), some (.lda .imm), some (.tax), none,
   some (.ldy (.mem .abs)), some (.lda (.mem .abs)), some (.ldx (.mem .abs)), none]

/-- Row Bx of the opcode map R112; `none` is a cell that is not in the table. -/
def opcodeRowB : List (Option Instr) :=
  [some (.bcs), some (.lda (.mem .izy)), none, none,
   some (.ldy (.mem .zpx)), some (.lda (.mem .zpx)), some (.ldx (.mem .zpy)), none,
   some (.clv), some (.lda (.mem .aby)), some (.tsx), none,
   some (.ldy (.mem .abx)), some (.lda (.mem .abx)), some (.ldx (.mem .aby)), none]

/-- Row Cx of the opcode map R112; `none` is a cell that is not in the table. -/
def opcodeRowC : List (Option Instr) :=
  [some (.cpy .imm), some (.cmp (.mem .izx)), none, none,
   some (.cpy (.mem .zp)), some (.cmp (.mem .zp)), some (.dec .zp), none,
   some (.iny), some (.cmp .imm), some (.dex), none,
   some (.cpy (.mem .abs)), some (.cmp (.mem .abs)), some (.dec .abs), none]

/-- Row Dx of the opcode map R112; `none` is a cell that is not in the table. -/
def opcodeRowD : List (Option Instr) :=
  [some (.bne), some (.cmp (.mem .izy)), none, none,
   none, some (.cmp (.mem .zpx)), some (.dec .zpx), none,
   some (.cld), some (.cmp (.mem .aby)), none, none,
   none, some (.cmp (.mem .abx)), some (.dec .abx), none]

/-- Row Ex of the opcode map R112; `none` is a cell that is not in the table. -/
def opcodeRowE : List (Option Instr) :=
  [some (.cpx .imm), some (.sbc (.mem .izx)), none, none,
   some (.cpx (.mem .zp)), some (.sbc (.mem .zp)), some (.inc .zp), none,
   some (.inx), some (.sbc .imm), some (.nop), none,
   some (.cpx (.mem .abs)), some (.sbc (.mem .abs)), some (.inc .abs), none]

/-- Row Fx of the opcode map R112; `none` is a cell that is not in the table. -/
def opcodeRowF : List (Option Instr) :=
  [some (.beq), some (.sbc (.mem .izy)), none, none,
   none, some (.sbc (.mem .zpx)), some (.inc .zpx), none,
   some (.sed), some (.sbc (.mem .aby)), none, none,
   none, some (.sbc (.mem .abx)), some (.inc .abx), none]

/-- The OpcodeTable as the 16 by 16 matrix of R112: the row is the opcode's high nibble, the column
its low nibble. -/
def opcodeMap : List (List (Option Instr)) :=
  [opcodeRow0, opcodeRow1, opcodeRow2, opcodeRow3, opcodeRow4, opcodeRow5, opcodeRow6, opcodeRow7] ++
  [opcodeRow8, opcodeRow9, opcodeRowA, opcodeRowB, opcodeRowC, opcodeRowD, opcodeRowE, opcodeRowF]

/-- Decode an opcode byte (R115): the table's instruction, or the unimplemented opcode of R120. -/
def decodeOpcode (op : Byte) : Instr :=
  (((opcodeMap.getD (op.toNat / 16) []).getD (op.toNat % 16) none)).getD (.unimpl op)

/-- Why a byte list is not the image of an instruction.  The machine itself never meets these: it
fetches the bytes it needs (R101). -/
inductive DecodeError where
  /-- the list is empty: there is no opcode byte -/
  | noBytes
  /-- the list ends before the operand bytes of this instruction -/
  | operandsMissing (i : Instr)
deriving DecidableEq, Repr

/-- Decode the byte image of an instruction: the instruction, its operand bytes, and the bytes that
follow it (R100, R101). -/
def decode : List Byte → Except DecodeError (Instr × List Byte × List Byte)
  | [] => .error .noBytes
  | op :: rest =>
    let i := decodeOpcode op
    let n := i.format.operandBytes
    if rest.length < n then .error (.operandsMissing i)
    else .ok (i, rest.take n, rest.drop n)

/-- The opcode of a form of ADC AND CMP EOR LDA ORA SBC, given the opcodes of its eight forms in the
order R113 lists them: IMM ZP ZPX ABS ABX ABY IZX IZY. -/
def aluOpcode (imm zp zpx abs abx aby izx izy : Byte) : Src → Option Byte
  | .imm => some imm
  | .mem .zp => some zp
  | .mem .zpx => some zpx
  | .mem .abs => some abs
  | .mem .abx => some abx
  | .mem .aby => some aby
  | .mem .izx => some izx
  | .mem .izy => some izy
  | .mem .zpy => none

/-- The opcode of a form of ASL LSR ROL ROR: ACC ZP ZPX ABS ABX (R113). -/
def shiftOpcode (acc zp zpx abs abx : Byte) : ShiftLoc → Option Byte
  | .acc => some acc
  | .mem .zp => some zp
  | .mem .zpx => some zpx
  | .mem .abs => some abs
  | .mem .abx => some abx
  | .mem _ => none

/-- The opcode of a form of INC and DEC: ZP ZPX ABS ABX (R113). -/
def incOpcode (zp zpx abs abx : Byte) : Mem → Option Byte
  | .zp => some zp
  | .zpx => some zpx
  | .abs => some abs
  | .abx => some abx
  | _ => none

/-- The opcode of a form of CPX and CPY: IMM ZP ABS (R113). -/
def cpxOpcode (imm zp abs : Byte) : Src → Option Byte
  | .imm => some imm
  | .mem .zp => some zp
  | .mem .abs => some abs
  | .mem _ => none

/-- The opcode byte of an instruction, from the list of R113; none where the table has no such row. -/
def opcodeOf : Instr → Option Byte
  | .adc o => aluOpcode 0x69 0x65 0x75 0x6D 0x7D 0x79 0x61 0x71 o
  | .and o => aluOpcode 0x29 0x25 0x35 0x2D 0x3D 0x39 0x21 0x31 o
  | .asl l => shiftOpcode 0x0A 0x06 0x16 0x0E 0x1E l
  | .bcc => some 0x90
  | .bcs => some 0xB0
  | .beq => some 0xF0
  | .bit .zp => some 0x24
  | .bit .abs => some 0x2C
  | .bit _ => none
  | .bmi => some 0x30
  | .bne => some 0xD0
  | .bpl => some 0x10
  | .brk => some 0x00
  | .bvc => some 0x50
  | .bvs => some 0x70
  | .clc => some 0x18
  | .cld => some 0xD8
  | .cli => some 0x58
  | .clv => some 0xB8
  | .cmp o => aluOpcode 0xC9 0xC5 0xD5 0xCD 0xDD 0xD9 0xC1 0xD1 o
  | .cpx o => cpxOpcode 0xE0 0xE4 0xEC o
  | .cpy o => cpxOpcode 0xC0 0xC4 0xCC o
  | .dec m => incOpcode 0xC6 0xD6 0xCE 0xDE m
  | .dex => some 0xCA
  | .dey => some 0x88
  | .eor o => aluOpcode 0x49 0x45 0x55 0x4D 0x5D 0x59 0x41 0x51 o
  | .inc m => incOpcode 0xE6 0xF6 0xEE 0xFE m
  | .inx => some 0xE8
  | .iny => some 0xC8
  | .jmp .abs => some 0x4C
  | .jmp .ind => some 0x6C
  | .jsr => some 0x20
  | .lda o => aluOpcode 0xA9 0xA5 0xB5 0xAD 0xBD 0xB9 0xA1 0xB1 o
  | .ldx .imm => some 0xA2
  | .ldx (.mem .zp) => some 0xA6
  | .ldx (.mem .abs) => some 0xAE
  | .ldx (.mem .zpy) => some 0xB6
  | .ldx (.mem .aby) => some 0xBE
  | .ldx (.mem _) => none
  | .ldy .imm => some 0xA0
  | .ldy (.mem .zp) => some 0xA4
  | .ldy (.mem .abs) => some 0xAC
  | .ldy (.mem .zpx) => some 0xB4
  | .ldy (.mem .abx) => some 0xBC
  | .ldy (.mem _) => none
  | .lsr l => shiftOpcode 0x4A 0x46 0x56 0x4E 0x5E l
  | .nop => some 0xEA
  | .ora o => aluOpcode 0x09 0x05 0x15 0x0D 0x1D 0x19 0x01 0x11 o
  | .pha => some 0x48
  | .php => some 0x08
  | .pla => some 0x68
  | .plp => some 0x28
  | .rol l => shiftOpcode 0x2A 0x26 0x36 0x2E 0x3E l
  | .ror l => shiftOpcode 0x6A 0x66 0x76 0x6E 0x7E l
  | .rti => some 0x40
  | .rts => some 0x60
  | .sbc o => aluOpcode 0xE9 0xE5 0xF5 0xED 0xFD 0xF9 0xE1 0xF1 o
  | .sec => some 0x38
  | .sed => some 0xF8
  | .sei => some 0x78
  | .sta .izx => some 0x81
  | .sta .zp => some 0x85
  | .sta .abs => some 0x8D
  | .sta .izy => some 0x91
  | .sta .zpx => some 0x95
  | .sta .aby => some 0x99
  | .sta .abx => some 0x9D
  | .sta _ => none
  | .stx .zp => some 0x86
  | .stx .abs => some 0x8E
  | .stx .zpy => some 0x96
  | .stx _ => none
  | .sty .zp => some 0x84
  | .sty .abs => some 0x8C
  | .sty .zpx => some 0x94
  | .sty _ => none
  | .tax => some 0xAA
  | .tay => some 0xA8
  | .tsx => some 0xBA
  | .txa => some 0x8A
  | .txs => some 0x9A
  | .tya => some 0x98
  | .unimpl op => if unimplementedOpcodes.contains op.toNat then some op else none

/-- The byte image of an instruction with its operand bytes, low byte first (R69, R100); none where the
table has no such row or the number of operand bytes is not the format's. -/
def encode (i : Instr) (operands : List Byte) : Option (List Byte) :=
  if operands.length = i.format.operandBytes then (opcodeOf i).map (· :: operands) else none

/-- The first three bytes of an instruction whose bits are `w` as spec/opcode_table.json numbers them
(bit 0 is the least significant bit of the first byte), every bit from `nbits` up being 0. -/
def tableBytes (nbits w : Nat) : List Byte :=
  let v := w % 2 ^ nbits
  [BitVec.ofNat 8 v, BitVec.ofNat 8 (v / 2 ^ 8), BitVec.ofNat 8 (v / 2 ^ 16)]

/-- What the decoder reads from an instruction whose bits are `w` (opcode-table numbering). -/
def decodeTableWord (nbits w : Nat) : Option Instr :=
  match decode (tableBytes nbits w) with
  | .ok (i, _, _) => some i
  | .error _ => none

end Sys2Proof
end

