-- ==== Sys2Proof/Machine/Loader.lean ====
section
/-!
DEFINITION. Placing an instruction for the machine to run.  A program enters this machine as a cartridge
image bound at creation (spec/70_reset_and_hazards.md R470); these definitions build such an image.
-/

namespace Sys2Proof.Machine

/-- The memory that lists the given bytes from address `a` up. -/
def Memory.ofBytes : List Byte → Nat → Memory
  | [], _ => []
  | v :: rest, a => if v = Memory.unlisted then Memory.ofBytes rest (a + 1) else (a, v) :: Memory.ofBytes rest (a + 1)

/-- A `4K` cartridge with the given bytes at image offset 0 and the reset vector `0xF000`. -/
def Cart.ofCode (code : List Byte) : Cart :=
  { rom := { size := 4096, bytes := Memory.ofBytes code 0 ++ Memory.ofBytes [0x00, 0xF0] 0xFFC }, mapper := .fixed4K }

/-- The machine with the cartridge replaced by one that holds the given code, and `pc` at its entry. -/
def State.withCode (code : List Byte) (s : State) : State :=
  { cpu := { s.cpu with pc := 0xF000 }, bus := { s.bus with cart := Cart.ofCode code } }

end Sys2Proof.Machine
end

