-- ==== Sys2Proof/Machine/Step.lean ====
section
/-!
DEFINITION. The machine's step (spec/30_encoding.md R115; spec/00_scope.md R11), and the host's way to place
an instruction where the next step fetches.
-/

namespace Sys2Proof.Machine

/-- `step()` (R115): fetch the opcode byte, decode it, run the instruction's rule. -/
def step (s : State) : Host.Outcome State Fault Refusal :=
  let op := s.fetch
  exec (decodeOpcode op.1) op.2

/-- The state with the instruction whose bits are `w` (opcode-table numbering, bits from `nbits` up zero)
stored where `step` fetches next: the load of a program from outside the machine (R470), as a `4K` image
with the instruction at its entry `0xF000`.  DESIGN CHOICE, safe, notes/assumptions/6. -/
def State.withFetchWord (s : State) (nbits w : Nat) : State := s.withCode (tableBytes nbits w)

end Sys2Proof.Machine
end

