-- ==== Sys2Proof/Machine/Boundary.lean ====
section
/-!
DEFINITION. The host boundary (spec/70_reset_and_hazards.md R450 to R454, R467 to R470): power-on, `reset()`,
the change of inputs, a controller's report of a transition (spec/61_riot.md R286, R287), and the draining of
outputs.  The host does these between steps only; no instruction does any of them.
-/

namespace Sys2Proof.Machine

/-- The power-on draws of R451: the registers and flags the spec leaves unspecified (`RESET_REGS`), the
RAM (`POWERON_RAM`) and the open-bus value. -/
structure Draws where
  a : Byte
  x : Byte
  y : Byte
  s : Byte
  c : Bool
  z : Bool
  d : Bool
  v : Bool
  n : Bool
  busTrash : Byte
  ram : Memory
deriving DecidableEq, Repr

/-- The draws of the reset state: all zero.  DESIGN CHOICE, unsafe, notes/assumptions/1 and 2. -/
def Draws.zero : Draws :=
  { a := 0, x := 0, y := 0, s := 0, c := false, z := false, d := false, v := false, n := false,
    busTrash := 0, ram := [] }

/-- `reset()` (R450): set `I`, load `pc` from the vector at `0xFFFC`; two cycles pass; all else stays
(R452). -/
def State.warmReset (s : State) : State := (s.setI true).jumpVector 0xFFFC

/-- The machine as it is created, before power-on runs `reset()` (R40, R451); `transitions(riot)` is called on both
controllers (R286). -/
def State.created (cfg : Config) (cart : Cart) (inp : Inputs) (dr : Draws) : State :=
  { cpu :=
      { a := dr.a, x := dr.x, y := dr.y, s := dr.s, pc := 0, c := dr.c, z := dr.z, i := true, d := dr.d,
        v := dr.v, n := dr.n },
    bus :=
      { cfg := cfg, busTrash := dr.busTrash, ram := dr.ram, sysclk := 0, wsyncExtra := 0, cycles := 0,
        tia := .powerOn, audio := .powerOn, riot := .powerOn, cart := cart, inputs := inp,
        portCalls := .powerOn } }

/-- Power-on (R451): the machine is created, then `reset()` runs once. -/
def State.powerOn (cfg : Config) (cart : Cart) (inp : Inputs) (dr : Draws) : State :=
  (State.created cfg cart inp dr).warmReset

/-- The player moves a switch or a controller: the inputs change, and nothing else (R469).  A level change of PA7
reaches the edge flag only through `State.reportTransition` or an SWCHA read (R287). -/
def State.setInputs (inp : Inputs) (s : State) : State := s.onBus fun b => { b with inputs := inp }

/-- A controller reports a transition on its pins (R286, `transitions`): PA7 is sampled from `Left.peek()`
(R287).  That a report is a host action of its own, between steps, is DEDUCED from R469, unsafe,
notes/assumptions/8. -/
def State.reportTransition (s : State) : State :=
  s.onBus fun b =>
    { b with riot := b.riot.samplePa7 (b.lines.left.peek.getLsbD 3) }.call { left := [.peek], right := [] }

/-- The host takes the finished lines and the audio samples (R340, R380, R469).  The history of the controller
ports stays: the controllers answer by it (R286). -/
def State.drain (s : State) : State :=
  s.onBus fun b =>
    { b with
      tia := { b.tia with lines := [] }
      audio := { b.audio with samples := [] } }

/-- The host's frame budgets in system clocks: 262 and 260 scanlines (R468). -/
def ntscFrameBudget : Nat := 59736

/-- See `ntscFrameBudget`. -/
def palFrameBudget : Nat := 59280

end Sys2Proof.Machine
end

