-- ==== Sys2Proof/Machine/Invariant.lean ====
section
/-!
DEFINITION. The invariants of the machine, in the terms statements use: the ranges spec/10_state.md gives its
variables and the canonical form of every memory, and the lockstep of the chips' clocks
(spec/20_memory.md R74; spec/10_state.md R29, R30; spec/62_tia_video.md R301).
-/

namespace Sys2Proof.Machine

/-- The ranges of a player and its missile (R31). -/
structure PlayerUnit.Ok (p : PlayerUnit) : Prop where
  pos : p.pos < 160
  mpos : p.mpos < 160

/-- The ranges of the timing chip's variables (R30, R31): at a time between accesses the cursor is not right
of the beam. -/
structure Tia.Ok (t : Tia) : Prop where
  left : -68 ≤ t.rendered
  cursor : t.rendered ≤ t.h
  right : t.h < 160
  p0 : t.p0.Ok
  p1 : t.p1.Ok
  ball : t.posBL < 160

/-- The range of a channel's phase (R37). -/
abbrev Channel.Ok (cfg : Config) (c : Channel) : Prop := c.phase < (c.wave cfg).len

/-- The ranges of the audio variables (R37). -/
structure Audio.Ok (cfg : Config) (au : Audio) : Prop where
  ch0 : au.ch0.Ok cfg
  ch1 : au.ch1.Ok cfg
  residue : au.residue < cfg.audioTickPeriod

/-- The range of the timer: 18 bits, never negative between accesses (R277, R278). -/
structure Riot.Ok (r : Riot) : Prop where
  nonneg : 0 ≤ r.timer
  bound : r.timer ≤ 261120

/-- Everything on the bus is within the ranges the spec gives it. -/
structure Bus.Ok (b : Bus) : Prop where
  cfg : b.cfg.wf
  ram : Memory.wfIn 128 b.ram
  stall : b.wsyncExtra < 228
  tia : b.tia.Ok
  audio : b.audio.Ok b.cfg
  riot : b.riot.Ok
  cart : b.cart.wf

/-- The state is well formed: every variable in its range, every memory in its canonical form. -/
abbrev State.Ok (s : State) : Prop := s.bus.Ok

/-- The clocks of all chips agree with the one system clock (R29, R30, R74, R276, R373): the beam stands where
the clock says, a pending stall ends exactly at the start of a line, every count is a whole number of
processor cycles, and each controller has been told of every clock (R75, R286). -/
structure Bus.Lockstep (b : Bus) : Prop where
  beam : b.tia.h + 68 = ((b.sysclk % 228 : Nat) : Int)
  cycle : b.sysclk % 3 = 0
  stall : b.wsyncExtra = 0 ∨ (b.sysclk + b.wsyncExtra) % 228 = 0
  riot : b.riot.residue % 3 = 0
  audio : b.audio.residue = b.sysclk % b.cfg.audioTickPeriod
  elapsed : 3 * b.cycles ≤ b.sysclk
  left : callTime b.portCalls.left = b.sysclk
  right : callTime b.portCalls.right = b.sysclk

/-- The state's clocks are in lockstep. -/
abbrev State.Lockstep (s : State) : Prop := s.bus.Lockstep

/-- The timing chip's registers as programs wrote them, without the beam, the picture and the latches, which
time moves (R31). -/
def Tia.programmed (t : Tia) : Tia :=
  { t with
    h := 0
    scanline := 0
    rendered := 0
    hmoveBlank := false
    cx := Vector.replicate 15 false
    line := Vector.replicate 160 0
    colour := Vector.replicate 160 none
    lines := [] }

/-- The six audio registers as programs wrote them, without what time moves (R37, R371). -/
def Audio.programmed (au : Audio) : Audio :=
  { ch0 := { au.ch0 with divCount := 0, phase := 0 }
    ch1 := { au.ch1 with divCount := 0, phase := 0 }
    residue := 0
    samples := [] }

/-- The port registers of the I/O chip, without the timer and the flags (R34). -/
def Riot.programmed (r : Riot) : Riot :=
  { r with timer := 0, shift := .shift0, residue := 0, timerIrq := false, edgeIrq := false, pa7Prev := false }

/-- Every device register a program can write is the same in both: those of the timing chip, the audio
channels and the ports of the I/O chip. -/
def Bus.SameRegisters (b b' : Bus) : Prop :=
  b'.tia.programmed = b.tia.programmed ∧ b'.audio.programmed = b.audio.programmed ∧
    b'.riot.programmed = b.riot.programmed

/-- What no instruction ever changes: the parameters, the inputs, the cartridge image and its scheme. -/
def Bus.SameFixtures (b b' : Bus) : Prop :=
  b'.cfg = b.cfg ∧ b'.inputs = b.inputs ∧ b'.cart.rom = b.cart.rom ∧
    b'.cart.mapper.scheme = b.cart.mapper.scheme

/-- The bus with everything no program can see set to a fixed value: the audio half, the picture, the lines and
refreshes handed to the host and the two counters (R29, R339, R340, R370 and the introduction of
spec/63_tia_audio.md; for the host records and `cycles` it is the model's choice: DESIGN CHOICE,
notes/assumptions/10 and 11).  The history of a controller port stays where the controller answers by it (R286), and
is blanked where its answers are the same for every history. -/
def Bus.visible (b : Bus) : Bus :=
  { b with
    sysclk := 0
    cycles := 0
    audio := .powerOn
    tia := { b.tia with line := Vector.replicate 160 0, colour := Vector.replicate 160 none, lines := [], refreshes := 0 }
    portCalls :=
      { left := b.inputs.left.remembers b.portCalls.left
        right := b.inputs.right.remembers b.portCalls.right } }

/-- What a program can see of a state in one step, the inputs being given. -/
def State.visible (s : State) : State := { s with bus := s.bus.visible }

end Sys2Proof.Machine
end

