-- ==== Sys2Proof/Machine/Tables.lean ====
section
/-!
DEFINITION. What the spec's tables say of the instructions beside their meanings: the cycle counts of
spec/30_encoding.md R113 with the extra cycles of R108, R110 and R196, the forms of a mnemonic in the order of
R113, and which instructions store to memory.  No meaning uses these: statements compare the meanings with
them.
-/

namespace Sys2Proof.Machine

/-- The forms of ADC AND CMP EOR LDA ORA SBC in the order of their Encoding lines. -/
def aluForms : List Src :=
  [.imm, .mem .zp, .mem .zpx, .mem .abs, .mem .abx, .mem .aby, .mem .izx, .mem .izy]

/-- The forms of ASL LSR ROL ROR in the order of their Encoding lines. -/
def shiftForms : List ShiftLoc := [.acc, .mem .zp, .mem .zpx, .mem .abs, .mem .abx]

/-- The forms of INC and DEC in the order of their Encoding lines. -/
def incForms : List Mem := [.zp, .zpx, .abs, .abx]

/-- Operand bytes of an instruction, as a distance the program counter moves. -/
def operandLength (f : Format) : Word := BitVec.ofNat 16 f.operandBytes

/-- The registers and flags of the processor other than the program counter (R20, R23). -/
inductive CpuField where
  | a
  | x
  | y
  | s
  | c
  | z
  | i
  | d
  | v
  | n
deriving DecidableEq, Repr

/-- The value a processor holds in a register or flag, a flag as 0 or 1. -/
def Cpu.field (r : Cpu) (f : CpuField) : Nat :=
  match f with
  | .a => r.a.toNat
  | .x => r.x.toNat
  | .y => r.y.toNat
  | .s => r.s.toNat
  | .c => bitNat r.c
  | .z => bitNat r.z
  | .i => bitNat r.i
  | .d => bitNat r.d
  | .v => bitNat r.v
  | .n => bitNat r.n

/-- Cycles of the write class by form (R111, R113). -/
def storeCycles : Mem → Nat
  | .zp => 3
  | .zpx | .zpy | .abs => 4
  | .abx | .aby => 5
  | .izx | .izy => 6

/-- Cycles of the read-modify-write class by form (R111, R113). -/
def rmwCycles : Mem → Nat
  | .zp => 5
  | .zpx | .zpy | .abs => 6
  | .abx | .aby => 7
  | .izx | .izy => 8

/-- One more cycle when adding the index leaves the page (R108, R110). -/
def crossing (base : Word) (idx : Byte) : Nat := if page (base + zext16 idx) = page base then 0 else 1

/-- One more cycle when a branch target leaves the page of the next instruction (R196). -/
def targetCrossing (next : Word) (off : Byte) : Nat := if page (next + sext16 off) = page next then 0 else 1

/-- `+t+p` of a branch, from the state after the opcode fetch (R196). -/
def branchCycles (taken : Bool) (s : State) : Nat :=
  if taken then 1 + targetCrossing (s.cpu.pc + 1) s.fetch.1 else 0

end Sys2Proof.Machine

namespace Sys2Proof

open Machine

/-- Cycles of the read class by form, opcode fetch included, without page crossing (R111, R113). -/
def Src.baseCycles : Src → Nat
  | .imm => 2
  | .mem .zp => 3
  | .mem .zpx | .mem .zpy | .mem .abs | .mem .abx | .mem .aby => 4
  | .mem .izy => 5
  | .mem .izx => 6

/-- The number R113 gives an instruction, without `+p` and `+t`; 1 for an unimplemented opcode (R233). -/
def Instr.baseCycles : Instr → Nat
  | .adc o | .and o | .cmp o | .cpx o | .cpy o | .eor o | .lda o | .ldx o | .ldy o | .ora o | .sbc o => o.baseCycles
  | .bit m => (Src.mem m).baseCycles
  | .sta m | .stx m | .sty m => storeCycles m
  | .dec m | .inc m => rmwCycles m
  | .asl .acc | .lsr .acc | .rol .acc | .ror .acc => 2
  | .asl (.mem m) | .lsr (.mem m) | .rol (.mem m) | .ror (.mem m) => rmwCycles m
  | .bcc | .bcs | .beq | .bmi | .bne | .bpl | .bvc | .bvs => 2
  | .clc | .cld | .cli | .clv | .sec | .sed | .sei => 2
  | .dex | .dey | .inx | .iny | .tax | .tay | .tsx | .txa | .txs | .tya | .nop => 2
  | .jmp .abs | .pha | .php => 3
  | .pla | .plp => 4
  | .jmp .ind => 5
  | .jsr | .rts | .rti => 6
  | .brk => 7
  | .unimpl _ => 1

/-- `+p` of a read-class form, from the state after the opcode fetch (R108, R110). -/
def Mem.crossingCycles (m : Mem) (s : State) : Nat :=
  match m with
  | .abx => crossing s.fetchWord.1 s.cpu.x
  | .aby => crossing s.fetchWord.1 s.cpu.y
  | .izy => crossing (s.fetch.2.zpPointer s.fetch.1).1 s.cpu.y
  | .zp | .zpx | .zpy | .abs | .izx => 0

/-- `+p` of a source operand. -/
def Src.crossingCycles (o : Src) (s : State) : Nat :=
  match o with
  | .imm => 0
  | .mem m => m.crossingCycles s

/-- The condition a branch tests (R197 to R204); none for the other instructions. -/
def Instr.condition (i : Instr) (c : Cpu) : Option Bool :=
  match i with
  | .bcc => some !c.c
  | .bcs => some c.c
  | .beq => some c.z
  | .bne => some !c.z
  | .bmi => some c.n
  | .bpl => some !c.n
  | .bvc => some !c.v
  | .bvs => some c.v
  | _ => none

/-- The extra cycles R113 marks `+p` and `+t+p`, from the state after the opcode fetch. -/
def Instr.extraCycles (i : Instr) (s : State) : Nat :=
  match i with
  | .adc o | .and o | .cmp o | .cpx o | .cpy o | .eor o | .lda o | .ldx o | .ldy o | .ora o | .sbc o => o.crossingCycles s
  | .bit m => m.crossingCycles s
  | _ => match i.condition s.cpu with
    | some taken => branchCycles taken s
    | none => 0

/-- The registers and flags an instruction writes: the `Written by` column of R20 and the `Set or cleared by`
column of R23. -/
def Instr.writes : Instr → List CpuField
  | .lda _ | .and _ | .ora _ | .eor _ | .txa | .tya => [.a, .n, .z]
  | .pla => [.a, .s, .n, .z]
  | .adc _ | .sbc _ => [.a, .c, .z, .v, .n]
  | .asl .acc | .lsr .acc | .rol .acc | .ror .acc => [.a, .c, .z, .n]
  | .asl (.mem _) | .lsr (.mem _) | .rol (.mem _) | .ror (.mem _) => [.c, .z, .n]
  | .ldx _ | .tax | .tsx | .inx | .dex => [.x, .n, .z]
  | .ldy _ | .tay | .iny | .dey => [.y, .n, .z]
  | .txs => [.s]
  | .pha | .php | .jsr | .rts => [.s]
  | .brk => [.s, .i]
  | .plp | .rti => [.s, .c, .z, .i, .d, .v, .n]
  | .cmp _ | .cpx _ | .cpy _ => [.c, .z, .n]
  | .inc _ | .dec _ => [.z, .n]
  | .bit _ => [.z, .v, .n]
  | .clc | .sec => [.c]
  | .cli | .sei => [.i]
  | .cld | .sed => [.d]
  | .clv => [.v]
  | .bcc | .bcs | .beq | .bmi | .bne | .bpl | .bvc | .bvs => []
  | .sta _ | .stx _ | .sty _ | .jmp _ | .nop | .unimpl _ => []

/-- The memory operand an instruction stores to, if it stores to one (R111). -/
def Instr.destination : Instr → Option Mem
  | .sta m | .stx m | .sty m | .inc m | .dec m => some m
  | .asl (.mem m) | .lsr (.mem m) | .rol (.mem m) | .ror (.mem m) => some m
  | _ => none

/-- The access class of a memory operand an instruction stores to (R111). -/
def Instr.destinationClass : Instr → AccessClass
  | .sta _ | .stx _ | .sty _ => .write
  | _ => .rmw

/-- How many bytes an instruction pushes (R192, R195, R220, R221). -/
def Instr.pushes : Instr → Nat
  | .pha | .php => 1
  | .jsr => 2
  | .brk => 3
  | _ => 0

end Sys2Proof
end

