-- ==== Sys2Proof/Safety.lean ====
section
/-!
DEFINITION. What counts as a safe run of this machine.  Nothing here can crash (spec/60_exceptions.md R250),
so safety is about results that carry over to the hardware: no step decodes an unimplemented opcode
(spec/93_implementation_defined.md U1), and about where a run ends (spec/70_reset_and_hazards.md R467).
-/

namespace Sys2Proof.Machine

/-- The opcode byte the next step fetches. -/
def nextOpcode (s : State) : Byte := s.fetch.1

/-- The next step decodes an opcode of the OpcodeTable: the safety predicate of U1. -/
def implementedNext (s : State) : Bool := !unimplementedOpcodes.contains (nextOpcode s).toNat

/-- The state after a step, when there is one. -/
def after (s : State) : Option State :=
  match step s with
  | .next t => some t
  | .fault _ => none
  | .refused _ => none

/-- The run is over: the step leaves `pc` where it was, a jump or branch to itself (R467, D32). -/
def endOfRun (s : State) : Bool :=
  match after s with
  | some t => t.cpu.pc == s.cpu.pc
  | none => false

/-- States reached from `s` by steps alone, the host standing still. -/
inductive Reaches (s : State) : State → Prop
  | start : Reaches s s
  | next {t u : State} : Reaches s t → step t = .next u → Reaches s u

/-- A run from `s` in which every step decodes an implemented opcode (U1). -/
def SafeRun (s : State) : Prop := ∀ t, Reaches s t → implementedNext t = true

end Sys2Proof.Machine
end

