-- ==== Sys2Proof/Certificates/Slice0/Obligations.lean ====
section
/-!
DEFINITION. The statements for the provers.  An equation `exec i s = .next t` says both that the instruction
completes on every state and operand that meets the hypotheses and what it leaves: every register and flag not
named in the record update of `s.cpu` keeps its value.  `s` is the state after the opcode fetch, whose `pc` is the
address of the byte after the opcode (spec/10_state.md R22); `s.readSrc o`, `s.effAddr m cls` are the operand
reads and address calculations that O8 and O7 state.
-/

open Sys2Proof Sys2Proof.Machine

/-! ### Encoding -/

/-- Words written out from R113 decode to the instructions they stand for, with their operand bytes. -/
def Obligations.SpecWordsDecode : Prop :=
  decode [0xA9, 0x05] = .ok (.lda .imm, [0x05], []) ∧
  decode [0x4C, 0x34, 0xF2] = .ok (.jmp .abs, [0x34, 0xF2], []) ∧
  decode [0x6C, 0x80, 0x00] = .ok (.jmp .ind, [0x80, 0x00], []) ∧
  decode [0x91, 0x80, 0x60] = .ok (.sta .izy, [0x80], [0x60]) ∧
  decode [0x7D, 0xFF, 0x10] = .ok (.adc (.mem .abx), [0xFF, 0x10], []) ∧
  decode [0x66, 0x80] = .ok (.ror (.mem .zp), [0x80], []) ∧
  decode [0x2C, 0x85, 0x02] = .ok (.bit .abs, [0x85, 0x02], []) ∧
  decode [0xD0, 0xFB] = .ok (.bne, [0xFB], []) ∧
  decode [0x48] = .ok (.pha, [], []) ∧
  decode [0x02, 0xEA] = .ok (.unimpl 0x02, [], [0xEA])

/-- Every well-formed instruction with its operand bytes, encoded from R113 and followed by any bytes, is
decoded by the matrix of R112 to itself, and its image has the length of R100. -/
def Obligations.DecodeInvertsEncode : Prop :=
  ∀ (i : Instr) (operands rest : List Byte), i.wellFormed = true → operands.length = i.format.operandBytes →
    ∃ image, encode i operands = some image ∧ image.length = i.length ∧
      decode (image ++ rest) = .ok (i, operands, rest)

/-- What the decoder answers is well formed and encodes back to the bytes it was read from, and the decoder
answers on every list that holds an opcode and its operand bytes. -/
def Obligations.EncodeInvertsDecode : Prop :=
  (∀ (bytes : List Byte) (i : Instr) (operands rest : List Byte), decode bytes = .ok (i, operands, rest) →
    i.wellFormed = true ∧ ∃ image, encode i operands = some image ∧ bytes = image ++ rest) ∧
  (∀ (op : Byte) (tail : List Byte), (decodeOpcode op).format.operandBytes ≤ tail.length →
    ∃ operands rest, decode (op :: tail) = .ok (decodeOpcode op, operands, rest))

/-! ### The step -/

/-- A step fetches the byte at `pc`, moves `pc` past it, and runs exec of the instruction it decodes to, whatever
bytes follow.  The byte is the RAM byte where `pc` selects RAM, what the cartridge answers where `pc` selects the
cartridge (the open-bus value where it answers nothing), and the image byte of a `4K` cartridge. -/
def Obligations.StepRunsDecodedInstruction : Prop :=
  ∀ (s : State) (tail : List Byte) (i : Instr) (operands rest : List Byte),
    decode (s.fetch.1 :: tail) = .ok (i, operands, rest) →
    step s = exec i s.fetch.2 ∧
    s.fetch.1 = (s.bus.tick.peek s.cpu.pc).1 ∧
    s.fetch.2 = { cpu := { s.cpu with pc := s.cpu.pc + 1 }, bus := (s.bus.tick.peek s.cpu.pc).2 } ∧
    (chipOf s.cpu.pc = .ram → s.fetch.1 = s.bus.ram.read (ramIndex s.cpu.pc)) ∧
    (chipOf s.cpu.pc = .cart →
      s.fetch.1 = ((s.bus.cart.access (addr13 s.cpu.pc) s.bus.busTrash).1).getD s.bus.busTrash) ∧
    (chipOf s.cpu.pc = .cart → s.bus.cart.mapper = .fixed4K →
      s.fetch.1 = s.bus.cart.rom.read (s.cpu.pc.toNat % 4096))

/-- R250: no instruction, operand, address or device state stops the processor; a step takes 1 to 7 cycles. -/
def Obligations.EveryStepCompletes : Prop :=
  (∀ (i : Instr) (s : State), ∃ t, exec i s = .next t) ∧
  ∀ s : State, ∃ t, step s = .next t ∧ s.bus.cycles + 1 ≤ t.bus.cycles ∧ t.bus.cycles ≤ s.bus.cycles + 7

/-- The cycles a step takes are those of R113: the instruction's number, one more for an indexed read that leaves
the page (R108, R110), and one or two more for a taken branch (R196). -/
def Obligations.StepTakesTableCycles : Prop :=
  ∀ s : State, ∃ t, step s = .next t ∧
    t.bus.cycles =
      s.bus.cycles + (decodeOpcode s.fetch.1).baseCycles + (decodeOpcode s.fetch.1).extraCycles s.fetch.2

/-! ### Addressing modes -/

/-- R105 to R110: zero-page addresses and both bytes of a zero-page pointer wrap inside page zero, absolute ones are
little-endian and wrap at 65536, the indexed absolute and the indirect indexed ones pay an idle cycle on a read that
leaves the page and always on a store; no index register is changed. -/
def Obligations.EffectiveAddresses : Prop :=
  ∀ (cls : AccessClass) (s : State),
    let b1 := s.bus.tick.peek s.cpu.pc
    let b2 := b1.2.tick.peek (s.cpu.pc + 1)
    let base := wordOf b2.1 b1.1
    let c1 := { s.cpu with pc := s.cpu.pc + 1 }
    let c2 := { s.cpu with pc := s.cpu.pc + 2 }
    let q := b1.1 + s.cpu.x
    let lo := b1.2.tick.tick.peek (zext16 q)
    let hi := lo.2.tick.peek (zext16 (q + 1))
    let lo' := b1.2.tick.peek (zext16 b1.1)
    let hi' := lo'.2.tick.peek (zext16 (b1.1 + 1))
    let base' := wordOf hi'.1 lo'.1
    s.effAddr .zp cls = (zext16 b1.1, { cpu := c1, bus := b1.2 }) ∧
    s.effAddr .zpx cls = (zext16 (b1.1 + s.cpu.x), { cpu := c1, bus := b1.2.tick }) ∧
    s.effAddr .zpy cls = (zext16 (b1.1 + s.cpu.y), { cpu := c1, bus := b1.2.tick }) ∧
    s.effAddr .abs cls = (base, { cpu := c2, bus := b2.2 }) ∧
    (∀ m idx, (m = .abx ∧ idx = s.cpu.x) ∨ (m = .aby ∧ idx = s.cpu.y) →
      s.effAddr m cls =
        (base + zext16 idx,
          { cpu := c2
            bus := if cls = .read ∧ page (base + zext16 idx) = page base then b2.2 else b2.2.tick })) ∧
    s.effAddr .izx cls = (wordOf hi.1 lo.1, { cpu := c1, bus := hi.2 }) ∧
    s.effAddr .izy cls =
      (base' + zext16 s.cpu.y,
        { cpu := c1
          bus := if cls = .read ∧ page (base' + zext16 s.cpu.y) = page base' then hi'.2 else hi'.2.tick })


/-- R104, R111: a source operand is the next instruction byte or the byte at the effective address; reading it
moves `pc` past the operand bytes and changes no other register or flag, no byte of RAM, no device register and
no fixture of the machine. -/
def Obligations.OperandRead : Prop :=
  ∀ (o : Src) (s : State),
    (o = .imm → (s.readSrc o).1 = s.fetch.1) ∧
    (∀ m, o = .mem m →
      (s.readSrc o).1 = ((s.effAddr m .read).2.bus.tick.peek (s.effAddr m .read).1).1 ∧
      (chipOf (s.effAddr m .read).1 = .ram →
        (s.readSrc o).1 = s.bus.ram.read (ramIndex (s.effAddr m .read).1))) ∧
    (s.readSrc o).2.cpu = { s.cpu with pc := s.cpu.pc + operandLength o.format } ∧
    (s.readSrc o).2.bus.ram = s.bus.ram ∧
    s.bus.SameRegisters (s.readSrc o).2.bus ∧ s.bus.SameFixtures (s.readSrc o).2.bus

/-! ### Loads, stores, transfers -/

/-- R130, R131, R132: a load writes its register and `N Z` from the byte read. -/
def Obligations.Loads : Prop :=
  ([0xA9, 0xA5, 0xB5, 0xAD, 0xBD, 0xB9, 0xA1, 0xB1] : List Byte).map decodeOpcode = aluForms.map .lda ∧
  ([0xA2, 0xA6, 0xB6, 0xAE, 0xBE] : List Byte).map decodeOpcode =
    [.ldx .imm, .ldx (.mem .zp), .ldx (.mem .zpy), .ldx (.mem .abs), .ldx (.mem .aby)] ∧
  ([0xA0, 0xA4, 0xB4, 0xAC, 0xBC] : List Byte).map decodeOpcode =
    [.ldy .imm, .ldy (.mem .zp), .ldy (.mem .zpx), .ldy (.mem .abs), .ldy (.mem .abx)] ∧
  ∀ (o : Src) (s : State),
    let v := (s.readSrc o).1
    let c := { s.cpu with pc := s.cpu.pc + operandLength o.format, n := v.getLsbD 7, z := v == 0 }
    exec (.lda o) s = .next { cpu := { c with a := v }, bus := (s.readSrc o).2.bus } ∧
    exec (.ldx o) s = .next { cpu := { c with x := v }, bus := (s.readSrc o).2.bus } ∧
    exec (.ldy o) s = .next { cpu := { c with y := v }, bus := (s.readSrc o).2.bus }

/-- R133, R134, R135: a store writes its register to the effective address and changes no flag. -/
def Obligations.Stores : Prop :=
  ([0x85, 0x95, 0x8D, 0x9D, 0x99, 0x81, 0x91] : List Byte).map decodeOpcode =
    [.sta .zp, .sta .zpx, .sta .abs, .sta .abx, .sta .aby, .sta .izx, .sta .izy] ∧
  ([0x86, 0x96, 0x8E] : List Byte).map decodeOpcode = [.stx .zp, .stx .zpy, .stx .abs] ∧
  ([0x84, 0x94, 0x8C] : List Byte).map decodeOpcode = [.sty .zp, .sty .zpx, .sty .abs] ∧
  ∀ (m : Mem) (s : State),
    let ea := (s.effAddr m .write).1
    let b := (s.effAddr m .write).2.bus
    let c := { s.cpu with pc := s.cpu.pc + operandLength m.format }
    exec (.sta m) s = .next { cpu := c, bus := b.tick.poke ea s.cpu.a } ∧
    exec (.stx m) s = .next { cpu := c, bus := b.tick.poke ea s.cpu.x } ∧
    exec (.sty m) s = .next { cpu := c, bus := b.tick.poke ea s.cpu.y }

/-- R136 to R141: a transfer copies one register to another and sets `N Z` from it, except TXS, which changes no
flag. -/
def Obligations.Transfers : Prop :=
  ([0xAA, 0xA8, 0x8A, 0x98, 0xBA, 0x9A] : List Byte).map decodeOpcode = [.tax, .tay, .txa, .tya, .tsx, .txs] ∧
  ∀ s : State,
    let nz := fun v : Byte => { s.cpu with n := v.getLsbD 7, z := v == 0 }
    exec .tax s = .next { cpu := { nz s.cpu.a with x := s.cpu.a }, bus := s.bus.tick } ∧
    exec .tay s = .next { cpu := { nz s.cpu.a with y := s.cpu.a }, bus := s.bus.tick } ∧
    exec .txa s = .next { cpu := { nz s.cpu.x with a := s.cpu.x }, bus := s.bus.tick } ∧
    exec .tya s = .next { cpu := { nz s.cpu.y with a := s.cpu.y }, bus := s.bus.tick } ∧
    exec .tsx s = .next { cpu := { nz s.cpu.s with x := s.cpu.s }, bus := s.bus.tick } ∧
    exec .txs s = .next { cpu := { s.cpu with s := s.cpu.x }, bus := s.bus.tick }

/-! ### Arithmetic -/

/-- R150: with `D = 0` the accumulator and the carry are the unsigned sum of `A`, the operand and the carry, `V`
says that the signed sum is outside -128..127, and `N Z` follow the new accumulator. -/
def Obligations.AdcBinary : Prop :=
  ([0x69, 0x65, 0x75, 0x6D, 0x7D, 0x79, 0x61, 0x71] : List Byte).map decodeOpcode = aluForms.map .adc ∧
  ∀ (o : Src) (s : State), s.cpu.d = false →
    ∃ (r : Byte) (carry overflow : Bool),
      exec (.adc o) s =
        .next
          { cpu :=
              { s.cpu with
                pc := s.cpu.pc + operandLength o.format, a := r, c := carry, v := overflow, n := r.getLsbD 7,
                z := r == 0 }
            bus := (s.readSrc o).2.bus } ∧
      s.cpu.a.toNat + (s.readSrc o).1.toNat + bitNat s.cpu.c = r.toNat + 256 * bitNat carry ∧
      (overflow = true ↔
        s.cpu.a.toInt + (s.readSrc o).1.toInt + bitNat s.cpu.c < -128 ∨
          127 < s.cpu.a.toInt + (s.readSrc o).1.toInt + bitNat s.cpu.c)

/-- R152: with `D = 0` the accumulator is `A` minus the operand minus the borrow, `C` says that there was no
borrow, `V` says that the signed difference is outside -128..127, and `N Z` follow the new accumulator. -/
def Obligations.SbcBinary : Prop :=
  ([0xE9, 0xE5, 0xF5, 0xED, 0xFD, 0xF9, 0xE1, 0xF1] : List Byte).map decodeOpcode = aluForms.map .sbc ∧
  ∀ (o : Src) (s : State), s.cpu.d = false →
    ∃ (r : Byte) (carry overflow : Bool),
      exec (.sbc o) s =
        .next
          { cpu :=
              { s.cpu with
                pc := s.cpu.pc + operandLength o.format, a := r, c := carry, v := overflow, n := r.getLsbD 7,
                z := r == 0 }
            bus := (s.readSrc o).2.bus } ∧
      (s.cpu.a.toNat : Int) - (s.readSrc o).1.toNat - (1 - bitNat s.cpu.c) = r.toNat - 256 * (1 - bitNat carry) ∧
      (overflow = true ↔
        s.cpu.a.toInt - (s.readSrc o).1.toInt - (1 - bitNat s.cpu.c) < -128 ∨
          127 < s.cpu.a.toInt - (s.readSrc o).1.toInt - (1 - bitNat s.cpu.c))

/-- R151: with `D = 1` the low digit is corrected first, `N` and `V` come from that intermediate value, `Z` from
the binary sum, and `C` and the accumulator from the value after the high digit's correction. -/
def Obligations.AdcDecimal : Prop :=
  ([0x69, 0x65, 0x75, 0x6D, 0x7D, 0x79, 0x61, 0x71] : List Byte).map decodeOpcode = aluForms.map .adc ∧
  ∀ (o : Src) (s : State), s.cpu.d = true →
    let a := s.cpu.a
    let v := (s.readSrc o).1
    let sum := a.toNat + v.toNat + bitNat s.cpu.c
    let lo := a.toNat % 16 + v.toNat % 16 + bitNat s.cpu.c
    let lo := if 10 ≤ lo then (lo + 6) % 16 + 16 else lo
    let t := (a.toNat - a.toNat % 16) + (v.toNat - v.toNat % 16) + lo
    let tb := BitVec.ofNat 8 t
    let t' := if 0xA0 ≤ t then t + 0x60 else t
    exec (.adc o) s =
      .next
        { cpu :=
            { s.cpu with
              pc := s.cpu.pc + operandLength o.format
              a := BitVec.ofNat 8 t'
              c := decide (0x100 ≤ t')
              z := decide (sum % 256 = 0)
              n := t.testBit 7
              v := decide ((a ^^^ tb) &&& (v ^^^ tb) &&& 0x80 ≠ 0) }
          bus := (s.readSrc o).2.bus }

/-- R153: with `D = 1` the four flags are those of the binary subtraction and the accumulator is corrected digit
by digit. -/
def Obligations.SbcDecimal : Prop :=
  ([0xE9, 0xE5, 0xF5, 0xED, 0xFD, 0xF9, 0xE1, 0xF1] : List Byte).map decodeOpcode = aluForms.map .sbc ∧
  ∀ (o : Src) (s : State), s.cpu.d = true →
    let a := s.cpu.a
    let v := (s.readSrc o).1
    let w := v ^^^ 0xFF
    let sum := a.toNat + w.toNat + bitNat s.cpu.c
    let rb := BitVec.ofNat 8 sum
    let lo : Int := a.toNat % 16 - v.toNat % 16 + bitNat s.cpu.c - 1
    let lo : Int := if lo < 0 then (lo - 6) % 16 - 16 else lo
    let t : Int := (a.toNat - a.toNat % 16 : Nat) - (v.toNat - v.toNat % 16 : Nat) + lo
    let t : Int := if t < 0 then t - 0x60 else t
    exec (.sbc o) s =
      .next
        { cpu :=
            { s.cpu with
              pc := s.cpu.pc + operandLength o.format
              a := BitVec.ofInt 8 t
              c := decide (256 ≤ sum)
              z := decide (sum % 256 = 0)
              n := sum.testBit 7
              v := decide ((a ^^^ rb) &&& (w ^^^ rb) &&& 0x80 ≠ 0) }
          bus := (s.readSrc o).2.bus }

/-- R164, and R151, R153 (corner cases): in binary mode what subtracting the operand just added gives, and that
adding is subtracting the complement; in decimal mode, on valid BCD operands, ADC and SBC add and subtract two-digit
decimal numbers, with the decimal carry or no-borrow in `C`. -/
def Obligations.ArithmeticLaws : Prop :=
  (∀ a b : Byte,
    (sbcResult false (adcResult false a b false).value b true).value = a ∧
    (sbcResult false (adcResult false a b true).value b false).value = a ∧
    (sbcResult false (adcResult false a b true).value b true).value = a + 1 ∧
    ∀ c, adcResult false a b c = sbcResult false a (b ^^^ 0xFF) c) ∧
  ∀ (h1 l1 h2 l2 : Nat) (c : Bool), h1 < 10 → l1 < 10 → h2 < 10 → l2 < 10 →
    let a := BitVec.ofNat 8 (16 * h1 + l1)
    let v := BitVec.ofNat 8 (16 * h2 + l2)
    let sum := (10 * h1 + l1) + (10 * h2 + l2) + bitNat c
    let diff : Int := (10 * h1 + l1 : Nat) - (10 * h2 + l2 : Nat) - (1 - bitNat c)
    (adcResult true a v c).value = BitVec.ofNat 8 (16 * (sum % 100 / 10) + sum % 10) ∧
    (adcResult true a v c).c = decide (100 ≤ sum) ∧
    (sbcResult true a v c).value = BitVec.ofInt 8 (16 * (diff % 100 / 10) + diff % 10) ∧
    (sbcResult true a v c).c = decide (0 ≤ diff)


/-- R154, R155, R156: a comparison sets `C` when the register is not below the operand, and `N Z` from their
difference; the register is not written. -/
def Obligations.Compares : Prop :=
  ([0xC9, 0xC5, 0xD5, 0xCD, 0xDD, 0xD9, 0xC1, 0xD1] : List Byte).map decodeOpcode = aluForms.map .cmp ∧
  ([0xE0, 0xE4, 0xEC] : List Byte).map decodeOpcode = [.cpx .imm, .cpx (.mem .zp), .cpx (.mem .abs)] ∧
  ([0xC0, 0xC4, 0xCC] : List Byte).map decodeOpcode = [.cpy .imm, .cpy (.mem .zp), .cpy (.mem .abs)] ∧
  ∀ (o : Src) (s : State),
    let v := (s.readSrc o).1
    let result := fun r : Byte =>
      (Host.Outcome.next
        { cpu :=
            { s.cpu with
              pc := s.cpu.pc + operandLength o.format, c := decide (v.toNat ≤ r.toNat), z := decide (r = v),
              n := ((r.toNat + 256 - v.toNat) % 256).testBit 7 }
          bus := (s.readSrc o).2.bus } : Host.Outcome State Fault Refusal)
    exec (.cmp o) s = result s.cpu.a ∧ exec (.cpx o) s = result s.cpu.x ∧ exec (.cpy o) s = result s.cpu.y

/-- R157 to R162: INC and DEC read the byte at the effective address, spend an idle cycle, write it back one more or
one less, mod 256, and set `N Z` from it; INX INY DEX DEY do the same to an index register. -/
def Obligations.IncrementsAndDecrements : Prop :=
  ([0xE6, 0xF6, 0xEE, 0xFE] : List Byte).map decodeOpcode = incForms.map .inc ∧
  ([0xC6, 0xD6, 0xCE, 0xDE] : List Byte).map decodeOpcode = incForms.map .dec ∧
  ([0xE8, 0xC8, 0xCA, 0x88] : List Byte).map decodeOpcode = [.inx, .iny, .dex, .dey] ∧
  (∀ (m : Mem) (s : State),
    let ea := (s.effAddr m .rmw).1
    let r := (s.effAddr m .rmw).2.bus.tick.peek ea
    let result := fun w : Byte =>
      (Host.Outcome.next
        { cpu := { s.cpu with pc := s.cpu.pc + operandLength m.format, n := w.getLsbD 7, z := w == 0 }
          bus := r.2.tick.tick.poke ea w } : Host.Outcome State Fault Refusal)
    exec (.inc m) s = result (BitVec.ofNat 8 (r.1.toNat + 1)) ∧
    exec (.dec m) s = result (BitVec.ofNat 8 (r.1.toNat + 255))) ∧
  ∀ s : State,
    let x := fun v : Byte =>
      (Host.Outcome.next { cpu := { s.cpu with x := v, n := v.getLsbD 7, z := v == 0 }, bus := s.bus.tick } :
        Host.Outcome State Fault Refusal)
    let y := fun v : Byte =>
      (Host.Outcome.next { cpu := { s.cpu with y := v, n := v.getLsbD 7, z := v == 0 }, bus := s.bus.tick } :
        Host.Outcome State Fault Refusal)
    exec .inx s = x (BitVec.ofNat 8 (s.cpu.x.toNat + 1)) ∧
    exec .dex s = x (BitVec.ofNat 8 (s.cpu.x.toNat + 255)) ∧
    exec .iny s = y (BitVec.ofNat 8 (s.cpu.y.toNat + 1)) ∧
    exec .dey s = y (BitVec.ofNat 8 (s.cpu.y.toNat + 255))

/-! ### Logic and shifts -/

/-- R170, R171, R172, R173: the logic instructions work bit by bit on the accumulator and set `N Z`; BIT sets `Z`
from the conjunction and copies bits 7 and 6 of the memory byte to `N` and `V`. -/
def Obligations.LogicAndBit : Prop :=
  ([0x29, 0x25, 0x35, 0x2D, 0x3D, 0x39, 0x21, 0x31] : List Byte).map decodeOpcode = aluForms.map .and ∧
  ([0x09, 0x05, 0x15, 0x0D, 0x1D, 0x19, 0x01, 0x11] : List Byte).map decodeOpcode = aluForms.map .ora ∧
  ([0x49, 0x45, 0x55, 0x4D, 0x5D, 0x59, 0x41, 0x51] : List Byte).map decodeOpcode = aluForms.map .eor ∧
  ([0x24, 0x2C] : List Byte).map decodeOpcode = [.bit .zp, .bit .abs] ∧
  (∀ (o : Src) (s : State),
    let v := (s.readSrc o).1
    let result := fun r : Byte =>
      (Host.Outcome.next
        { cpu := { s.cpu with pc := s.cpu.pc + operandLength o.format, a := r, n := r.getLsbD 7, z := r == 0 }
          bus := (s.readSrc o).2.bus } : Host.Outcome State Fault Refusal)
    exec (.and o) s = result (s.cpu.a &&& v) ∧
    exec (.ora o) s = result (s.cpu.a ||| v) ∧
    exec (.eor o) s = result (s.cpu.a ^^^ v)) ∧
  ∀ (m : Mem) (s : State),
    let v := (s.readSrc (.mem m)).1
    exec (.bit m) s =
      .next
        { cpu :=
            { s.cpu with
              pc := s.cpu.pc + operandLength m.format, z := s.cpu.a &&& v == 0, n := v.getLsbD 7, v := v.getLsbD 6 }
          bus := (s.readSrc (.mem m)).2.bus }

/-- R174 to R178: the four shifts as arithmetic on the byte and the carry, in the accumulator form and in the
read-modify-write form. -/
def Obligations.ShiftsAndRotates : Prop :=
  ([0x0A, 0x06, 0x16, 0x0E, 0x1E] : List Byte).map decodeOpcode = shiftForms.map .asl ∧
  ([0x4A, 0x46, 0x56, 0x4E, 0x5E] : List Byte).map decodeOpcode = shiftForms.map .lsr ∧
  ([0x2A, 0x26, 0x36, 0x2E, 0x3E] : List Byte).map decodeOpcode = shiftForms.map .rol ∧
  ([0x6A, 0x66, 0x76, 0x6E, 0x7E] : List Byte).map decodeOpcode = shiftForms.map .ror ∧
  ∀ s : State,
    let c := bitNat s.cpu.c
    let acc := fun (w : Nat) (carry : Prop) [Decidable carry] =>
      (Host.Outcome.next
        { cpu :=
            { s.cpu with
              a := BitVec.ofNat 8 w, c := decide carry, n := w.testBit 7, z := decide (w % 256 = 0) }
          bus := s.bus.tick } : Host.Outcome State Fault Refusal)
    let a := s.cpu.a.toNat
    exec (.asl .acc) s = acc (2 * a) (128 ≤ a) ∧
    exec (.lsr .acc) s = acc (a / 2) (a % 2 = 1) ∧
    exec (.rol .acc) s = acc (2 * a + c) (128 ≤ a) ∧
    exec (.ror .acc) s = acc (a / 2 + 128 * c) (a % 2 = 1) ∧
    ∀ m : Mem,
      let ea := (s.effAddr m .rmw).1
      let r := (s.effAddr m .rmw).2.bus.tick.peek ea
      let mem := fun (w : Nat) (carry : Prop) [Decidable carry] =>
        (Host.Outcome.next
          { cpu :=
              { s.cpu with
                pc := s.cpu.pc + operandLength m.format, c := decide carry, n := w.testBit 7,
                z := decide (w % 256 = 0) }
            bus := r.2.tick.tick.poke ea (BitVec.ofNat 8 w) } : Host.Outcome State Fault Refusal)
      let v := r.1.toNat
      exec (.asl (.mem m)) s = mem (2 * v) (128 ≤ v) ∧
      exec (.lsr (.mem m)) s = mem (v / 2) (v % 2 = 1) ∧
      exec (.rol (.mem m)) s = mem (2 * v + c) (128 ≤ v) ∧
      exec (.ror (.mem m)) s = mem (v / 2 + 128 * c) (v % 2 = 1)

/-! ### Control flow -/

/-- R190, R191: JMP loads `pc` from its operand, or from a pointer whose high byte comes from the same page. -/
def Obligations.Jumps : Prop :=
  ([0x4C, 0x6C] : List Byte).map decodeOpcode = [.jmp .abs, .jmp .ind] ∧
  ∀ s : State,
    let lo := s.bus.tick.peek s.cpu.pc
    let hi := lo.2.tick.peek (s.cpu.pc + 1)
    let tl := hi.2.tick.peek (wordOf hi.1 lo.1)
    let th := tl.2.tick.peek (wordOf hi.1 (lo.1 + 1))
    exec (.jmp .abs) s = .next { cpu := { s.cpu with pc := wordOf hi.1 lo.1 }, bus := hi.2 } ∧
    exec (.jmp .ind) s = .next { cpu := { s.cpu with pc := wordOf th.1 tl.1 }, bus := th.2 }

/-- R192, R193: JSR pushes the address of its last byte, high byte first, and reads the target's high byte after
the pushes; RTS pulls an address, low byte first, and goes to the one after it. -/
def Obligations.SubroutineCallAndReturn : Prop :=
  ([0x20, 0x60] : List Byte).map decodeOpcode = [.jsr, .rts] ∧
  ∀ s : State,
    let lo := s.bus.tick.peek s.cpu.pc
    let ret := s.cpu.pc + 1
    let p1 := lo.2.tick.tick.poke (stackAddr s.cpu.s) (page ret)
    let p2 := p1.tick.poke (stackAddr (s.cpu.s - 1)) (lowByte ret)
    let hi := p2.tick.peek ret
    let l := s.bus.tick.tick.tick.peek (stackAddr (s.cpu.s + 1))
    let h := l.2.tick.peek (stackAddr (s.cpu.s + 2))
    exec .jsr s = .next { cpu := { s.cpu with pc := wordOf hi.1 lo.1, s := s.cpu.s - 2 }, bus := hi.2 } ∧
    exec .rts s = .next { cpu := { s.cpu with pc := wordOf h.1 l.1 + 1, s := s.cpu.s + 2 }, bus := h.2.tick }

/-- R195, R194, R254: BRK pushes the address of its opcode plus two and the status byte with bit 4 set, sets `I`
alone of the flags and goes through `0xFFFE`; RTI pulls the status byte and then the address. -/
def Obligations.BrkAndRti : Prop :=
  ([0x00, 0x40] : List Byte).map decodeOpcode = [.brk, .rti] ∧
  ∀ s : State,
    let ret := s.cpu.pc + 1
    let p1 := s.bus.tick.tick.poke (stackAddr s.cpu.s) (page ret)
    let p2 := p1.tick.poke (stackAddr (s.cpu.s - 1)) (lowByte ret)
    let p3 := p2.tick.poke (stackAddr (s.cpu.s - 2)) (s.cpu.packP true)
    let lo := p3.tick.peek 0xFFFE
    let hi := lo.2.tick.peek 0xFFFF
    let p := s.bus.tick.tick.tick.peek (stackAddr (s.cpu.s + 1))
    let l := p.2.tick.peek (stackAddr (s.cpu.s + 2))
    let h := l.2.tick.peek (stackAddr (s.cpu.s + 3))
    exec .brk s =
      .next { cpu := { s.cpu with pc := wordOf hi.1 lo.1, s := s.cpu.s - 3, i := true }, bus := hi.2 } ∧
    exec .rti s =
      .next
        { cpu :=
            { s.cpu with
              pc := wordOf h.1 l.1, s := s.cpu.s + 3, n := p.1.getLsbD 7, v := p.1.getLsbD 6,
              d := p.1.getLsbD 3, i := p.1.getLsbD 2, z := p.1.getLsbD 1, c := p.1.getLsbD 0 }
          bus := h.2 }

/-- R196 to R204: a branch whose condition fails goes to the next instruction; one whose condition holds goes to
the next instruction plus the signed offset, with one more cycle, and another when that leaves the page. -/
def Obligations.Branches : Prop :=
  ([0x90, 0xB0, 0xF0, 0xD0, 0x30, 0x10, 0x50, 0x70] : List Byte).map decodeOpcode =
    [.bcc, .bcs, .beq, .bne, .bmi, .bpl, .bvc, .bvs] ∧
  ∀ s : State,
    let off := s.bus.tick.peek s.cpu.pc
    let next := s.cpu.pc + 1
    let target := BitVec.ofInt 16 (next.toInt + off.1.toInt)
    let branch := fun taken : Bool =>
      (Host.Outcome.next
        (if taken then
          { cpu := { s.cpu with pc := target }
            bus := if page target = page next then off.2.tick else off.2.tick.tick }
        else { cpu := { s.cpu with pc := next }, bus := off.2 }) : Host.Outcome State Fault Refusal)
    exec .bcc s = branch !s.cpu.c ∧ exec .bcs s = branch s.cpu.c ∧
    exec .bne s = branch !s.cpu.z ∧ exec .beq s = branch s.cpu.z ∧
    exec .bpl s = branch !s.cpu.n ∧ exec .bmi s = branch s.cpu.n ∧
    exec .bvc s = branch !s.cpu.v ∧ exec .bvs s = branch s.cpu.v

/-! ### Stack, flags -/

/-- R24: the bits of the status byte, bits 5 and 4 aside, and that unpacking restores the six flags and nothing
else. -/
def Obligations.StatusByte : Prop :=
  ∀ (c : Cpu) (b : Bool) (s : State),
    (c.packP b).getLsbD 7 = c.n ∧ (c.packP b).getLsbD 6 = c.v ∧ (c.packP b).getLsbD 5 = true ∧
    (c.packP b).getLsbD 4 = b ∧ (c.packP b).getLsbD 3 = c.d ∧ (c.packP b).getLsbD 2 = c.i ∧
    (c.packP b).getLsbD 1 = c.z ∧ (c.packP b).getLsbD 0 = c.c ∧
    s.unpackP (c.packP b) =
      { s with cpu := { s.cpu with n := c.n, v := c.v, d := c.d, i := c.i, z := c.z, c := c.c } } ∧
    ∀ p q : Byte, (∀ j, j ≠ 4 → j ≠ 5 → p.getLsbD j = q.getLsbD j) → s.unpackP p = s.unpackP q

/-- R21, R220 to R223: the stack is page 1, its upper half RAM byte `S - 0x80`, its lower half the timing chip's
registers; a push stores at `0x0100 + S` before moving `S` down, and a pull moves `S` up before reading, both wrapping
within the page. -/
def Obligations.StackInstructions : Prop :=
  ([0x48, 0x08, 0x68, 0x28] : List Byte).map decodeOpcode = [.pha, .php, .pla, .plp] ∧
  (∀ sp : Byte,
    (stackAddr sp).toNat = 0x100 + sp.toNat ∧
    (0x80 ≤ sp.toNat → chipOf (stackAddr sp) = .ram ∧ ramIndex (stackAddr sp) = sp.toNat - 0x80) ∧
    (sp.toNat < 0x80 → chipOf (stackAddr sp) = .tia ∧ tiaWriteIndex (stackAddr sp) = sp.toNat % 64) ∧
    (∀ (s : State) (v : Byte), s.cpu.s = 0x00 → (s.push v).cpu.s = 0xFF) ∧
    ∀ s : State, s.cpu.s = 0xFF → s.pull.2.cpu.s = 0x00) ∧
  ∀ s : State,
    let p := s.bus.tick.tick.tick.peek (stackAddr (s.cpu.s + 1))
    let down := { s.cpu with s := s.cpu.s - 1 }
    let up := { s.cpu with s := s.cpu.s + 1 }
    exec .pha s = .next { cpu := down, bus := s.bus.tick.tick.poke (stackAddr s.cpu.s) s.cpu.a } ∧
    exec .php s = .next { cpu := down, bus := s.bus.tick.tick.poke (stackAddr s.cpu.s) (s.cpu.packP true) } ∧
    exec .pla s = .next { cpu := { up with a := p.1, n := p.1.getLsbD 7, z := p.1 == 0 }, bus := p.2 } ∧
    exec .plp s =
      .next
        { cpu :=
            { up with
              n := p.1.getLsbD 7, v := p.1.getLsbD 6, d := p.1.getLsbD 3, i := p.1.getLsbD 2,
              z := p.1.getLsbD 1, c := p.1.getLsbD 0 }
          bus := p.2 }

/-- R224 to R231: the flag instructions spend an idle cycle and write one flag; NOP spends it and does nothing. -/
def Obligations.FlagInstructionsAndNop : Prop :=
  ([0x18, 0x38, 0x58, 0x78, 0xD8, 0xF8, 0xB8, 0xEA] : List Byte).map decodeOpcode =
    [.clc, .sec, .cli, .sei, .cld, .sed, .clv, .nop] ∧
  ∀ s : State,
    exec .clc s = .next { cpu := { s.cpu with c := false }, bus := s.bus.tick } ∧
    exec .sec s = .next { cpu := { s.cpu with c := true }, bus := s.bus.tick } ∧
    exec .cli s = .next { cpu := { s.cpu with i := false }, bus := s.bus.tick } ∧
    exec .sei s = .next { cpu := { s.cpu with i := true }, bus := s.bus.tick } ∧
    exec .cld s = .next { cpu := { s.cpu with d := false }, bus := s.bus.tick } ∧
    exec .sed s = .next { cpu := { s.cpu with d := true }, bus := s.bus.tick } ∧
    exec .clv s = .next { cpu := { s.cpu with v := false }, bus := s.bus.tick } ∧
    exec .nop s = .next { cpu := s.cpu, bus := s.bus.tick }

/-- R233: an opcode outside the table is one byte and one cycle long; the step moves `pc` by one, leaves the byte
on the bus, and changes no register, flag, RAM byte, device register or fixture. -/
def Obligations.UnimplementedOpcodes : Prop :=
  (∀ (op : Byte) (s : State), exec (.unimpl op) s = .next s) ∧
  ∀ s : State, unimplementedOpcodes.contains s.fetch.1.toNat = true →
    (decodeOpcode s.fetch.1).length = 1 ∧
    ∃ t, step s = .next t ∧
      t.cpu = { s.cpu with pc := s.cpu.pc + 1 } ∧
      t.bus.cycles = s.bus.cycles + 1 ∧
      t.bus.busTrash = s.fetch.1 ∧
      t.bus.ram = s.bus.ram ∧
      s.bus.SameRegisters t.bus ∧ s.bus.SameFixtures t.bus

/-- R193, R255 (corner cases): with the stack in RAM, RTS after JSR goes to the instruction after the JSR, and RTI
after BRK goes to the BRK's address plus two with every register and flag as before the BRK. -/
def Obligations.CallsReturn : Prop :=
  ∀ s : State, Memory.wf s.bus.ram →
    (0x81 ≤ s.cpu.s.toNat → ∃ t u, exec .jsr s = .next t ∧ exec .rts t = .next u ∧
      u.cpu = { s.cpu with pc := s.cpu.pc + 2 }) ∧
    (0x82 ≤ s.cpu.s.toNat → ∃ t u, exec .brk s = .next t ∧ exec .rti t = .next u ∧
      u.cpu = { s.cpu with pc := s.cpu.pc + 1 })

/-! ### Frames -/

/-- An instruction that has no memory destination and pushes nothing leaves every byte of RAM, every device
register a program wrote and every fixture of the machine as they were. -/
def Obligations.FrameWithoutStore : Prop :=
  ∀ (i : Instr) (s t : State), i.destination = none → i.pushes = 0 → exec i s = .next t →
    (∀ a, chipOf a = .ram → t.bus.byteAt a = s.bus.byteAt a) ∧
    s.bus.SameRegisters t.bus ∧ s.bus.SameFixtures t.bus

/-- STA STX STY INC DEC and the shifts on memory: every byte of RAM other than the one at the effective address
reads as before, a device chip's registers change only if the effective address selects that chip, and no fixture
changes. -/
def Obligations.FrameOfStore : Prop :=
  ∀ (i : Instr) (m : Mem) (s t : State), Memory.wf s.bus.ram → i.destination = some m → exec i s = .next t →
    let ea := (s.effAddr m i.destinationClass).1
    (∀ a, chipOf a = .ram → ¬(chipOf ea = .ram ∧ ramIndex a = ramIndex ea) → t.bus.byteAt a = s.bus.byteAt a) ∧
    (chipOf ea ≠ .tia →
      t.bus.tia.programmed = s.bus.tia.programmed ∧ t.bus.audio.programmed = s.bus.audio.programmed) ∧
    (chipOf ea ≠ .riot → t.bus.riot.programmed = s.bus.riot.programmed) ∧
    s.bus.SameFixtures t.bus

/-- PHA PHP JSR BRK: every byte of RAM other than the bytes pushed, from `0x0100 + S` down, reads as before; with
those in RAM no device register changes; the I/O chip's registers and the fixtures never change. -/
def Obligations.FrameOfPush : Prop :=
  ∀ (i : Instr) (s t : State), Memory.wf s.bus.ram → 0 < i.pushes → exec i s = .next t →
    let slot := fun k : Nat => stackAddr (s.cpu.s - BitVec.ofNat 8 k)
    (∀ a, chipOf a = .ram →
      (∀ k, k < i.pushes → ¬(chipOf (slot k) = .ram ∧ ramIndex a = ramIndex (slot k))) →
      t.bus.byteAt a = s.bus.byteAt a) ∧
    ((∀ k, k < i.pushes → chipOf (slot k) = .ram) → s.bus.SameRegisters t.bus) ∧
    t.bus.riot.programmed = s.bus.riot.programmed ∧
    s.bus.SameFixtures t.bus

/-- R20, R23 (the tables), R26, R39, R390: no instruction writes a register or flag that the tables do not name for
it, and no step changes the parameters, the inputs, the cartridge image or its scheme. -/
def Obligations.OnlyNamedStateChanges : Prop :=
  (∀ (i : Instr) (s t : State) (f : CpuField), exec i s = .next t → f ∉ i.writes → t.cpu.field f = s.cpu.field f) ∧
  ∀ s t : State, step s = .next t → s.bus.SameFixtures t.bus

/-! ### The bus -/

/-- R60, R62: only the low 13 bits of an address matter, and they select the chip and the index handed to it.  R64,
R65, R305: the chip selected answers the read and takes the write, the timing chip after its catch-up, and no other
chip but the cartridge is touched. -/
def Obligations.AddressDecoding : Prop :=
  (∀ (a a' : Word) (v : Byte) (b : Bus), a.toNat % 8192 = a'.toNat % 8192 →
    b.peek a = b.peek a' ∧ b.poke a v = b.poke a' v) ∧
  (∀ (a : Word) (v : Byte) (b : Bus),
    let answer :=
      match chipOf a with
      | .cart => ((b.cart.access (addr13 a) b.busTrash).1).getD b.busTrash
      | .tia => b.tia.catchUp.readByte b.lines b.busTrash (tiaReadIndex a)
      | .ram => b.ram.read (ramIndex a)
      | .riot => (b.riot.read (riotIndex a) b.lines).1
    (b.peek a).1 = answer ∧
    (b.peek a).2.cart = (b.cart.access (addr13 a) (if chipOf a = .cart then b.busTrash else answer)).2 ∧
    (b.peek a).2.tia = (if chipOf a = .tia then b.tia.catchUp else b.tia) ∧
    (b.peek a).2.riot = (if chipOf a = .riot then (b.riot.read (riotIndex a) b.lines).2 else b.riot) ∧
    (b.peek a).2.ram = b.ram ∧
    (b.poke a v).cart = (b.cart.access (addr13 a) v).2 ∧
    (b.poke a v).tia = (if chipOf a = .tia then b.tia.catchUp.write (tiaWriteIndex a) v else b.tia) ∧
    (b.poke a v).riot = (if chipOf a = .riot then b.riot.write (riotIndex a) v else b.riot) ∧
    (b.poke a v).ram = (if chipOf a = .ram then b.ram.write (ramIndex a) v else b.ram)) ∧
  ∀ a : Word,
    let n := a.toNat
    (chipOf a = .cart ↔ n.testBit 12 = true) ∧
    (chipOf a = .tia ↔ n.testBit 12 = false ∧ n.testBit 7 = false) ∧
    (chipOf a = .ram ↔ n.testBit 12 = false ∧ n.testBit 7 = true ∧ n.testBit 9 = false) ∧
    (chipOf a = .riot ↔ n.testBit 12 = false ∧ n.testBit 7 = true ∧ n.testBit 9 = true) ∧
    ramIndex a = n &&& 0x7F ∧ tiaWriteIndex a = n &&& 0x3F ∧ tiaReadIndex a = n &&& 0x0F ∧
    (riotIndex a).toNat = n &&& 0x1F ∧ addr13 a = n &&& 0x1FFF

/-- R66: every read leaves the byte returned on the bus and every write the byte written; a read that nothing
drives returns the byte that was there, and the bits a timing-chip read does not drive are that byte's. -/
def Obligations.OpenBus : Prop :=
  ∀ (b : Bus) (a : Word) (v : Byte),
    (b.peek a).2.busTrash = (b.peek a).1 ∧ (b.poke a v).busTrash = v ∧ b.tick.busTrash = b.busTrash ∧
    (chipOf a = .cart → (b.cart.access (addr13 a) b.busTrash).1 = none → (b.peek a).1 = b.busTrash) ∧
    (chipOf a = .tia → 14 ≤ tiaReadIndex a → (b.peek a).1 = b.busTrash) ∧
    (chipOf a = .tia → ∀ j, j < 6 → (b.peek a).1.getLsbD j = b.busTrash.getLsbD j)

/-- R28, R68: a RAM byte reads as the last byte written to its index through any mirror, time and reads of other
chips between them change nothing, and a write leaves the other bytes alone. -/
def Obligations.RamReadsLastWrite : Prop :=
  ∀ (b : Bus) (a a' x : Word) (v : Byte), Memory.wf b.ram → chipOf a = .ram → chipOf a' = .ram →
    ((((b.poke a v).tick.peek x).2.tick).peek a').1 =
      if ramIndex a = ramIndex a' then v else (b.peek a').1

/-- R74, R75, R301, R373: one processor cycle is 3 system clocks plus the pending stall, for every chip alike: the
beam, the line count, the timer's residue and the audio's move by the same number, the controllers are told it, and
RAM, cartridge and open-bus value do not move. -/
def Obligations.TickMovesEveryClock : Prop :=
  ∀ b : Bus, -68 ≤ b.tia.h → b.tia.h < 160 →
    let n := 3 + b.wsyncExtra
    b.tick.sysclk = b.sysclk + n ∧ b.tick.wsyncExtra = 0 ∧ b.tick.cycles = b.cycles + 1 ∧
    b.tick.tia.h = (b.tia.h + 68 + n) % 228 - 68 ∧
    (b.tick.tia.scanline : Int) = b.tia.scanline + (b.tia.h + 68 + n) / 228 ∧
    b.tick.tia.programmed = b.tia.programmed ∧
    b.tick.riot = { b.riot with residue := b.riot.residue + n } ∧
    b.tick.audio.residue = (b.audio.residue + n) % b.cfg.audioTickPeriod ∧
    b.tick.audio.samples.length = b.audio.samples.length + (b.audio.residue + n) / b.cfg.audioTickPeriod ∧
    b.tick.audio.programmed = b.audio.programmed ∧
    b.tick.ram = b.ram ∧ b.tick.cart = b.cart ∧ b.tick.busTrash = b.busTrash ∧
    b.tick.portCalls = { left := .clock n :: b.portCalls.left, right := .clock n :: b.portCalls.right }

/-- R76, R341: after a WSYNC write the next cycle takes the clocks to the start of the next line and its own 3, so
it ends with the beam at -65, as one cycle of the processor, the timer, the audio and the controllers running through
it. -/
def Obligations.WsyncStall : Prop :=
  ∀ (b : Bus) (a : Word) (v : Byte), chipOf a = .tia → tiaWriteIndex a = 0x02 → -68 ≤ b.tia.h → b.tia.h < 160 →
    let w := b.poke a v
    (w.wsyncExtra : Int) = (160 - b.tia.h) % 228 ∧
    w.tick.tia.h = -65 ∧
    w.tick.wsyncExtra = 0 ∧
    w.tick.cycles = b.cycles + 1 ∧
    (w.tick.sysclk : Int) = b.sysclk + (160 - b.tia.h) % 228 + 3 ∧
    (w.tick.riot.residue : Int) = b.riot.residue + (160 - b.tia.h) % 228 + 3 ∧
    (w.tick.audio.residue : Int) = (b.audio.residue + (160 - b.tia.h) % 228 + 3) % b.cfg.audioTickPeriod ∧
    w.tick.portCalls =
      { left := .clock (3 + w.wsyncExtra) :: b.portCalls.left
        right := .clock (3 + w.wsyncExtra) :: b.portCalls.right }

/-! ### The timing chip -/

/-- R306, R336: a catch-up renders exactly the pixels from the cursor to the beam, sets the latch of each pair
that meets in one of them, clears none, moves the cursor to the beam, changes no register, and a second one does
nothing. -/
def Obligations.CatchUp : Prop :=
  ∀ t : Tia,
    (∀ x : Fin 160, t.catchUp.line[x] =
      if max t.rendered 0 ≤ (x.val : Int) ∧ (x.val : Int) < t.h then t.presence x else t.line[x]) ∧
    (∀ k : Fin 15, t.catchUp.cx[k] = true ↔
      t.cx[k] = true ∨
        ∃ x : Nat, x < 160 ∧ max t.rendered 0 ≤ (x : Int) ∧ (x : Int) < t.h ∧
          t.presence x &&& collisionPairs[k] = collisionPairs[k]) ∧
    t.catchUp.rendered = max t.rendered t.h ∧ t.catchUp.h = t.h ∧
    t.catchUp.programmed = t.programmed ∧
    t.catchUp.catchUp = t.catchUp

/-- R304, R303 (read registers), R345: bits 7 and 6 of each read register are its two latches or its input, bits
5 to 0 are the open bus, and the two indices with no register are the open bus alone. -/
def Obligations.TimingChipReads : Prop :=
  ∀ (t : Tia) (inp : Lines) (trash : Byte) (i : Nat),
    (14 ≤ i → t.readByte inp trash i = trash) ∧
    (∀ j, j < 6 → (t.readByte inp trash i).getLsbD j = trash.getLsbD j) ∧
    (∀ k : Fin 6, (t.readByte inp trash k).getLsbD 7 = t.cx[2 * k.val] ∧
      (t.readByte inp trash k).getLsbD 6 = t.cx[2 * k.val + 1]) ∧
    (t.readByte inp trash 6).getLsbD 7 = t.cx[12] ∧
    (t.readByte inp trash 7).getLsbD 7 = t.cx[13] ∧ (t.readByte inp trash 7).getLsbD 6 = t.cx[14] ∧
    (∀ k, k = 6 ∨ (8 ≤ k ∧ k < 14) → (t.readByte inp trash k).getLsbD 6 = false) ∧
    (t.readByte inp trash 0x8).getLsbD 7 = inp.left.pot1.getLsbD 7 ∧
    (t.readByte inp trash 0x9).getLsbD 7 = inp.left.pot2.getLsbD 7 ∧
    (t.readByte inp trash 0xA).getLsbD 7 = inp.right.pot1.getLsbD 7 ∧
    (t.readByte inp trash 0xB).getLsbD 7 = inp.right.pot2.getLsbD 7 ∧
    (t.readByte inp trash 0xC).getLsbD 7 = inp.left.fire.getLsbD 7 ∧
    (t.readByte inp trash 0xD).getLsbD 7 = inp.right.fire.getLsbD 7

/-- R337, R32: CXCLR clears all latches and nothing else clears one: no other register write, no time, no
catch-up, and no instruction that stores nothing. -/
def Obligations.CollisionLatchesAreSticky : Prop :=
  (∀ (t : Tia) (v : Byte) (k : Fin 15), (t.write 0x2C v).cx[k] = false) ∧
  (∀ (t : Tia) (i : Nat) (v : Byte), i ≠ 0x2C → (t.write i v).cx = t.cx) ∧
  (∀ (t : Tia) (n : Nat) (k : Fin 15), t.cx[k] = true → (t.clock n).cx[k] = true) ∧
  ∀ (i : Instr) (s t : State) (k : Fin 15), i.destination = none → i.pushes = 0 → exec i s = .next t →
    s.bus.tia.cx[k] = true → t.bus.tia.cx[k] = true

/-- R314, R328: the three playfield writes place their bits, leave the other bits of the pattern, and the right
half of the picture is the left half repeated or mirrored.  R309 to R313, R318, R319, R322, R343: the other control
registers take their fields from the written byte; the rising edge of VSYNC resets the line count, and a missile
released from its lock goes to the middle of its player's first copy. -/
def Obligations.PlayfieldAndControlRegisters : Prop :=
  ∀ (t : Tia) (v : Byte),
    (∀ j, j < 4 → (t.write 0x0D v).pf.getLsbD j = v.getLsbD (4 + j)) ∧
    (∀ j, 4 ≤ j → (t.write 0x0D v).pf.getLsbD j = t.pf.getLsbD j) ∧
    (∀ j, j < 8 → (t.write 0x0E v).pf.getLsbD (4 + j) = v.getLsbD (7 - j)) ∧
    (∀ j, j < 4 ∨ 12 ≤ j → (t.write 0x0E v).pf.getLsbD j = t.pf.getLsbD j) ∧
    (∀ j, j < 8 → (t.write 0x0F v).pf.getLsbD (12 + j) = v.getLsbD j) ∧
    (∀ j, j < 12 → (t.write 0x0F v).pf.getLsbD j = t.pf.getLsbD j) ∧
    (∀ x, x < 80 → t.playfieldOn x = t.pf.getLsbD (x / 4)) ∧
    (∀ x, x < 80 →
      t.playfieldOn (80 + x) = if t.pfReflect then t.playfieldOn (79 - x) else t.playfieldOn x) ∧
    (t.write 0x00 v).vsync = v.getLsbD 1 ∧
    (t.write 0x00 v).scanline = (if t.vsync = false ∧ v.getLsbD 1 = true then 0 else t.scanline) ∧
    (t.write 0x01 v).vblank = v.getLsbD 1 ∧ (t.write 0x01 v).inptLatch = v.getLsbD 6 ∧
    (t.write 0x01 v).inptGround = v.getLsbD 7 ∧
    (t.write 0x04 v).p0.nusiz.toNat = v.toNat % 8 ∧ (t.write 0x04 v).p0.mSize.toNat = v.toNat / 16 % 4 ∧
    (t.write 0x05 v).p1.nusiz.toNat = v.toNat % 8 ∧ (t.write 0x05 v).p1.mSize.toNat = v.toNat / 16 % 4 ∧
    (t.write 0x06 v).p0.colup.toNat = v.toNat / 2 ∧ (t.write 0x07 v).p1.colup.toNat = v.toNat / 2 ∧
    (t.write 0x08 v).colupf.toNat = v.toNat / 2 ∧ (t.write 0x09 v).colubk.toNat = v.toNat / 2 ∧
    (t.write 0x0A v).pfReflect = v.getLsbD 0 ∧ (t.write 0x0A v).pfScore = v.getLsbD 1 ∧
    (t.write 0x0A v).pfPriority = v.getLsbD 2 ∧ (t.write 0x0A v).blSize.toNat = v.toNat / 16 % 4 ∧
    (t.write 0x0B v).p0.refp = v.getLsbD 3 ∧ (t.write 0x0C v).p1.refp = v.getLsbD 3 ∧
    (t.write 0x20 v).p0.hm.toNat = v.toNat / 16 ∧ (t.write 0x21 v).p1.hm.toNat = v.toNat / 16 ∧
    (t.write 0x22 v).p0.mhm.toNat = v.toNat / 16 ∧ (t.write 0x23 v).p1.mhm.toNat = v.toNat / 16 ∧
    (t.write 0x24 v).hmBL.toNat = v.toNat / 16 ∧
    (t.write 0x25 v).p0.vdelp = v.getLsbD 0 ∧ (t.write 0x26 v).p1.vdelp = v.getLsbD 0 ∧
    (t.write 0x27 v).vdelbl = v.getLsbD 0 ∧
    (t.write 0x28 v).p0.resmp = v.getLsbD 1 ∧ (t.write 0x29 v).p1.resmp = v.getLsbD 1 ∧
    (let middle := fun p : PlayerUnit => (p.pos + 4 * (if p.nusiz = 5 then 2 else if p.nusiz = 7 then 4 else 1)) % 160
     (t.write 0x28 v).p0.mpos =
        (if t.p0.resmp = true ∧ v.getLsbD 1 = false then middle t.p0 else t.p0.mpos) ∧
      (t.write 0x29 v).p1.mpos =
        (if t.p1.resmp = true ∧ v.getLsbD 1 = false then middle t.p1 else t.p1.mpos)) ∧
    (∀ i, i = 0x03 ∨ 0x2D ≤ i → t.write i v = t)

/-- R315, R323, R318: the position strobes take the beam's position with their offsets, HMOVE moves each object
left by its signed offset in the 160-pixel line and blanks the first eight pixels, keeping the offsets, and HMCLR
clears the five offsets and moves nothing.  R316, R317: a GRP0 write latches player 1's delayed copy, a GRP1 write
latches player 0's and the ball's. -/
def Obligations.ObjectRegisters : Prop :=
  ∀ (t : Tia) (v : Byte), -68 ≤ t.h → t.h < 160 →
    let player : Int := if t.h < 0 then 3 else (t.h + 5) % 160
    let missile : Int := if t.h < 0 then 2 else (t.h + 4) % 160
    let m := t.write 0x2A v
    let c := t.write 0x2B v
    let g0 := t.write 0x1B v
    let g1 := t.write 0x1C v
    ((t.write 0x10 v).p0.pos : Int) = player ∧ ((t.write 0x11 v).p1.pos : Int) = player ∧
    ((t.write 0x12 v).p0.mpos : Int) = missile ∧ ((t.write 0x13 v).p1.mpos : Int) = missile ∧
    ((t.write 0x14 v).posBL : Int) = missile ∧
    (m.p0.pos : Int) = (t.p0.pos - t.p0.hm.toInt) % 160 ∧ (m.p1.pos : Int) = (t.p1.pos - t.p1.hm.toInt) % 160 ∧
    (m.p0.mpos : Int) = (t.p0.mpos - t.p0.mhm.toInt) % 160 ∧
    (m.p1.mpos : Int) = (t.p1.mpos - t.p1.mhm.toInt) % 160 ∧
    (m.posBL : Int) = (t.posBL - t.hmBL.toInt) % 160 ∧
    m.p0.hm = t.p0.hm ∧ m.p1.hm = t.p1.hm ∧ m.p0.mhm = t.p0.mhm ∧ m.p1.mhm = t.p1.mhm ∧ m.hmBL = t.hmBL ∧
    (∀ x, x < 8 → m.presence x = 0 ∧ ∀ k, m.colourAt x k = none) ∧
    c.p0.hm = 0 ∧ c.p1.hm = 0 ∧ c.p0.mhm = 0 ∧ c.p1.mhm = 0 ∧ c.hmBL = 0 ∧
    c.p0.pos = t.p0.pos ∧ c.p1.pos = t.p1.pos ∧ c.p0.mpos = t.p0.mpos ∧ c.p1.mpos = t.p1.mpos ∧
    c.posBL = t.posBL ∧
    g0.p0.grpNew = v ∧ g0.p0.grpOld = t.p0.grpOld ∧ g0.p1.grpNew = t.p1.grpNew ∧ g0.p1.grpOld = t.p1.grpNew ∧
    g0.enablOld = t.enablOld ∧
    g1.p1.grpNew = v ∧ g1.p1.grpOld = t.p1.grpOld ∧ g1.p0.grpNew = t.p0.grpNew ∧ g1.p0.grpOld = t.p0.grpNew ∧
    g1.enablOld = t.enablNew ∧ g1.enablNew = t.enablNew ∧
    (t.write 0x1F v).enablNew = v.getLsbD 1 ∧ (t.write 0x1F v).enablOld = t.enablOld ∧
    (t.write 0x1D v).p0.enam = v.getLsbD 1 ∧ (t.write 0x1E v).p1.enam = v.getLsbD 1

/-- R320, R321, R325 to R327: outside the HMOVE blanking, each player is present at the pixels of its copies whose
graphics bit is 1, from the delayed graphics under vertical delay, mirrored under reflection and stretched by NUSIZ;
each missile, enabled and not locked, and the ball at the pixels of their width; the playfield where its pattern is.
All wrap at the right edge.  Under the blanking the first eight pixels carry nothing.  R351: a player of one copy
with solid graphics is present at exactly the `8 * stretch` pixels from its position on. -/
def Obligations.ObjectPresence : Prop :=
  (∀ (t : Tia) (x : Nat), x < 160 → t.p0.pos < 160 → t.p0.mpos < 160 → t.p1.pos < 160 → t.p1.mpos < 160 →
    t.posBL < 160 →
    let copies := fun p : PlayerUnit =>
      [[0], [0, 16], [0, 32], [0, 16, 32], [0, 64], [0], [0, 32, 64], [0]].getD p.nusiz.toNat []
    let stretch := fun p : PlayerUnit => if p.nusiz = 5 then 2 else if p.nusiz = 7 then 4 else 1
    let offset := fun pos o : Nat => (x + 320 - pos - o) % 160
    let player := fun p : PlayerUnit => ∃ o ∈ copies p,
      offset p.pos o < 8 * stretch p ∧
        (let g := if p.vdelp then p.grpOld else p.grpNew
         let j := offset p.pos o / stretch p
         (if p.refp then g.getLsbD j else g.getLsbD (7 - j)) = true)
    let missile := fun p : PlayerUnit =>
      p.enam = true ∧ p.resmp = false ∧ ∃ o ∈ copies p, offset p.mpos o < 2 ^ p.mSize.toNat
    (t.hmoveBlank = true → x < 8 → t.presence x = 0) ∧
    (t.hmoveBlank = false ∨ 8 ≤ x →
      ((t.presence x).getLsbD 0 = true ↔ player t.p0) ∧
      ((t.presence x).getLsbD 1 = true ↔ missile t.p0) ∧
      ((t.presence x).getLsbD 2 = true ↔ player t.p1) ∧
      ((t.presence x).getLsbD 3 = true ↔ missile t.p1) ∧
      ((t.presence x).getLsbD 4 = true ↔
        (if t.vdelbl then t.enablOld else t.enablNew) = true ∧ offset t.posBL 0 < 2 ^ t.blSize.toNat) ∧
      ((t.presence x).getLsbD 5 = true ↔ t.playfieldOn x = true))) ∧
  ∀ (t : Tia) (x : Nat), x < 160 → t.p0.pos < 160 → t.hmoveBlank = false → t.p0.vdelp = false →
    t.p0.grpNew = 0xFF → t.p0.nusiz = 0 ∨ t.p0.nusiz = 5 ∨ t.p0.nusiz = 7 →
    let width := if t.p0.nusiz = 0 then 8 else if t.p0.nusiz = 5 then 16 else 32
    ((t.presence x).getLsbD 0 = true ↔ (x + 160 - t.p0.pos) % 160 < width)

/-! ### The I/O chip -/

/-- R278, R277, R281, R279: a timer load of `v` with prescale shift `k`, read `c` cycles later, shows
`((v << k) - c) >> k` with the flag clear while `c` has not passed `v << k`, and after that the low 8 bits of the
count, the flag found set and the shift 0; the read clears the flag. -/
def Obligations.TimerCountsDown : Prop :=
  ∀ (r : Riot) (idx : BitVec 5) (v : Byte) (c : Nat) (inp : Lines), idx.getLsbD 2 = true → idx.getLsbD 4 = true →
    let k := [0, 3, 6, 10].getD (idx.toNat % 4) 0
    let w := (r.write idx v).clock (3 * c)
    let count : Int := (v.toNat * 2 ^ k : Nat) - c
    (r.write idx v).timerIrq = false ∧
    (w.read 0x04 inp).2.timerIrq = false ∧
    (0 ≤ count → (w.read 0x04 inp).1 = BitVec.ofInt 8 (count / (2 ^ k : Nat)) ∧ w.catchUp.timerIrq = false) ∧
    (count < 0 →
      (w.read 0x04 inp).1 = BitVec.ofInt 8 count ∧ w.catchUp.timerIrq = true ∧ w.catchUp.shift = .shift0)

/-- R283 to R285, R288: a port bit reads its output register where the direction bit is 1 and the input where it is
0, and the bits of the switch panel; R287: reading port A samples PA7, and a fall from 1 to 0 sets the edge flag.
R281, R282, R290: reading INTIM clears the timer flag alone; reading TIMINT returns the timer flag in bit 7 and the
edge flag in bit 6 and clears the edge flag alone; the edge-control writes change nothing.  R286, R343,
R345: the ports answer what their controllers answer after the calls made so far, and the calls an SWCHA read, an
INPT read, a VBLANK write and a port-A write make are added to that history, and no other access makes one; a
controller is a table, and tables give every function of the history on any finite number of histories (the model's
DESIGN CHOICE, notes/assumptions/9).  The two host actions, that the inputs change and nothing else and that a
controller's report samples PA7 by a `peek()`, are the model's reading of R287 and R469 (DEDUCED,
notes/assumptions/8). -/
def Obligations.PortsAndFlags : Prop :=
  (∀ (r : Riot) (inp : Lines) (v : Byte) (s : State) (new : Inputs),
    (∀ j, j < 8 → (r.read 0x00 inp).1.getLsbD j =
      if r.ddra.getLsbD j then r.ora.getLsbD j
      else if j < 4 then inp.right.peek.getLsbD j else inp.left.peek.getLsbD (j - 4)) ∧
    (∀ j, j < 8 → (r.read 0x02 inp).1.getLsbD j =
      if r.ddrb.getLsbD j then r.orb.getLsbD j else inp.switches.byte.getLsbD j) ∧
    inp.switches.byte.toNat =
      bitNat (!inp.switches.resetPressed) + 2 * bitNat (!inp.switches.selectPressed) + 4 +
        8 * bitNat inp.switches.colour + 16 + 32 + 64 * bitNat inp.switches.leftExpert +
        128 * bitNat inp.switches.rightExpert ∧
    (r.read 0x01 inp).1 = r.ddra ∧ (r.read 0x03 inp).1 = r.ddrb ∧
    (r.write 0x00 v).ora = v ∧ (r.write 0x01 v).ddra = v ∧ (r.write 0x02 v).orb = v ∧ (r.write 0x03 v).ddrb = v ∧
    (r.read 0x00 inp).2.pa7Prev = inp.left.peek.getLsbD 3 ∧
    (r.read 0x00 inp).2.edgeIrq = (r.edgeIrq || (r.pa7Prev && !inp.left.peek.getLsbD 3)) ∧
    s.setInputs new = { s with bus := { s.bus with inputs := new } } ∧
    (let level := s.bus.lines.left.peek.getLsbD 3
     s.reportTransition =
      { s with
        bus :=
          { s.bus with
            riot :=
              { s.bus.riot with
                pa7Prev := level
                edgeIrq := s.bus.riot.edgeIrq || (s.bus.riot.pa7Prev && !level) }
            portCalls := { s.bus.portCalls with left := .peek :: s.bus.portCalls.left } } })) ∧
  (∀ (b : Bus) (a : Word) (v : Byte),
    let made := fun (l r : List PortCall) =>
      ({ left := l ++ b.portCalls.left, right := r ++ b.portCalls.right } : PortCalls)
    let r := (b.poke a v).riot
    let out := (r.ora &&& r.ddra) ||| ~~~r.ddra
    b.lines =
      { switches := b.inputs.switches
        left := b.inputs.left.answers b.portCalls.left
        right := b.inputs.right.answers b.portCalls.right } ∧
    (b.peek a).2.portCalls =
      (if chipOf a = .riot ∧ (riotIndex a).toNat % 8 = 0 then made [.peek] [.peek]
      else if chipOf a = .tia then
        match tiaReadIndex a with
        | 0x8 => made [.pot1] []
        | 0x9 => made [.pot2] []
        | 0xA => made [] [.pot1]
        | 0xB => made [] [.pot2]
        | 0xC => made [.fire] []
        | 0xD => made [] [.fire]
        | _ => b.portCalls
      else b.portCalls) ∧
    (b.poke a v).portCalls =
      (if chipOf a = .tia ∧ tiaWriteIndex a = 0x01 then
        let lines : List PortCall := [.ground (v.getLsbD 7), .latch (v.getLsbD 6)]
        made lines lines
      else if chipOf a = .riot ∧ (riotIndex a).toNat % 8 < 2 then
        made [.poke (out.extractLsb' 4 4)] [.poke (out.extractLsb' 0 4)]
      else b.portCalls)) ∧
  (∀ (f : List PortCall → Pins) (hs : List (List PortCall)), ∃ c : Controller, ∀ h ∈ hs, c.answers h = f h) ∧
  ∀ (r : Riot) (idx : BitVec 5) (inp : Lines), idx.getLsbD 2 = true →
    (idx.getLsbD 0 = false →
      (r.read idx inp).2 = { r.catchUp with timerIrq := false } ∧ (r.read idx inp).1 = r.catchUp.visible) ∧
    (idx.getLsbD 0 = true →
      (r.read idx inp).2 = { r.catchUp with edgeIrq := false } ∧
      (r.read idx inp).1.toNat = 128 * bitNat r.catchUp.timerIrq + 64 * bitNat r.catchUp.edgeIrq) ∧
    (idx.getLsbD 4 = false → ∀ v, r.write idx v = r.catchUp)

/-! ### Audio -/

/-- R373: the audio's clock depends only on how many clocks have passed, not on how they were handed over, and one
sample leaves for each full period.  R371: a write that selects the timing chip hands its index and byte to the
audio half, where indices 0x15 to 0x1A are AUDC0, AUDC1, AUDF0, AUDF1, AUDV0, AUDV1 and no other index writes.  R371,
R372, R374, R375: the writes store their fields, an AUDC write reduces the phase into the new table, the phase steps
once the divider has counted `(audf + 1) * EXTRA` ticks, and a level is the volume where the table has a 1, else 0. -/
def Obligations.AudioHalf : Prop :=
  (∀ (cfg : Config) (au : Audio) (m n : Nat), 0 < cfg.audioTickPeriod →
    (au.clock cfg m).clock cfg n = au.clock cfg (m + n) ∧
    (au.clock cfg n).samples.length = au.samples.length + (au.residue + n) / cfg.audioTickPeriod ∧
    (au.clock cfg n).residue = (au.residue + n) % cfg.audioTickPeriod) ∧
  (∀ (b : Bus) (a : Word) (v : Byte),
    (b.poke a v).audio = if chipOf a = .tia then b.audio.write b.cfg (tiaWriteIndex a) v else b.audio) ∧
  (∀ (cfg : Config) (au : Audio) (v : Byte),
    au.write cfg 0x15 v = { au with ch0 := au.ch0.writeAudc cfg v } ∧
    au.write cfg 0x16 v = { au with ch1 := au.ch1.writeAudc cfg v } ∧
    au.write cfg 0x17 v = { au with ch0 := au.ch0.writeAudf v } ∧
    au.write cfg 0x18 v = { au with ch1 := au.ch1.writeAudf v } ∧
    au.write cfg 0x19 v = { au with ch0 := au.ch0.writeAudv v } ∧
    au.write cfg 0x1A v = { au with ch1 := au.ch1.writeAudv v } ∧
    ∀ i, i < 0x15 ∨ 0x1A < i → au.write cfg i v = au) ∧
  ∀ (cfg : Config) (c : Channel) (v : Byte), cfg.wf →
    (c.writeAudf v).audf.toNat = v.toNat % 32 ∧ (c.writeAudv v).audv.toNat = v.toNat % 16 ∧
    (c.writeAudc cfg v).audc.toNat = v.toNat % 16 ∧
    (c.writeAudc cfg v).phase = c.phase % ((c.writeAudc cfg v).wave cfg).len ∧
    (c.writeAudc cfg v).divCount = c.divCount ∧
    (let period := (c.audf.toNat + 1) * (c.wave cfg).extra
     (c.divCount + 1 < period → c.tick cfg = { c with divCount := c.divCount + 1 }) ∧
     (period ≤ c.divCount + 1 →
       c.tick cfg = { c with divCount := 0, phase := (c.phase + 1) % (c.wave cfg).len })) ∧
    (c.level cfg = c.audv ∨ c.level cfg = 0) ∧
    ((c.wave cfg).bits[c.phase]? = some true → c.level cfg = c.audv) ∧
    ((c.wave cfg).bits[c.phase]? = some false → c.level cfg = 0)

/-! ### The cartridge -/

/-- R401 to R404, R396: under the standard schemes hotspot number `i` selects bank `i`, or the reversed bank, no
other address selects, the window shows the bank selected by the access itself, the data byte does not matter, and
a second access to the same address changes nothing more. -/
def Obligations.StandardHotspots : Prop :=
  ∀ (rom : Rom) (sz : StdSize) (reversed : Bool) (bank a : Nat) (data data' : Byte), a < 8192 →
    let first := [0x1FF8, 0x1FF6, 0x1FF4].getD (sz.banks / 4) 0
    let r := (Mapper.std sz reversed bank).access rom a data
    (∀ i, i < sz.banks → a = first + i → r.2 = .std sz reversed (if reversed then sz.banks - 1 - i else i)) ∧
    (a < first ∨ first + sz.banks ≤ a → r.2 = .std sz reversed bank) ∧
    (∀ k, r.2 = .std sz reversed k → 4096 ≤ a → r.1 = some (rom.read (k * 4096 + (a - 4096)))) ∧
    (a < 4096 → r.1 = none) ∧
    (Mapper.std sz reversed bank).access rom a data' = r ∧
    (r.2.access rom a data).2 = r.2

/-- R397, R405, R408, R412, R413: behind the write port and the read port of a cartridge RAM lie the same bytes; any
access to the write port stores the data byte and drives nothing, and an access to the read port changes nothing.
The RAM ports are those of the super-chip schemes, of `FA`, of `3E` in RAM mode (1 KiB slices of 32 KiB), and of
`E7` (1 KiB while the trap bank 7 is low, and the selected one of four 256-byte pages). -/
def Obligations.CartridgeRamPorts : Prop :=
  (∀ (rom : Rom) (cram : Memory) (data data' : Byte) (i j bank : Nat) (sz : StdSize), Memory.wf cram →
    (i < 128 → j < 128 →
      (Mapper.superChip sz bank cram).access rom (0x1000 + i) data = (none, .superChip sz bank (cram.write i data)) ∧
      (Mapper.superChip sz bank cram).access rom (0x1080 + j) data' = (some (cram.read j), .superChip sz bank cram) ∧
      ((Mapper.superChip sz bank (cram.write i data)).access rom (0x1080 + j) data').1 =
        some (if i = j then data else cram.read j)) ∧
    (i < 256 → j < 256 →
      (Mapper.cbs bank cram).access rom (0x1000 + i) data = (none, .cbs bank (cram.write i data)) ∧
      (Mapper.cbs bank cram).access rom (0x1100 + j) data' = (some (cram.read j), .cbs bank cram) ∧
      ((Mapper.cbs bank (cram.write i data)).access rom (0x1100 + j) data').1 =
        some (if i = j then data else cram.read j))) ∧
  (∀ (rom : Rom) (cram : Memory) (data data' : Byte) (i j bank : Nat) (k l : BitVec 5), Memory.wf cram →
    i < 1024 → j < 1024 →
    let at' := fun (k : BitVec 5) (m : Memory) => Mapper.tigervisionRam true bank k m
    (at' k cram).access rom (0x1400 + i) data = (none, at' k (cram.write (k.toNat * 1024 + i) data)) ∧
    (at' k cram).access rom (0x1000 + j) data' = (some (cram.read (k.toNat * 1024 + j)), at' k cram) ∧
    ((at' l (cram.write (k.toNat * 1024 + i) data)).access rom (0x1000 + j) data').1 =
      some (if k = l ∧ i = j then data else cram.read (l.toNat * 1024 + j))) ∧
  ∀ (rom : Rom) (big small : Memory) (data data' : Byte) (i j : Nat) (low : BitVec 3) (page other : BitVec 2),
    Memory.wf big → Memory.wf small →
    (i < 1024 → j < 1024 →
      (Mapper.mNetwork 7 page big small).access rom (0x1000 + i) data =
        (none, .mNetwork 7 page (big.write i data) small) ∧
      (Mapper.mNetwork 7 page big small).access rom (0x1400 + j) data' =
        (some (big.read j), .mNetwork 7 page big small) ∧
      ((Mapper.mNetwork 7 page (big.write i data) small).access rom (0x1400 + j) data').1 =
        some (if i = j then data else big.read j)) ∧
    (i < 256 → j < 256 →
      (Mapper.mNetwork low page big small).access rom (0x1800 + i) data =
        (none, .mNetwork low page big (small.write (page.toNat * 256 + i) data)) ∧
      (Mapper.mNetwork low page big small).access rom (0x1900 + j) data' =
        (some (small.read (page.toNat * 256 + j)), .mNetwork low page big small) ∧
      ((Mapper.mNetwork low other big (small.write (page.toNat * 256 + i) data)).access rom (0x1900 + j) data').1 =
        some (if page = other ∧ i = j then data else small.read (other.toNat * 256 + j)))

/-- R399, R400, R405 to R408, R410 to R415, R418, R419: what an access selects and returns under every scheme that is
not a standard one, the RAM ports (CartridgeRamPorts) and the Pitfall-II reads (PitfallReads) apart.  Tigervision
selects by the data byte of any access at or below `0x3F`, the extended one at `0x3F` and, for RAM, at `0x3E`;
Activision, armed by an access to `0x01FE`, takes bit 5 of the next byte on the bus, the cartridge's own byte coming
from the bank before; Megaboy's hotspot steps the bank; the others select by address.  Last, the effect of a
Pitfall-II write register. -/
def Obligations.UnusualSwitching : Prop :=
  (∀ (rom : Rom) (bank a : Nat) (data : Byte) (armed : Bool) (k : BitVec 4), a < 8192 →
    let r := (Mapper.tigervision bank).access rom a data
    let f := (Mapper.activision bank armed).access rom a data
    let d := if 4096 ≤ a then rom.read (bank * 4096 + (a - 4096)) else data
    r.2 = .tigervision (if a ≤ 0x3F then data.toNat % rom.slices else bank) ∧
    (4096 ≤ a → a < 6144 → r.1 = some (rom.read (bank * 2048 + (a - 4096)))) ∧
    (6144 ≤ a → r.1 = some (rom.read ((rom.slices - 1) * 2048 + (a - 6144)))) ∧
    f.2 = .activision (if armed then (if d.getLsbD 5 then 0 else 1) else bank) (decide (a = 0x01FE)) ∧
    f.1 = (if 4096 ≤ a then some d else none) ∧
    ((Mapper.megaboy k).access rom 0x1FF0 data).2 = .megaboy (k + 1) ∧
    (a ≠ 0x1FF0 → ((Mapper.megaboy k).access rom a data).2 = .megaboy k)) ∧
  (∀ (rom : Rom) (bank a : Nat) (data : Byte), a < 8192 →
    let window := fun off : Nat => if 4096 ≤ a then some (rom.read off) else none
    let byte := fun n : Nat => window (n * 4096 + (a - 4096))
    Mapper.fixed2K.access rom a data = (window (a % 2048), .fixed2K) ∧
    Mapper.fixed4K.access rom a data = (byte 0, .fixed4K) ∧
    (let n := if a = 0x0220 then 0 else if a = 0x0240 then 1 else bank
     (Mapper.uaLimited bank).access rom a data = (byte n, .uaLimited n)) ∧
    (∀ cram, a < 0x1000 ∨ 0x1200 ≤ a →
      let n := if a = 0x1FF8 then 0 else if a = 0x1FF9 then 1 else if a = 0x1FFA then 2 else bank
      (Mapper.cbs bank cram).access rom a data = (byte n, .cbs n cram)) ∧
    (∀ (sz : StdSize) cram, a < 0x1000 ∨ 0x1100 ≤ a →
      let first := [0x1FF8, 0x1FF6, 0x1FF4].getD (sz.banks / 4) 0
      let n := if first ≤ a ∧ a < first + sz.banks then a - first else bank
      (Mapper.superChip sz bank cram).access rom a data = (byte n, .superChip sz n cram)) ∧
    (∀ k : BitVec 4, let n := if a = 0x1FF0 then k + 1 else k
      (Mapper.megaboy k).access rom a data = (byte n.toNat, .megaboy n)) ∧
    ∀ d : Dpc, a < 0x1000 ∨ 0x1080 ≤ a →
      let n := if a = 0x1FF8 then 0 else if a = 0x1FF9 then 1 else d.bank
      (Mapper.pitfall2 d).access rom a data = (byte n, .pitfall2 { d with bank := n })) ∧
  (∀ (rom : Rom) (a : Nat) (data : Byte) (s0 s1 s2 : BitVec 3), a < 8192 →
    let n0 := if 0x1FE0 ≤ a ∧ a < 0x1FE8 then BitVec.ofNat 3 (a - 0x1FE0) else s0
    let n1 := if 0x1FE8 ≤ a ∧ a < 0x1FF0 then BitVec.ofNat 3 (a - 0x1FE8) else s1
    let n2 := if 0x1FF0 ≤ a ∧ a < 0x1FF8 then BitVec.ofNat 3 (a - 0x1FF0) else s2
    let slice := if a < 0x1400 then n0.toNat else if a < 0x1800 then n1.toNat else if a < 0x1C00 then n2.toNat else 7
    (Mapper.parker s0 s1 s2).access rom a data =
      (if 4096 ≤ a then some (rom.read (slice * 1024 + a % 1024)) else none, .parker n0 n1 n2)) ∧
  (∀ (rom : Rom) (bank a : Nat) (data : Byte) (ram : Bool) (k : BitVec 5) (cram : Memory), a < 8192 →
    let r := (Mapper.tigervisionRam ram bank k cram).access rom a data
    (a = 0x003F → r = (none, .tigervisionRam false (data.toNat % rom.slices) k cram)) ∧
    (a = 0x003E → r = (none, .tigervisionRam true bank (BitVec.ofNat 5 (data.toNat % 32)) cram)) ∧
    (a < 4096 → a ≠ 0x003F → a ≠ 0x003E → r = (none, .tigervisionRam ram bank k cram)) ∧
    (4096 ≤ a → a < 6144 → ram = false →
      r = (some (rom.read (bank * 2048 + (a - 4096))), .tigervisionRam ram bank k cram)) ∧
    (6144 ≤ a → r = (some (rom.read ((rom.slices - 1) * 2048 + (a - 6144))), .tigervisionRam ram bank k cram))) ∧
  (∀ (rom : Rom) (a : Nat) (data : Byte) (low : BitVec 3) (page : BitVec 2) (big small : Memory), a < 8192 →
    let low' := if 0x1FE0 ≤ a ∧ a < 0x1FE8 then BitVec.ofNat 3 (a - 0x1FE0) else low
    let page' := if 0x1FE8 ≤ a ∧ a < 0x1FEC then BitVec.ofNat 2 (a - 0x1FE8) else page
    let r := (Mapper.mNetwork low page big small).access rom a data
    (a < 4096 → r = (none, .mNetwork low page big small)) ∧
    (4096 ≤ a → a < 0x1800 → low.toNat < 7 →
      r = (some (rom.read (low.toNat * 2048 + (a - 4096))), .mNetwork low page big small)) ∧
    (0x1A00 ≤ a → r = (some (rom.read (0x3800 + (a - 0x1800))), .mNetwork low' page' big small))) ∧
  ∀ (rom : Rom) (d : Dpc) (i : Fin 8) (f : Nat) (v : Byte), f < 8 →
    ∃ d', (Mapper.pitfall2 d).access rom (0x1040 + 8 * f + i.val) v = (none, .pitfall2 d') ∧
      d'.bank = d.bank ∧ d'.lfsr = (if f = 6 then 1 else d.lfsr) ∧
      (∀ j : Fin 8,
        d'.top[j] = (if f = 0 ∧ j = i then v else d.top[j]) ∧
        d'.bot[j] = (if f = 1 ∧ j = i then v else d.bot[j]) ∧
        d'.flag[j] = (if f = 0 ∧ j = i then false else d.flag[j]) ∧
        d'.ctr[j].toNat =
          (if f = 2 ∧ j = i then d.ctr[j].toNat / 256 * 256 + v.toNat
          else if f = 3 ∧ j = i then v.toNat % 8 * 256 + d.ctr[j].toNat % 256
          else d.ctr[j].toNat)) ∧
      ∀ k : Fin 3, d'.music[k] = (if f = 3 ∧ i.val = 5 + k.val then v.getLsbD 4 else d.music[k])

/-- R418, R420, R421, R424: a Pitfall-II data read steps the shift register, runs the comparator of its fetcher,
returns the display byte addressed backwards, masked or not, and counts the fetcher down, wrapping at 11 bits; the
other fetchers do not move. -/
def Obligations.PitfallReads : Prop :=
  ∀ (rom : Rom) (d : Dpc) (i : Fin 8) (data : Byte),
    let low := d.ctr[i].extractLsb' 0 8
    let flag := if low = d.top[i] then true else if low = d.bot[i] then false else d.flag[i]
    let shown := rom.read (8192 + (2047 - d.ctr[i].toNat))
    let r := fun f : Nat => (Mapper.pitfall2 d).access rom (0x1000 + 8 * f + i.val) data
    (r 1).1 = some shown ∧
    (r 2).1 = some (if flag then shown else 0) ∧
    (r 7).1 = some (if flag then 0xFF else 0x00) ∧
    (r 0).1 = some (if i.val < 4 then lfsrStep d.lfsr else 0) ∧
    (∀ f, 3 ≤ f → f ≤ 6 → (r f).1 = some 0) ∧
    (∀ f, f < 8 → ∃ d', (r f).2 = .pitfall2 d' ∧
      d'.lfsr = lfsrStep d.lfsr ∧ d'.flag[i] = flag ∧ d'.ctr[i].toNat = (d.ctr[i].toNat + 2047) % 2048 ∧
      d'.bank = d.bank ∧ d'.top = d.top ∧ d'.bot = d.bot ∧
      ∀ j : Fin 8, j ≠ i → d'.ctr[j] = d.ctr[j] ∧ d'.flag[j] = d.flag[j])

/-- R391, R394, R395: what an access returns is the byte its own selection maps there, as the read without side
effects shows it after the access; except the Pitfall-II registers and the access an armed Activision trigger
fires in. -/
def Obligations.AccessShowsMappedByte : Prop :=
  ∀ (rom : Rom) (m : Mapper) (a : Nat) (data v : Byte), a < 8192 → m.scheme ≠ .sDPC →
    (∀ bank, m ≠ .activision bank true) → (m.access rom a data).1 = some v →
    (m.access rom a data).2.view rom a = some v

/-! ### Reset -/

/-- R40, R450, R451: power-on with any cartridge, inputs and draws leaves the drawn registers, `I` set, two cycles
passed, `sysclk = 6`, the beam at -62, every device register and latch 0 but `pa7_prev`, and `pc` from the vector at
`0xFFFC`, low byte first; the audio counts the six clocks where its period is longer, and each controller has been called with
`transitions` and with the two cycles' clocks (R286).  The colour buffer, which the
spec gives no value, is blank (the model's DESIGN CHOICE, notes/assumptions/5).  R398, R417: a cartridge made by the
registry comes out of power-on as it was made, every selector at `MAPPER_INIT_BANK` mod the number of its choices. -/
def Obligations.PowerOnValues : Prop :=
  (∀ (cfg : Config) (cart : Cart) (inp : Inputs) (dr : Draws),
    let b := (State.created cfg cart inp dr).bus
    let lo := b.tick.peek 0xFFFC
    let hi := lo.2.tick.peek 0xFFFD
    let s := State.powerOn cfg cart inp dr
    let unit : PlayerUnit :=
      { pos := 0, mpos := 0, nusiz := 0, mSize := 0, grpNew := 0, grpOld := 0, refp := false, vdelp := false,
        enam := false, resmp := false, hm := 0, mhm := 0, colup := 0 }
    let silent : Channel := { audc := 0, audf := 0, audv := 0, divCount := 0, phase := 0 }
    s.cpu =
      { a := dr.a, x := dr.x, y := dr.y, s := dr.s, pc := wordOf hi.1 lo.1, c := dr.c, z := dr.z, i := true,
        d := dr.d, v := dr.v, n := dr.n } ∧
    s.bus.cfg = cfg ∧ s.bus.inputs = inp ∧ s.bus.busTrash = hi.1 ∧
    s.bus.sysclk = 6 ∧ s.bus.cycles = 2 ∧ s.bus.wsyncExtra = 0 ∧ s.bus.ram = dr.ram ∧
    s.bus.tia =
      { h := -62, scanline := 0, rendered := -68, hmoveBlank := false, pf := 0, pfReflect := false, pfScore := false,
        pfPriority := false, blSize := 0, posBL := 0, p0 := unit, p1 := unit, vdelbl := false, enablNew := false,
        enablOld := false, hmBL := 0, colupf := 0, colubk := 0, vsync := false, vblank := false, inptLatch := false,
        inptGround := false, cx := Vector.replicate 15 false, line := Vector.replicate 160 0,
        colour := Vector.replicate 160 none, lines := [], refreshes := 0 } ∧
    s.bus.riot =
      { ddra := 0, ddrb := 0, ora := 0, orb := 0, timer := 0, shift := .shift0, residue := 6, timerIrq := false,
        edgeIrq := false, pa7Prev := true } ∧
    s.bus.audio.programmed = { ch0 := silent, ch1 := silent, residue := 0, samples := [] } ∧
    (6 < cfg.audioTickPeriod → s.bus.audio = { ch0 := silent, ch1 := silent, residue := 6, samples := [] }) ∧
    s.bus.portCalls =
      { left := [.clock 3, .clock 3, .transitions], right := [.clock 3, .clock 3, .transitions] } ∧
    s.bus.cart.rom = cart.rom) ∧
  ∀ (cfg : Config) (sch : Scheme) (rom : Rom) (mem mem256 : Memory) (cart : Cart) (inp : Inputs) (dr : Draws),
    Cart.create cfg sch rom mem mem256 = some cart →
    let first := fun n : Nat => cfg.mapperInitBank % n
    (State.powerOn cfg cart inp dr).bus.cart = cart ∧ cart.rom = rom ∧
    cart.mapper =
      match sch with
      | .s2K => .fixed2K
      | .s4K => .fixed4K
      | .sF8 => .std .f8 false (first 2)
      | .sF6 => .std .f6 false (first 4)
      | .sF4 => .std .f4 false (first 8)
      | .sF8R => .std .f8 true (first 2)
      | .sF6R => .std .f6 true (first 4)
      | .sF4R => .std .f4 true (first 8)
      | .sF8SC => .superChip .f8 (first 2) mem
      | .sF6SC => .superChip .f6 (first 4) mem
      | .sF4SC => .superChip .f4 (first 8) mem
      | .sE0 => .parker (BitVec.ofNat 3 (first 8)) (BitVec.ofNat 3 (first 8)) (BitVec.ofNat 3 (first 8))
      | .s3F => .tigervision (first (rom.size / 2048))
      | .s3E => .tigervisionRam false (first (rom.size / 2048)) (BitVec.ofNat 5 (first 32)) mem
      | .sFE => .activision (first 2) false
      | .sE7 => .mNetwork (BitVec.ofNat 3 (first 8)) (BitVec.ofNat 2 (first 4)) mem mem256
      | .sFA => .cbs (first 3) mem
      | .sF0 => .megaboy (BitVec.ofNat 4 (first 16))
      | .sUA => .uaLimited (first 2)
      | .sDPC =>
        .pitfall2
          { bank := first 2, ctr := Vector.replicate 8 0, top := Vector.replicate 8 0, bot := Vector.replicate 8 0,
            flag := Vector.replicate 8 false, lfsr := 1, music := Vector.replicate 3 false }

/-- R450, R452: `reset()` sets `I`, loads `pc` from the vector and takes two cycles; the other registers and flags,
RAM, the device registers and the fixtures stay. -/
def Obligations.WarmReset : Prop :=
  ∀ s : State,
    let lo := s.bus.tick.peek 0xFFFC
    let hi := lo.2.tick.peek 0xFFFD
    s.warmReset = { cpu := { s.cpu with pc := wordOf hi.1 lo.1, i := true }, bus := hi.2 } ∧
    s.warmReset.bus.cycles = s.bus.cycles + 2 ∧
    s.warmReset.bus.ram = s.bus.ram ∧
    s.bus.SameRegisters s.warmReset.bus ∧ s.bus.SameFixtures s.warmReset.bus

/-! ### Invariants and whole-machine rules -/

/-- The model's reset state is power-on with the default parameters, a blank cartridge, idle inputs and zero draws
(the model's DESIGN CHOICE, notes/assumptions 1 to 5 and 7); it is well formed and its clocks are in lockstep. -/
def Obligations.ResetIsWellFormed : Prop :=
  State.reset = State.powerOn defaultConfig .blank .idle .zero ∧ State.reset.Ok ∧ State.reset.Lockstep

/-- A machine powered on with a well-formed configuration, cartridge and RAM is well formed and in lockstep. -/
def Obligations.PowerOnIsWellFormed : Prop :=
  ∀ (cfg : Config) (cart : Cart) (inp : Inputs) (dr : Draws), cfg.wf → cart.wf → Memory.wfIn 128 dr.ram →
    (State.powerOn cfg cart inp dr).Ok ∧ (State.powerOn cfg cart inp dr).Lockstep

/-- From every well-formed state every step gives a well-formed state: memories stay canonical and inside their
sizes, the beam, the positions, the timer, the phases and the bank selectors stay in the ranges of R29 to R37. -/
def Obligations.StepKeepsWellFormed : Prop := ∀ s t : State, s.Ok → step s = .next t → t.Ok

/-- From every state in lockstep every step gives a state in lockstep: every chip's clock stays the one system
clock, the controllers' time too, the stall ends at a line start, and every count stays a whole number of processor cycles. -/
def Obligations.StepKeepsLockstep : Prop := ∀ s t : State, s.Lockstep → step s = .next t → t.Lockstep

/-- R252: the `I` flag gates nothing: changing it before an instruction changes nothing but `I` afterwards, for
every instruction except PHP and BRK, which push it. -/
def Obligations.InterruptFlagGatesNothing : Prop :=
  ∀ (i : Instr) (s t : State) (b : Bool), i ≠ .php → i ≠ .brk → exec i s = .next t →
    ∃ t', exec i (s.setI b) = .next t' ∧ t'.setI false = t.setI false

/-- Two states that agree on everything but the audio half, the picture, the host records and the counters agree on
everything else after a step, the inputs being given.  For the picture and the audio half this rests on R29, R339 and
the introduction of the audio file.  A controller's answers are functions of the history of its calls (R286), so the
two states must agree on the history of every port whose controller answers by it; where the answers are the same for
every history (`held` alone) the histories may differ.  For the host records and for the cycle counter it is the
model's choice and no rule of the spec: what is handed to the host is recorded and never read back (DESIGN CHOICE,
notes/assumptions/10), and the counter of processor cycles is the model's own field (DESIGN CHOICE,
notes/assumptions/11); that a controller is a table with a `held` answer is DESIGN CHOICE, notes/assumptions/9. -/
def Obligations.HostSideIsInvisible : Prop :=
  ∀ s s' t : State, s.visible = s'.visible → step s = .next t →
    ∃ t', step s' = .next t' ∧ t.visible = t'.visible
end

