-- ==== Sys2Proof/Laws/Bus.lean ====
section
/-!
SUPPORT. What the passing of a cycle, a bus read and a bus write do to each part of the bus.
-/

namespace Sys2Proof.Machine

variable (b : Bus) (a : Word) (v : Byte)

@[simp] theorem Bus.call_cfg (cs : PortCalls) : (b.call cs).cfg = b.cfg := rfl
@[simp] theorem Bus.call_busTrash (cs : PortCalls) : (b.call cs).busTrash = b.busTrash := rfl
@[simp] theorem Bus.call_ram (cs : PortCalls) : (b.call cs).ram = b.ram := rfl
@[simp] theorem Bus.call_cart (cs : PortCalls) : (b.call cs).cart = b.cart := rfl
@[simp] theorem Bus.call_inputs (cs : PortCalls) : (b.call cs).inputs = b.inputs := rfl
@[simp] theorem Bus.call_wsyncExtra (cs : PortCalls) : (b.call cs).wsyncExtra = b.wsyncExtra := rfl
@[simp] theorem Bus.call_cycles (cs : PortCalls) : (b.call cs).cycles = b.cycles := rfl
@[simp] theorem Bus.call_sysclk (cs : PortCalls) : (b.call cs).sysclk = b.sysclk := rfl
@[simp] theorem Bus.call_tia (cs : PortCalls) : (b.call cs).tia = b.tia := rfl
@[simp] theorem Bus.call_audio (cs : PortCalls) : (b.call cs).audio = b.audio := rfl
@[simp] theorem Bus.call_riot (cs : PortCalls) : (b.call cs).riot = b.riot := rfl

@[simp] theorem Bus.call_portCalls (cs : PortCalls) : (b.call cs).portCalls = cs.after b.portCalls := rfl
@[simp] theorem PortCalls.none_after (h : PortCalls) : PortCalls.none.after h = h := rfl

@[simp] theorem Bus.tick_cfg : b.tick.cfg = b.cfg := rfl
@[simp] theorem Bus.tick_busTrash : b.tick.busTrash = b.busTrash := rfl
@[simp] theorem Bus.tick_ram : b.tick.ram = b.ram := rfl
@[simp] theorem Bus.tick_cart : b.tick.cart = b.cart := rfl
@[simp] theorem Bus.tick_inputs : b.tick.inputs = b.inputs := rfl
@[simp] theorem Bus.tick_portCalls :
    b.tick.portCalls = (PortCalls.both [.clock (3 + b.wsyncExtra)]).after b.portCalls := rfl
@[simp] theorem Bus.tick_wsyncExtra : b.tick.wsyncExtra = 0 := rfl
@[simp] theorem Bus.tick_cycles : b.tick.cycles = b.cycles + 1 := rfl
@[simp] theorem Bus.tick_sysclk : b.tick.sysclk = b.sysclk + (3 + b.wsyncExtra) := rfl
@[simp] theorem Bus.tick_tia : b.tick.tia = b.tia.clock (3 + b.wsyncExtra) := rfl
@[simp] theorem Bus.tick_audio : b.tick.audio = b.audio.clock b.cfg (3 + b.wsyncExtra) := rfl
@[simp] theorem Bus.tick_riot : b.tick.riot = b.riot.clock (3 + b.wsyncExtra) := rfl

@[simp] theorem Cart.access_rom (k : Nat) (c : Cart) : (c.access k v).2.rom = c.rom := rfl

@[simp] theorem Bus.settle_cfg : (b.settle a v).cfg = b.cfg := rfl
@[simp] theorem Bus.settle_busTrash : (b.settle a v).busTrash = v := rfl
@[simp] theorem Bus.settle_ram : (b.settle a v).ram = b.ram := rfl
@[simp] theorem Bus.settle_inputs : (b.settle a v).inputs = b.inputs := rfl
@[simp] theorem Bus.settle_portCalls : (b.settle a v).portCalls = b.portCalls := rfl
@[simp] theorem Bus.settle_wsyncExtra : (b.settle a v).wsyncExtra = b.wsyncExtra := rfl
@[simp] theorem Bus.settle_cycles : (b.settle a v).cycles = b.cycles := rfl
@[simp] theorem Bus.settle_sysclk : (b.settle a v).sysclk = b.sysclk := rfl
@[simp] theorem Bus.settle_tia : (b.settle a v).tia = b.tia := rfl
@[simp] theorem Bus.settle_audio : (b.settle a v).audio = b.audio := rfl
@[simp] theorem Bus.settle_riot : (b.settle a v).riot = b.riot := rfl
@[simp] theorem Bus.settle_cart : (b.settle a v).cart = (b.cart.access (addr13 a) v).2 := rfl

/-- A read in the cartridge window. -/
theorem Bus.peek_cart_eq (h : chipOf a = .cart) :
    b.peek a =
      (((b.cart.access (addr13 a) b.busTrash).1.getD b.busTrash),
        { b with
          cart := (b.cart.access (addr13 a) b.busTrash).2
          busTrash := (b.cart.access (addr13 a) b.busTrash).1.getD b.busTrash }) := by
  simp [Bus.peek, h]

/-- A read of the timing chip. -/
theorem Bus.peek_tia_eq (h : chipOf a = .tia) :
    b.peek a =
      (b.tia.catchUp.readByte b.lines b.busTrash (tiaReadIndex a),
        ({ b with tia := b.tia.catchUp }.call (inptCalls (tiaReadIndex a))).settle a
          (b.tia.catchUp.readByte b.lines b.busTrash (tiaReadIndex a))) := by
  simp [Bus.peek, h]

/-- A read of RAM. -/
theorem Bus.peek_ram_eq (h : chipOf a = .ram) :
    b.peek a = (b.ram.read (ramIndex a), b.settle a (b.ram.read (ramIndex a))) := by
  simp [Bus.peek, h]

/-- A read of the I/O chip. -/
theorem Bus.peek_riot_eq (h : chipOf a = .riot) :
    b.peek a =
      ((b.riot.read (riotIndex a) b.lines).1,
        ({ b with riot := (b.riot.read (riotIndex a) b.lines).2 }.call (riotReadCalls (riotIndex a))).settle a
          (b.riot.read (riotIndex a) b.lines).1) := by
  simp [Bus.peek, h]

/-- A write in the cartridge window. -/
theorem Bus.poke_cart_eq (h : chipOf a = .cart) : b.poke a v = b.settle a v := by simp [Bus.poke, h]

/-- A write of the timing chip. -/
theorem Bus.poke_tia_eq (h : chipOf a = .tia) : b.poke a v = (b.tiaWrite (tiaWriteIndex a) v).settle a v := by
  simp [Bus.poke, h]

/-- A write of RAM. -/
theorem Bus.poke_ram_eq (h : chipOf a = .ram) :
    b.poke a v = { b with ram := b.ram.write (ramIndex a) v }.settle a v := by
  simp [Bus.poke, h]

/-- A write of the I/O chip. -/
theorem Bus.poke_riot_eq (h : chipOf a = .riot) : b.poke a v = (b.riotWrite (riotIndex a) v).settle a v := by
  simp [Bus.poke, h]

@[simp] theorem Bus.peek_cfg : (b.peek a).2.cfg = b.cfg := by
  unfold Bus.peek; split <;> rfl
@[simp] theorem Bus.peek_ram : (b.peek a).2.ram = b.ram := by
  unfold Bus.peek; split <;> rfl
@[simp] theorem Bus.peek_inputs : (b.peek a).2.inputs = b.inputs := by
  unfold Bus.peek; split <;> rfl
@[simp] theorem Bus.peek_sysclk : (b.peek a).2.sysclk = b.sysclk := by
  unfold Bus.peek; split <;> rfl
@[simp] theorem Bus.peek_cycles : (b.peek a).2.cycles = b.cycles := by
  unfold Bus.peek; split <;> rfl
@[simp] theorem Bus.peek_wsyncExtra : (b.peek a).2.wsyncExtra = b.wsyncExtra := by
  unfold Bus.peek; split <;> rfl
@[simp] theorem Bus.peek_audio : (b.peek a).2.audio = b.audio := by
  unfold Bus.peek; split <;> rfl
/-- The calls a read makes on the controller ports (R283, R345). -/
theorem Bus.peek_portCalls :
    (b.peek a).2.portCalls =
      (if chipOf a = .tia then inptCalls (tiaReadIndex a)
      else if chipOf a = .riot then riotReadCalls (riotIndex a) else .none).after b.portCalls := by
  unfold Bus.peek; split <;> simp_all
@[simp] theorem Bus.peek_rom : (b.peek a).2.cart.rom = b.cart.rom := by
  unfold Bus.peek; split <;> rfl
/-- After a read the open-bus value is the byte read. -/
@[simp] theorem Bus.peek_busTrash : (b.peek a).2.busTrash = (b.peek a).1 := by
  unfold Bus.peek; split <;> rfl
/-- A read changes the timing chip by a catch-up only. -/
theorem Bus.peek_tia : (b.peek a).2.tia = if chipOf a = .tia then b.tia.catchUp else b.tia := by
  unfold Bus.peek; split <;> simp_all
/-- A read changes the I/O chip as that chip's read says. -/
theorem Bus.peek_riot :
    (b.peek a).2.riot = if chipOf a = .riot then (b.riot.read (riotIndex a) b.lines).2 else b.riot := by
  unfold Bus.peek; split <;> simp_all

/-- What a timing-chip write does to each part of the bus it can reach. -/
theorem Bus.tiaWrite_eq (i : Nat) :
    b.tiaWrite i v =
      { b with
        tia := b.tia.catchUp.write i v
        audio := b.audio.write b.cfg i v
        wsyncExtra := if i = 0x02 then b.tia.catchUp.wsyncClocks else b.wsyncExtra
        portCalls := (tiaWriteCalls i v).after b.portCalls } := rfl

/-- What an I/O-chip write does to each part of the bus it can reach. -/
theorem Bus.riotWrite_eq (k : BitVec 5) :
    b.riotWrite k v =
      { b with
        riot := b.riot.write k v
        portCalls := ((b.riot.write k v).writeCalls k).after b.portCalls } := rfl

@[simp] theorem Bus.poke_cfg : (b.poke a v).cfg = b.cfg := by
  unfold Bus.poke; split <;> simp [Bus.tiaWrite_eq, Bus.riotWrite_eq]
@[simp] theorem Bus.poke_inputs : (b.poke a v).inputs = b.inputs := by
  unfold Bus.poke; split <;> simp [Bus.tiaWrite_eq, Bus.riotWrite_eq]
@[simp] theorem Bus.poke_sysclk : (b.poke a v).sysclk = b.sysclk := by
  unfold Bus.poke; split <;> simp [Bus.tiaWrite_eq, Bus.riotWrite_eq]
@[simp] theorem Bus.poke_cycles : (b.poke a v).cycles = b.cycles := by
  unfold Bus.poke; split <;> simp [Bus.tiaWrite_eq, Bus.riotWrite_eq]
@[simp] theorem Bus.poke_busTrash : (b.poke a v).busTrash = v := by
  unfold Bus.poke; split <;> simp [Bus.tiaWrite_eq, Bus.riotWrite_eq]
@[simp] theorem Bus.poke_rom : (b.poke a v).cart.rom = b.cart.rom := by
  unfold Bus.poke; split <;> simp [Bus.tiaWrite_eq, Bus.riotWrite_eq]
/-- A write changes RAM only where the address selects RAM. -/
theorem Bus.poke_ram : (b.poke a v).ram = if chipOf a = .ram then b.ram.write (ramIndex a) v else b.ram := by
  unfold Bus.poke; split <;> simp_all [Bus.tiaWrite_eq, Bus.riotWrite_eq]
/-- A write changes the timing chip only where the address selects it. -/
theorem Bus.poke_tia :
    (b.poke a v).tia = if chipOf a = .tia then b.tia.catchUp.write (tiaWriteIndex a) v else b.tia := by
  unfold Bus.poke; split <;> simp_all [Bus.tiaWrite_eq, Bus.riotWrite_eq]
/-- A write changes the audio half only where the address selects the timing chip. -/
theorem Bus.poke_audio :
    (b.poke a v).audio = if chipOf a = .tia then b.audio.write b.cfg (tiaWriteIndex a) v else b.audio := by
  unfold Bus.poke; split <;> simp_all [Bus.tiaWrite_eq, Bus.riotWrite_eq]
/-- A write changes the I/O chip only where the address selects it. -/
theorem Bus.poke_riot :
    (b.poke a v).riot = if chipOf a = .riot then b.riot.write (riotIndex a) v else b.riot := by
  unfold Bus.poke; split <;> simp_all [Bus.tiaWrite_eq, Bus.riotWrite_eq]
/-- A write sets a stall only at the WSYNC register. -/
theorem Bus.poke_wsyncExtra :
    (b.poke a v).wsyncExtra =
      if chipOf a = .tia ∧ tiaWriteIndex a = 2 then b.tia.catchUp.wsyncClocks else b.wsyncExtra := by
  unfold Bus.poke; split <;> simp_all [Bus.tiaWrite_eq, Bus.riotWrite_eq]
/-- The cartridge sees every write. -/
theorem Bus.poke_cart : (b.poke a v).cart = (b.cart.access (addr13 a) v).2 := by
  unfold Bus.poke; split <;> simp_all [Bus.tiaWrite_eq, Bus.riotWrite_eq]

/-- The calls a write makes on the controller ports (R343, R286). -/
theorem Bus.poke_portCalls :
    (b.poke a v).portCalls =
      (if chipOf a = .tia then tiaWriteCalls (tiaWriteIndex a) v
      else if chipOf a = .riot then (b.riot.write (riotIndex a) v).writeCalls (riotIndex a)
      else .none).after b.portCalls := by
  unfold Bus.poke; split <;> simp_all [Bus.tiaWrite_eq, Bus.riotWrite_eq]

/-- The cartridge sees every read, with the byte on the data bus. -/
theorem Bus.peek_cart :
    (b.peek a).2.cart =
      (b.cart.access (addr13 a) (if chipOf a = .cart then b.busTrash else (b.peek a).1)).2 := by
  unfold Bus.peek; split <;> simp_all

/-- The bank is no part of the scheme. -/
theorem Mapper.scheme_std (sz : StdSize) (r : Bool) (k k' : Nat) :
    (Mapper.std sz r k).scheme = (Mapper.std sz r k').scheme := by
  cases sz <;> cases r <;> rfl

/-- Bank and cartridge RAM are no part of the scheme. -/
theorem Mapper.scheme_superChip (sz : StdSize) (k k' : Nat) (m m' : Memory) :
    (Mapper.superChip sz k m).scheme = (Mapper.superChip sz k' m').scheme := by
  cases sz <;> rfl

/-- An access keeps the scheme of the cartridge. -/
theorem Mapper.access_scheme (rom : Rom) (k : Nat) (m : Mapper) : (m.access rom k v).2.scheme = m.scheme := by
  cases m <;> simp only [Mapper.access, accessStd, accessSuperChip, accessParker, accessTigervision,
    accessTigervisionRam, accessActivision, accessMNetwork, accessCbs, accessMegaboy, accessUa, accessPitfall2] <;>
    (try split_ifs) <;>
    first | rfl | exact Mapper.scheme_std .. | exact Mapper.scheme_superChip ..

@[simp] theorem Cart.access_scheme (k : Nat) (c : Cart) : (c.access k v).2.mapper.scheme = c.mapper.scheme :=
  Mapper.access_scheme v c.rom k c.mapper

end Sys2Proof.Machine
end

