-- ==== Sys2Proof/Laws/Memory.lean ====
section
/-!
SUPPORT. Memories: read after write, and the canonical form is kept by every memory operation.
-/

namespace Sys2Proof.Machine

/-- An address below every entry reads as an unlisted one. -/
theorem Memory.read_of_above {m : Memory} {a : Nat} (h : ∀ c ∈ m, a < c.1) : m.read a = Memory.unlisted := by
  induction m with
  | nil => rfl
  | cons c rest ih =>
    obtain ⟨k, w⟩ := c
    have hk : a < k := h (k, w) (by simp)
    simp only [Memory.read, if_neg (by omega : ¬ k = a)]
    exact ih fun c hc => h c (by simp [hc])

/-- A read after a write to the same address gives the byte written. -/
theorem Memory.read_write_same {m : Memory} (h : m.wf) (a : Nat) (v : Byte) : (m.write a v).read a = v := by
  induction m with
  | nil => by_cases hv : v = Memory.unlisted <;> simp [Memory.write, Memory.read, hv]
  | cons c rest ih =>
    obtain ⟨k, w⟩ := c
    obtain ⟨hp, hn⟩ := h
    rw [List.pairwise_cons] at hp
    have hr := ih ⟨hp.2, fun c hc => hn c (by simp [hc])⟩
    simp only [Memory.write]
    split_ifs with h1 h2 h3 h4
    · subst h2
      exact Memory.read_of_above fun c hc => by
        rcases List.mem_cons.mp hc with rfl | hc
        · exact h1
        · exact Nat.lt_trans h1 (hp.1 c hc)
    · simp [Memory.read]
    · subst h3 h4
      exact Memory.read_of_above fun c hc => hp.1 c hc
    · simp [Memory.read]
    · simp only [Memory.read, if_neg (fun e => h3 e.symm : ¬ k = a)]
      exact hr

/-- A write leaves every other address as it was. -/
theorem Memory.read_write_other {m : Memory} (h : m.wf) {a k : Nat} (hk : k ≠ a) (v : Byte) :
    (m.write a v).read k = m.read k := by
  induction m with
  | nil => by_cases hv : v = Memory.unlisted <;> simp [Memory.write, Memory.read, hv, hk.symm]
  | cons c rest ih =>
    obtain ⟨j, w⟩ := c
    obtain ⟨hp, hn⟩ := h
    rw [List.pairwise_cons] at hp
    have hr := ih ⟨hp.2, fun c hc => hn c (by simp [hc])⟩
    simp only [Memory.write]
    split_ifs with h1 h2 h3 h4
    · rfl
    · simp [Memory.read, hk.symm]
    · subst h3 h4
      simp [Memory.read, hk.symm]
    · subst h3
      simp [Memory.read, hk.symm]
    · simp only [Memory.read, hr]

/-- The entries of a written memory are old ones or the one written. -/
theorem Memory.mem_write {m : Memory} {a : Nat} {v : Byte} {c : Host.Cell} (h : c ∈ m.write a v) :
    c ∈ m ∨ (c = (a, v) ∧ v ≠ Memory.unlisted) := by
  induction m with
  | nil =>
    simp only [Memory.write] at h
    split_ifs at h with hv
    · simp at h
    · simp at h; exact .inr ⟨h, hv⟩
  | cons d rest ih =>
    obtain ⟨j, w⟩ := d
    simp only [Memory.write] at h
    split_ifs at h with h1 h2 h3 h4
    · exact .inl h
    · rcases List.mem_cons.mp h with h | h
      · exact .inr ⟨h, h2⟩
      · exact .inl h
    · exact .inl (by simp [h])
    · rcases List.mem_cons.mp h with h | h
      · exact .inr ⟨h, h4⟩
      · exact .inl (by simp [h])
    · rcases List.mem_cons.mp h with h | h
      · exact .inl (by simp [h])
      · rcases ih h with h | h
        · exact .inl (by simp [h])
        · exact .inr h

/-- A write keeps the canonical form. -/
theorem Memory.wf_write {m : Memory} (h : m.wf) (a : Nat) (v : Byte) : (m.write a v).wf := by
  refine ⟨?_, fun c hc => ?_⟩
  · induction m with
    | nil => simp only [Memory.write]; split_ifs <;> simp
    | cons d rest ih =>
      obtain ⟨j, w⟩ := d
      obtain ⟨hp, hn⟩ := h
      have hr := ih ⟨(List.pairwise_cons.mp hp).2, fun c hc => hn c (by simp [hc])⟩
      have hj := (List.pairwise_cons.mp hp).1
      simp only [Memory.write]
      split_ifs with h1 h2 h3 h4
      · exact hp
      · refine List.pairwise_cons.mpr ⟨fun c hc => ?_, hp⟩
        rcases List.mem_cons.mp hc with rfl | hc
        · exact h1
        · exact Nat.lt_trans h1 (hj c hc)
      · exact (List.pairwise_cons.mp hp).2
      · subst h3
        exact List.pairwise_cons.mpr ⟨hj, (List.pairwise_cons.mp hp).2⟩
      · refine List.pairwise_cons.mpr ⟨fun c hc => ?_, hr⟩
        rcases Memory.mem_write hc with hc | ⟨rfl, -⟩
        · exact hj c hc
        · change j < a; omega
  · rcases Memory.mem_write hc with hc | ⟨rfl, hv⟩
    · exact h.2 c hc
    · exact hv

/-- A write below the size keeps the canonical form within the size. -/
theorem Memory.wfIn_write {n : Nat} {m : Memory} (h : m.wfIn n) {a : Nat} (ha : a < n) (v : Byte) :
    (m.write a v).wfIn n := by
  refine ⟨Memory.wf_write h.1 a v, fun c hc => ?_⟩
  rcases Memory.mem_write hc with hc | ⟨rfl, -⟩
  · exact h.2 c hc
  · exact ha

/-- Memories in canonical form that read alike are equal. -/
theorem Memory.ext_of_read {m m' : Memory} (h : m.wf) (h' : m'.wf) (e : ∀ a, m.read a = m'.read a) : m = m' := by
  induction m generalizing m' with
  | nil =>
    cases m' with
    | nil => rfl
    | cons c rest =>
      have := e c.1
      simp only [Memory.read, if_true] at this
      exact absurd this.symm (h'.2 c (by simp))
  | cons c rest ih =>
    cases m' with
    | nil =>
      have := e c.1
      simp only [Memory.read, if_true] at this
      exact absurd this (h.2 c (by simp))
    | cons d rest' =>
      obtain ⟨k, v⟩ := c
      obtain ⟨j, w⟩ := d
      obtain ⟨hp, hn⟩ := h
      obtain ⟨hp', hn'⟩ := h'
      have hk := (List.pairwise_cons.mp hp).1
      have hj := (List.pairwise_cons.mp hp').1
      have ek := e k
      have ej := e j
      have hkj : k = j := by
        rcases Nat.lt_trichotomy k j with hlt | heq | hgt
        · rw [Memory.read, if_pos rfl, Memory.read_of_above] at ek
          · exact absurd ek (hn (k, v) (by simp))
          · intro c hc
            rcases List.mem_cons.mp hc with rfl | hc
            · exact hlt
            · exact Nat.lt_trans hlt (hj c hc)
        · exact heq
        · rw [show Memory.read ((j, w) :: rest') j = w by simp [Memory.read], Memory.read_of_above] at ej
          · exact absurd ej.symm (hn' (j, w) (by simp))
          · intro c hc
            rcases List.mem_cons.mp hc with rfl | hc
            · exact hgt
            · exact Nat.lt_trans hgt (hk c hc)
      subst hkj
      simp only [Memory.read, if_true] at ek
      subst ek
      congr 1
      refine ih ⟨(List.pairwise_cons.mp hp).2, fun c hc => hn c (by simp [hc])⟩
        ⟨(List.pairwise_cons.mp hp').2, fun c hc => hn' c (by simp [hc])⟩ fun a => ?_
      by_cases ha : k = a
      · subst ha
        rw [Memory.read_of_above (fun c hc => hk c hc), Memory.read_of_above (fun c hc => hj c hc)]
      · simpa [Memory.read, ha] using e a

/-- A memory made of bytes from `a` up lists addresses from `a` to its end. -/
theorem Memory.mem_ofBytes {bs : List Byte} {a : Nat} {c : Host.Cell} (h : c ∈ Memory.ofBytes bs a) :
    a ≤ c.1 ∧ c.1 < a + bs.length := by
  induction bs generalizing a with
  | nil => simp [Memory.ofBytes] at h
  | cons v rest ih =>
    simp only [Memory.ofBytes] at h
    split_ifs at h
    · have := ih h; simp only [List.length_cons]; omega
    · rcases List.mem_cons.mp h with rfl | h
      · simp
      · have := ih h; simp only [List.length_cons]; omega

/-- A memory made of bytes is in canonical form. -/
theorem Memory.wf_ofBytes (bs : List Byte) (a : Nat) : (Memory.ofBytes bs a).wf := by
  induction bs generalizing a with
  | nil => simp [Memory.ofBytes, Memory.wf]
  | cons v rest ih =>
    simp only [Memory.ofBytes]
    split_ifs with hv
    · exact ih (a + 1)
    · refine ⟨List.pairwise_cons.mpr ⟨fun c hc => ?_, (ih (a + 1)).1⟩, fun c hc => ?_⟩
      · have := Memory.mem_ofBytes hc; change a < c.1; omega
      · rcases List.mem_cons.mp hc with rfl | hc
        · exact hv
        · exact (ih (a + 1)).2 c hc

/-- The memories of the reset state are in canonical form. -/
theorem State.reset_memory_wf : State.reset.bus.ram.wf ∧ State.reset.bus.cart.rom.bytes.wf :=
  ⟨⟨List.Pairwise.nil, by simp [State.reset]⟩, List.Pairwise.nil, by simp [State.reset, Cart.blank]⟩

end Sys2Proof.Machine
end

