-- ==== Sys2Proof/Laws/Devices.lean ====
section
/-!
SUPPORT. What time and catching up do to each chip, and that every chip's operations keep its ranges.
-/

namespace Sys2Proof.Machine

/-! ### The timing chip -/

@[simp] theorem Tia.catchUp_h (t : Tia) : t.catchUp.h = t.h := rfl
@[simp] theorem Tia.catchUp_rendered (t : Tia) : t.catchUp.rendered = max t.rendered t.h := rfl
@[simp] theorem Tia.catchUp_programmed (t : Tia) : t.catchUp.programmed = t.programmed := rfl
@[simp] theorem Tia.catchUp_p0 (t : Tia) : t.catchUp.p0 = t.p0 := rfl
@[simp] theorem Tia.catchUp_p1 (t : Tia) : t.catchUp.p1 = t.p1 := rfl
@[simp] theorem Tia.catchUp_posBL (t : Tia) : t.catchUp.posBL = t.posBL := rfl
@[simp] theorem Tia.catchUp_scanline (t : Tia) : t.catchUp.scanline = t.scanline := rfl
@[simp] theorem Tia.catchUp_hmoveBlank (t : Tia) : t.catchUp.hmoveBlank = t.hmoveBlank := rfl
@[simp] theorem Tia.catchUp_wsyncClocks (t : Tia) : t.catchUp.wsyncClocks = t.wsyncClocks := rfl

/-- A latch after a catch-up: it was set, or its pair meets in an undrawn pixel (R336). -/
theorem Tia.catchUp_cx (t : Tia) (k : Fin 15) :
    t.catchUp.cx[k] = (t.cx[k] || (List.range 160).any fun x => t.undrawn x && covers (t.presence x) k) := by
  simp [Tia.catchUp]

/-- A latch that is set stays set through a catch-up (R336). -/
theorem Tia.catchUp_cx_sticky (t : Tia) (k : Fin 15) (h : t.cx[k] = true) : t.catchUp.cx[k] = true := by
  rw [Tia.catchUp_cx, h, Bool.true_or]

/-- A pixel after a catch-up (R306). -/
theorem Tia.catchUp_line (t : Tia) (x : Fin 160) :
    t.catchUp.line[x] = if t.undrawn x then t.presence x else t.line[x] := by
  simp [Tia.catchUp]

/-- The colour of a pixel after a catch-up (R306, R339). -/
theorem Tia.catchUp_colour (t : Tia) (x : Fin 160) :
    t.catchUp.colour[x] = if t.undrawn x then t.colourAt x (t.presence x) else t.colour[x] := by
  simp [Tia.catchUp]

/-- One clock moves the beam right, or from the last pixel to the start of the next line (R301). -/
theorem Tia.clock1_h (t : Tia) : t.clock1.h = if t.h + 1 = 160 then -68 else t.h + 1 := by
  simp only [Tia.clock1]; split <;> rfl

/-- One clock adds a line when the beam wraps (R301). -/
theorem Tia.clock1_scanline (t : Tia) :
    t.clock1.scanline = if t.h + 1 = 160 then t.scanline + 1 else t.scanline := by
  simp only [Tia.clock1]; split <;> rfl

@[simp] theorem Tia.clock1_programmed (t : Tia) : t.clock1.programmed = t.programmed := by
  simp only [Tia.clock1]; split <;> rfl

/-- Time changes no register of the timing chip (R301). -/
@[simp] theorem Tia.clock_programmed (n : Nat) (t : Tia) : (t.clock n).programmed = t.programmed := by
  induction n generalizing t with
  | zero => rfl
  | succ n ih => rw [Tia.clock, ih, Tia.clock1_programmed]

/-- The beam after `n` clocks (R300, R301). -/
theorem Tia.clock_h (n : Nat) (t : Tia) (h0 : -68 ≤ t.h) (h1 : t.h < 160) :
    (t.clock n).h = (t.h + 68 + n) % 228 - 68 := by
  induction n generalizing t with
  | zero => simp only [Tia.clock]; omega
  | succ n ih =>
    have e := t.clock1_h
    rw [Tia.clock, ih] <;> rw [e] <;> split <;> omega

/-- The line count after `n` clocks (R301). -/
theorem Tia.clock_scanline (n : Nat) (t : Tia) (h0 : -68 ≤ t.h) (h1 : t.h < 160) :
    ((t.clock n).scanline : Int) = t.scanline + (t.h + 68 + n) / 228 := by
  induction n generalizing t with
  | zero => simp only [Tia.clock]; omega
  | succ n ih =>
    have e := t.clock1_h
    have l := t.clock1_scanline
    rw [Tia.clock, ih] <;> (try rw [l]) <;> rw [e] <;> split <;> omega

/-- A catch-up keeps the ranges. -/
theorem Tia.Ok.catchUp {t : Tia} (h : t.Ok) : t.catchUp.Ok :=
  { left := le_trans h.left (le_max_left _ _)
    cursor := max_le h.cursor le_rfl
    right := h.right
    p0 := h.p0
    p1 := h.p1
    ball := h.ball }

/-- One clock keeps the ranges. -/
theorem Tia.Ok.clock1 {t : Tia} (h : t.Ok) : t.clock1.Ok := by
  have hl := h.left
  have hc := h.cursor
  have hr := h.right
  simp only [Tia.clock1]
  split
  · exact { left := le_rfl, cursor := le_rfl, right := by simp only; omega, p0 := h.p0, p1 := h.p1, ball := h.ball }
  · rename_i hne
    exact
      { left := hl
        cursor := by simp only; omega
        right := by simp only; omega
        p0 := h.p0
        p1 := h.p1
        ball := h.ball }

/-- Time keeps the ranges. -/
theorem Tia.Ok.clock (n : Nat) {t : Tia} (h : t.Ok) : (t.clock n).Ok := by
  induction n generalizing t with
  | zero => exact h
  | succ n ih => exact ih h.clock1

theorem moved_lt (pos : Nat) (hm : BitVec 4) : moved pos hm < 160 := by unfold moved; omega

theorem PlayerUnit.Ok.hmove {p : PlayerUnit} : p.hmove.Ok := ⟨moved_lt _ _, moved_lt _ _⟩

theorem PlayerUnit.Ok.writeResmp {p : PlayerUnit} (h : p.Ok) (v : Byte) : (p.writeResmp v).Ok := by
  have := h.mpos
  exact ⟨h.pos, by simp only [PlayerUnit.writeResmp]; split <;> omega⟩

theorem Tia.respPlayer_lt (t : Tia) : t.respPlayer < 160 := by unfold Tia.respPlayer; split <;> omega

theorem Tia.respMissile_lt (t : Tia) : t.respMissile < 160 := by unfold Tia.respMissile; split <;> omega

/-- Every register write keeps the ranges. -/
theorem Tia.Ok.write (i : Nat) (v : Byte) {t : Tia} (h : t.Ok) : (t.write i v).Ok := by
  have hp := t.respPlayer_lt
  have hm := t.respMissile_lt
  unfold Tia.write
  split <;>
    first
    | exact h
    | exact ⟨h.left, h.cursor, h.right, h.p0, h.p1, h.ball⟩
    | exact ⟨h.left, h.cursor, h.right, ⟨h.p0.pos, h.p0.mpos⟩, h.p1, h.ball⟩
    | exact ⟨h.left, h.cursor, h.right, h.p0, ⟨h.p1.pos, h.p1.mpos⟩, h.ball⟩
    | exact ⟨h.left, h.cursor, h.right, ⟨h.p0.pos, h.p0.mpos⟩, ⟨h.p1.pos, h.p1.mpos⟩, h.ball⟩
    | exact ⟨h.left, h.cursor, h.right, ⟨hp, h.p0.mpos⟩, h.p1, h.ball⟩
    | exact ⟨h.left, h.cursor, h.right, h.p0, ⟨hp, h.p1.mpos⟩, h.ball⟩
    | exact ⟨h.left, h.cursor, h.right, ⟨h.p0.pos, hm⟩, h.p1, h.ball⟩
    | exact ⟨h.left, h.cursor, h.right, h.p0, ⟨h.p1.pos, hm⟩, h.ball⟩
    | exact ⟨h.left, h.cursor, h.right, h.p0, h.p1, hm⟩
    | exact ⟨h.left, h.cursor, h.right, h.p0.writeResmp v, h.p1, h.ball⟩
    | exact ⟨h.left, h.cursor, h.right, h.p0, h.p1.writeResmp v, h.ball⟩
    | exact ⟨h.left, h.cursor, h.right, .hmove, .hmove, moved_lt _ _⟩

/-- No register write moves the beam. -/
theorem Tia.write_h (i : Nat) (v : Byte) (t : Tia) : (t.write i v).h = t.h := by
  unfold Tia.write; split <;> rfl

/-- No register write but that of CXCLR changes a latch (R337). -/
theorem Tia.write_cx (i : Nat) (v : Byte) (t : Tia) (h : i ≠ 0x2C) : (t.write i v).cx = t.cx := by
  unfold Tia.write; split <;> first | rfl | exact absurd rfl h

/-! ### The audio channels -/

/-- The two channels tick with the same configuration; a tick keeps a channel's registers. -/
theorem Channel.tick_registers (cfg : Config) (c : Channel) :
    (c.tick cfg).audc = c.audc ∧ (c.tick cfg).audf = c.audf ∧ (c.tick cfg).audv = c.audv := by
  simp only [Channel.tick]; split <;> exact ⟨rfl, rfl, rfl⟩

theorem Channel.Ok.tick {cfg : Config} (hw : cfg.wf) {c : Channel} (h : c.Ok cfg) : (c.tick cfg).Ok cfg := by
  simp only [Channel.tick]
  split
  · exact Nat.mod_lt _ (hw.2 c.audc.toFin).1
  · exact h

theorem Channel.Ok.writeAudc {cfg : Config} (hw : cfg.wf) (c : Channel) (v : Byte) : (c.writeAudc cfg v).Ok cfg :=
  Nat.mod_lt _ (hw.2 (v.extractLsb' 0 4).toFin).1

theorem Audio.ticks_channels {cfg : Config} (hw : cfg.wf) (k : Nat) {au : Audio} (h0 : au.ch0.Ok cfg)
    (h1 : au.ch1.Ok cfg) : (au.ticks cfg k).ch0.Ok cfg ∧ (au.ticks cfg k).ch1.Ok cfg := by
  induction k generalizing au with
  | zero => exact ⟨h0, h1⟩
  | succ k ih => exact ih (h0.tick hw) (h1.tick hw)

/-- Time keeps the ranges of the audio variables. -/
theorem Audio.Ok.clock {cfg : Config} (hw : cfg.wf) (n : Nat) {au : Audio} (h : au.Ok cfg) :
    (au.clock cfg n).Ok cfg :=
  have t := Audio.ticks_channels hw ((au.residue + n) / cfg.audioTickPeriod) h.ch0 h.ch1
  { ch0 := t.1, ch1 := t.2, residue := Nat.mod_lt _ hw.1 }

/-- A register write keeps the ranges of the audio variables. -/
theorem Audio.Ok.write {cfg : Config} (hw : cfg.wf) (i : Nat) (v : Byte) {au : Audio} (h : au.Ok cfg) :
    (au.write cfg i v).Ok cfg := by
  unfold Audio.write
  split
  · exact ⟨.writeAudc hw _ v, h.ch1, h.residue⟩
  · exact ⟨h.ch0, .writeAudc hw _ v, h.residue⟩
  all_goals exact ⟨h.ch0, h.ch1, h.residue⟩

@[simp] theorem Audio.write_residue (cfg : Config) (i : Nat) (v : Byte) (au : Audio) :
    (au.write cfg i v).residue = au.residue := by
  unfold Audio.write; split <;> rfl

@[simp] theorem Audio.clock_residue (cfg : Config) (n : Nat) (au : Audio) :
    (au.clock cfg n).residue = (au.residue + n) % cfg.audioTickPeriod := rfl

theorem Audio.tick_programmed (cfg : Config) (au : Audio) : (au.tick cfg).programmed = au.programmed := by
  have h0 := au.ch0.tick_registers cfg
  have h1 := au.ch1.tick_registers cfg
  simp only [Audio.programmed, Audio.tick, Audio.mk.injEq, Channel.mk.injEq]
  simp [h0, h1]

theorem Audio.ticks_programmed (cfg : Config) (k : Nat) (au : Audio) :
    (au.ticks cfg k).programmed = au.programmed := by
  induction k generalizing au with
  | zero => rfl
  | succ k ih => rw [Audio.ticks, ih, Audio.tick_programmed]

/-- Time changes no audio register (R373, R374). -/
@[simp] theorem Audio.clock_programmed (cfg : Config) (n : Nat) (au : Audio) :
    (au.clock cfg n).programmed = au.programmed :=
  Audio.ticks_programmed cfg _ au

/-- One sample leaves for each tick (R373). -/
theorem Audio.ticks_samples (cfg : Config) (k : Nat) (au : Audio) :
    (au.ticks cfg k).samples.length = au.samples.length + k := by
  induction k generalizing au with
  | zero => rfl
  | succ k ih => rw [Audio.ticks, ih]; simp only [Audio.tick, List.length_cons]; omega

/-! ### The I/O chip -/

@[simp] theorem Riot.clock_programmed (n : Nat) (r : Riot) : (r.clock n).programmed = r.programmed := rfl
@[simp] theorem Riot.clock_residue (n : Nat) (r : Riot) : (r.clock n).residue = r.residue + n := rfl

@[simp] theorem Riot.catchUp_residue (r : Riot) : r.catchUp.residue = r.residue % 3 := by
  simp only [Riot.catchUp]; split <;> rfl

@[simp] theorem Riot.catchUp_programmed (r : Riot) : r.catchUp.programmed = r.programmed := by
  simp only [Riot.catchUp]; split <;> rfl

/-- The timer never rises above its value through a catch-up, except by the wrap to 8 bits (R277). -/
theorem Riot.Ok.catchUp {r : Riot} (h : r.Ok) : r.catchUp.Ok := by
  have h0 := h.nonneg
  have h1 := h.bound
  simp only [Riot.catchUp]
  split
  · exact ⟨by simp only; omega, by simp only; omega⟩
  · exact ⟨by simp only; omega, by simp only; omega⟩

@[simp] theorem Riot.samplePa7_timer (l : Bool) (r : Riot) : (r.samplePa7 l).timer = r.timer := rfl

/-- What a read leaves of the timer (R272, R273). -/
theorem Riot.read_timer (idx : BitVec 5) (inp : Lines) (r : Riot) :
    (r.read idx inp).2.timer = r.catchUp.timer ∧ (r.read idx inp).2.residue = r.residue % 3 ∧
      (r.read idx inp).2.programmed = r.programmed := by
  have hp := r.catchUp_programmed
  have hr := r.catchUp_residue
  unfold Riot.read
  simp only
  split
  · split <;> exact ⟨rfl, hr, hp⟩
  · split <;> exact ⟨rfl, hr, hp⟩

theorem Riot.Ok.read {r : Riot} (h : r.Ok) (idx : BitVec 5) (inp : Lines) : (r.read idx inp).2.Ok := by
  have e := (r.read_timer idx inp).1
  exact ⟨by rw [e]; exact h.catchUp.nonneg, by rw [e]; exact h.catchUp.bound⟩

theorem Prescale.bits_le (k : Prescale) : 2 ^ k.bits ≤ 1024 := by cases k <;> decide

theorem Riot.Ok.write {r : Riot} (h : r.Ok) (idx : BitVec 5) (v : Byte) : (r.write idx v).Ok := by
  have c := h.catchUp
  have hv := v.isLt
  have hk := (prescaleOf idx).bits_le
  have hm : v.toNat * 2 ^ (prescaleOf idx).bits ≤ 255 * 1024 := Nat.mul_le_mul (by omega) hk
  unfold Riot.write
  simp only
  split
  · split
    · exact ⟨Int.natCast_nonneg _, by simp only; exact_mod_cast hm⟩
    · exact c
  · split <;> exact ⟨c.nonneg, c.bound⟩

theorem Riot.write_residue (idx : BitVec 5) (v : Byte) (r : Riot) :
    (r.write idx v).residue = r.residue % 3 ∨ (r.write idx v).residue = 0 := by
  have hr := r.catchUp_residue
  unfold Riot.write
  simp only
  split
  · split
    · exact .inr rfl
    · exact .inl hr
  · split <;> exact .inl hr

/-! ### The cartridge -/

theorem StdSize.select_lt (sz : StdSize) (r : Bool) (a k : Nat) (h : k < sz.banks) : sz.select r a k < sz.banks := by
  have hb : 0 < sz.banks := by cases sz <;> decide
  unfold StdSize.select
  split
  · simp only; split <;> omega
  · exact h

/-- An access keeps the ranges of the mapper's variables and the canonical form of cartridge RAM. -/
theorem Mapper.wf_access (rom : Rom) (a : Nat) (v : Byte) {m : Mapper}
    (hs : (m.scheme = .s3F ∨ m.scheme = .s3E) → 0 < rom.slices) (h : m.wf rom.slices) :
    (m.access rom a v).2.wf rom.slices := by
  cases m with
  | fixed2K => trivial
  | fixed4K => trivial
  | parker _ _ _ => trivial
  | megaboy _ => trivial
  | std sz r k => exact sz.select_lt r a k h
  | superChip sz k cram =>
    have hk := sz.select_lt false a k h.1
    simp only [Mapper.access, accessSuperChip]
    split_ifs with h1 h2
    · simp only [Bool.and_eq_true, decide_eq_true_eq] at h1
      exact ⟨hk, Memory.wfIn_write h.2 h1.2 v⟩
    · exact ⟨hk, h.2⟩
    · exact ⟨hk, h.2⟩
  | tigervision k =>
    have h0 := hs (.inl rfl)
    simp only [Mapper.access, accessTigervision, Mapper.wf]
    split
    · exact Nat.mod_lt _ h0
    · exact h
  | tigervisionRam r k rb cram =>
    have h0 := hs (.inr rfl)
    have hb := rb.isLt
    simp only [Mapper.access, accessTigervisionRam]
    split_ifs
    · exact ⟨Nat.mod_lt _ h0, h.2⟩
    · exact h
    · exact h
    · exact h
    · exact h
    · exact h
    · exact ⟨h.1, Memory.wfIn_write h.2 (by omega) v⟩
  | activision k armed =>
    simp only [Mapper.access, accessActivision, Mapper.wf]
    split
    · split <;> decide
    · exact h
  | mNetwork low page r1 r2 =>
    simp only [Mapper.access, accessMNetwork]
    generalize (if 0x1FE0 ≤ a ∧ a ≤ 0x1FE7 then BitVec.ofNat 3 a else low) = l
    generalize (if 0x1FE8 ≤ a ∧ a ≤ 0x1FEB then BitVec.ofNat 2 a else page) = p
    have hp := p.isLt
    split_ifs
    · exact h
    · exact h
    · exact ⟨Memory.wfIn_write h.1 (by omega) v, h.2⟩
    · exact h
    · exact ⟨h.1, Memory.wfIn_write h.2 (by omega) v⟩
    · exact h
    · exact h
  | cbs k cram =>
    have hk : cbsSelect a k < 3 := by
      have := h.1
      unfold cbsSelect; split <;> omega
    simp only [Mapper.access, accessCbs]
    split_ifs with h1 h2
    · simp only [Bool.and_eq_true, decide_eq_true_eq] at h1
      exact ⟨hk, Memory.wfIn_write h.2 h1.2 v⟩
    · exact ⟨hk, h.2⟩
    · exact ⟨hk, h.2⟩
  | uaLimited k =>
    simp only [Mapper.access, accessUa, Mapper.wf]
    split
    · decide
    · split
      · decide
      · exact h
  | pitfall2 d =>
    have hk := StdSize.f8.select_lt false a d.bank h
    simp only [Mapper.access, accessPitfall2]
    split_ifs
    · exact hk
    · exact hk
    · simp only [Mapper.wf, Dpc.write]; split <;> exact hk
    · exact hk

/-- A Tigervision image has at least one slice (R407, R408). -/
theorem Cart.wf.slices_pos {c : Cart} (h : c.wf) (hs : c.mapper.scheme = .s3F ∨ c.mapper.scheme = .s3E) :
    0 < c.rom.slices := by
  have ha := h.1
  rcases hs with hs | hs <;> rw [hs] at ha <;>
    simp only [Scheme.accepts, Bool.and_eq_true, decide_eq_true_eq] at ha <;> exact ha.2.1

end Sys2Proof.Machine
end

