-- ==== Sys2Proof/Laws/Ports.lean ====
section
/-!
SUPPORT. The controller ports: a table of answers can be any function on the histories of a run, a controller that
lists no history does not remember one, and only `clock(n)` takes time.
-/

namespace Sys2Proof.Machine

/-- Whatever function of the history a controller is, some table agrees with it on any finite number of
histories, and a run of the machine makes finitely many (R286). -/
theorem Controller.answers_covers (f : List PortCall → Pins) (hs : List (List PortCall)) :
    ∃ c : Controller, ∀ h ∈ hs, c.answers h = f h := by
  refine ⟨{ held := f [], scripted := hs.map fun h => (h, f h) }, fun h hh => ?_⟩
  simp only [Controller.answers]
  induction hs with
  | nil => cases hh
  | cons k ks ih =>
    rw [List.map_cons, List.lookup_cons]
    split
    · rename_i e
      rw [eq_of_beq e, Option.getD_some]
    · rename_i e
      refine ih ((List.mem_cons.mp hh).resolve_left ?_)
      rintro rfl
      simp at e

/-- What a controller remembers is all it answers by. -/
@[simp] theorem Controller.answers_remembers (c : Controller) (h : List PortCall) :
    c.answers (c.remembers h) = c.answers h := by
  unfold Controller.remembers
  split
  · rename_i e
    simp only [Controller.answers, List.isEmpty_iff.mp e, List.lookup_nil]
  · rfl

/-- New calls on a remembered history. -/
@[simp] theorem Controller.remembers_append (c : Controller) (cs h : List PortCall) :
    c.remembers (cs ++ c.remembers h) = c.remembers (cs ++ h) := by
  unfold Controller.remembers; split <;> rfl

/-- The lines are among what a program can see. -/
@[simp] theorem Bus.lines_visible (b : Bus) : b.visible.lines = b.lines := by simp [Bus.visible, Bus.lines]

/-- What the controllers remember after more calls depends only on what they remembered. -/
theorem Bus.visible_portCalls_call (b : Bus) (cs : PortCalls) :
    (b.visible.call cs).visible.portCalls = (b.call cs).visible.portCalls := by
  simp [Bus.visible, Bus.call, PortCalls.after]

@[simp] theorem callTime_nil : callTime [] = 0 := rfl
@[simp] theorem callTime_cons (c : PortCall) (cs : List PortCall) : callTime (c :: cs) = c.time + callTime cs := rfl

theorem callTime_append (cs ds : List PortCall) : callTime (cs ++ ds) = callTime cs + callTime ds := by
  induction cs with
  | nil => simp
  | cons c cs ih => simp [ih, Nat.add_assoc]

/-- Calls that take no time on either port. -/
def PortCalls.Timeless (cs : PortCalls) : Prop := callTime cs.left = 0 ∧ callTime cs.right = 0

theorem PortCalls.Timeless.none : PortCalls.none.Timeless := ⟨rfl, rfl⟩

theorem inptCalls_timeless (i : Nat) : (inptCalls i).Timeless := by
  unfold inptCalls; split <;> exact ⟨rfl, rfl⟩

theorem riotReadCalls_timeless (k : BitVec 5) : (riotReadCalls k).Timeless := by
  unfold riotReadCalls; split <;> exact ⟨rfl, rfl⟩

theorem tiaWriteCalls_timeless (i : Nat) (v : Byte) : (tiaWriteCalls i v).Timeless := by
  unfold tiaWriteCalls; split <;> exact ⟨rfl, rfl⟩

theorem Riot.writeCalls_timeless (k : BitVec 5) (r : Riot) : (r.writeCalls k).Timeless := by
  unfold Riot.writeCalls; split <;> exact ⟨rfl, rfl⟩

theorem PortCalls.Timeless.after_left {cs : PortCalls} (h : cs.Timeless) (p : PortCalls) :
    callTime (cs.after p).left = callTime p.left := by
  simp [PortCalls.after, callTime_append, h.1]

theorem PortCalls.Timeless.after_right {cs : PortCalls} (h : cs.Timeless) (p : PortCalls) :
    callTime (cs.after p).right = callTime p.right := by
  simp [PortCalls.after, callTime_append, h.2]

/-- A read takes no time on the ports. -/
theorem Bus.peek_calls_timeless (b : Bus) (a : Word) :
    ∃ cs : PortCalls, cs.Timeless ∧ (b.peek a).2.portCalls = cs.after b.portCalls :=
  ⟨_, by split; exacts [inptCalls_timeless _, by split; exacts [riotReadCalls_timeless _, .none]],
    b.peek_portCalls a⟩

/-- A write takes no time on the ports. -/
theorem Bus.poke_calls_timeless (b : Bus) (a : Word) (v : Byte) :
    ∃ cs : PortCalls, cs.Timeless ∧ (b.poke a v).portCalls = cs.after b.portCalls :=
  ⟨_, by split; exacts [tiaWriteCalls_timeless _ _, by split; exacts [Riot.writeCalls_timeless _ _, .none]],
    b.poke_portCalls a v⟩

end Sys2Proof.Machine
end

