-- ==== Sys2Proof/Laws/Invariant.lean ====
section
/-!
SUPPORT. The three bus operations keep the ranges of everything on the bus, keep the clocks in lockstep, and
change no fixture of the machine.
-/

namespace Sys2Proof.Machine

/-- An access keeps a cartridge well formed. -/
theorem Cart.wf.access {c : Cart} (h : c.wf) (a : Nat) (v : Byte) : (c.access a v).2.wf :=
  ⟨by rw [Cart.access_scheme]; exact h.1, h.2.1, Mapper.wf_access c.rom a v h.slices_pos h.2.2⟩

theorem Bus.Ok.tick {b : Bus} (h : b.Ok) : b.tick.Ok :=
  { cfg := h.cfg
    ram := h.ram
    stall := by simp
    tia := h.tia.clock _
    audio := h.audio.clock h.cfg _
    riot := ⟨h.riot.nonneg, h.riot.bound⟩
    cart := h.cart }

theorem Bus.Ok.peek {b : Bus} (h : b.Ok) (a : Word) : (b.peek a).2.Ok :=
  { cfg := by rw [Bus.peek_cfg]; exact h.cfg
    ram := by rw [Bus.peek_ram]; exact h.ram
    stall := by rw [Bus.peek_wsyncExtra]; exact h.stall
    tia := by rw [Bus.peek_tia]; split; exacts [h.tia.catchUp, h.tia]
    audio := by rw [Bus.peek_audio, Bus.peek_cfg]; exact h.audio
    riot := by rw [Bus.peek_riot]; split; exacts [h.riot.read _ _, h.riot]
    cart := by rw [Bus.peek_cart]; exact h.cart.access _ _ }

theorem ramIndex_lt (a : Word) : ramIndex a < 128 := Nat.mod_lt _ (by decide)

theorem Bus.Ok.poke {b : Bus} (h : b.Ok) (a : Word) (v : Byte) : (b.poke a v).Ok :=
  { cfg := by rw [Bus.poke_cfg]; exact h.cfg
    ram := by rw [Bus.poke_ram]; split; exacts [Memory.wfIn_write h.ram (ramIndex_lt a) v, h.ram]
    stall := by
      rw [Bus.poke_wsyncExtra]
      split
      · rw [Tia.catchUp_wsyncClocks, Tia.wsyncClocks]; omega
      · exact h.stall
    tia := by rw [Bus.poke_tia]; split; exacts [h.tia.catchUp.write _ v, h.tia]
    audio := by rw [Bus.poke_audio, Bus.poke_cfg]; split; exacts [h.audio.write h.cfg _ v, h.audio]
    riot := by rw [Bus.poke_riot]; split; exacts [h.riot.write _ v, h.riot]
    cart := by rw [Bus.poke_cart]; exact h.cart.access _ _ }

theorem Bus.Lockstep.tick {b : Bus} (h : b.Lockstep) : b.tick.Lockstep := by
  have hb := h.beam
  have hc := h.cycle
  have hs := h.stall
  have hr := h.riot
  have he := h.elapsed
  constructor
  · rw [Bus.tick_tia, Tia.clock_h _ _ (by omega) (by omega)]
    simp only [Bus.tick_sysclk]
    omega
  · simp only [Bus.tick_sysclk]; omega
  · exact .inl rfl
  · simp only [Bus.tick_riot, Riot.clock_residue]; omega
  · simp only [Bus.tick_audio, Audio.clock_residue, Bus.tick_cfg, Bus.tick_sysclk, h.audio, Nat.mod_add_mod]
  · simp only [Bus.tick_sysclk, Bus.tick_cycles]; omega
  · simp only [Bus.tick_portCalls, PortCalls.after, PortCalls.both, List.cons_append, List.nil_append, callTime_cons,
      PortCall.time, h.left, Bus.tick_sysclk, Nat.add_comm]
  · simp only [Bus.tick_portCalls, PortCalls.after, PortCalls.both, List.cons_append, List.nil_append, callTime_cons,
      PortCall.time, h.right, Bus.tick_sysclk, Nat.add_comm]

theorem Bus.Lockstep.peek {b : Bus} (h : b.Lockstep) (a : Word) : (b.peek a).2.Lockstep := by
  have hr := h.riot
  obtain ⟨cs, hc, hp⟩ := b.peek_calls_timeless a
  constructor
  · rw [Bus.peek_tia, Bus.peek_sysclk]; split <;> exact h.beam
  · rw [Bus.peek_sysclk]; exact h.cycle
  · rw [Bus.peek_sysclk, Bus.peek_wsyncExtra]; exact h.stall
  · rw [Bus.peek_riot]; split
    · rw [(b.riot.read_timer _ _).2.1]; omega
    · exact hr
  · rw [Bus.peek_audio, Bus.peek_sysclk, Bus.peek_cfg]; exact h.audio
  · rw [Bus.peek_sysclk, Bus.peek_cycles]; exact h.elapsed
  · rw [hp, hc.after_left, Bus.peek_sysclk]; exact h.left
  · rw [hp, hc.after_right, Bus.peek_sysclk]; exact h.right

theorem Bus.Lockstep.poke {b : Bus} (h : b.Lockstep) (a : Word) (v : Byte) : (b.poke a v).Lockstep := by
  have hr := h.riot
  have hb := h.beam
  obtain ⟨cs, hc, hp⟩ := b.poke_calls_timeless a v
  constructor
  · rw [Bus.poke_tia, Bus.poke_sysclk]; split
    · rw [Tia.write_h]; exact hb
    · exact hb
  · rw [Bus.poke_sysclk]; exact h.cycle
  · rw [Bus.poke_sysclk, Bus.poke_wsyncExtra]; split
    · right
      rw [Tia.catchUp_wsyncClocks, Tia.wsyncClocks]
      omega
    · exact h.stall
  · rw [Bus.poke_riot]; split
    · rcases b.riot.write_residue (riotIndex a) v with e | e <;> rw [e] <;> omega
    · exact hr
  · rw [Bus.poke_audio, Bus.poke_sysclk, Bus.poke_cfg]; split
    · rw [Audio.write_residue]; exact h.audio
    · exact h.audio
  · rw [Bus.poke_sysclk, Bus.poke_cycles]; exact h.elapsed
  · rw [hp, hc.after_left, Bus.poke_sysclk]; exact h.left
  · rw [hp, hc.after_right, Bus.poke_sysclk]; exact h.right

theorem Bus.SameFixtures.refl (b : Bus) : b.SameFixtures b := ⟨rfl, rfl, rfl, rfl⟩

theorem Bus.SameFixtures.tick {b b' : Bus} (h : b.SameFixtures b') : b.SameFixtures b'.tick := h

theorem Bus.SameFixtures.peek {b b' : Bus} (h : b.SameFixtures b') (a : Word) : b.SameFixtures (b'.peek a).2 := by
  obtain ⟨h1, h2, h3, h4⟩ := h
  exact ⟨by rw [Bus.peek_cfg, h1], by rw [Bus.peek_inputs, h2], by rw [Bus.peek_rom, h3],
    by rw [Bus.peek_cart, Cart.access_scheme, h4]⟩

theorem Bus.SameFixtures.poke {b b' : Bus} (h : b.SameFixtures b') (a : Word) (v : Byte) :
    b.SameFixtures (b'.poke a v) := by
  obtain ⟨h1, h2, h3, h4⟩ := h
  exact ⟨by rw [Bus.poke_cfg, h1], by rw [Bus.poke_inputs, h2], by rw [Bus.poke_rom, h3],
    by rw [Bus.poke_cart, Cart.access_scheme, h4]⟩

theorem Bus.SameRegisters.refl (b : Bus) : b.SameRegisters b := ⟨rfl, rfl, rfl⟩

/-- Time changes no device register a program wrote. -/
theorem Bus.SameRegisters.tick {b b' : Bus} (h : b.SameRegisters b') : b.SameRegisters b'.tick := by
  obtain ⟨h1, h2, h3⟩ := h
  exact ⟨by rw [Bus.tick_tia, Tia.clock_programmed, h1], by rw [Bus.tick_audio, Audio.clock_programmed, h2],
    by rw [Bus.tick_riot, Riot.clock_programmed, h3]⟩

/-- A read changes no device register a program wrote. -/
theorem Bus.SameRegisters.peek {b b' : Bus} (h : b.SameRegisters b') (a : Word) : b.SameRegisters (b'.peek a).2 := by
  obtain ⟨h1, h2, h3⟩ := h
  refine ⟨?_, by rw [Bus.peek_audio, h2], ?_⟩
  · rw [Bus.peek_tia]; split
    · rw [Tia.catchUp_programmed, h1]
    · exact h1
  · rw [Bus.peek_riot]; split
    · rw [(b'.riot.read_timer _ _).2.2, h3]
    · exact h3

/-- A write outside the device chips changes none of their registers. -/
theorem Bus.SameRegisters.poke {b b' : Bus} (h : b.SameRegisters b') {a : Word} (ht : chipOf a ≠ .tia)
    (hr : chipOf a ≠ .riot) (v : Byte) : b.SameRegisters (b'.poke a v) := by
  obtain ⟨h1, h2, h3⟩ := h
  exact ⟨by rw [Bus.poke_tia, if_neg ht, h1], by rw [Bus.poke_audio, if_neg ht, h2],
    by rw [Bus.poke_riot, if_neg hr, h3]⟩

end Sys2Proof.Machine
end

