-- ==== Sys2Proof/Laws/State.lean ====
section
/-!
SUPPORT. What each update of the state does to its two halves, by definition.
-/

namespace Sys2Proof.Machine

variable (s : State) (b : Bus) (v : Byte) (w : Word) (p n z : Bool)

@[simp] theorem State.onBus_cpu (f : Bus → Bus) : (s.onBus f).cpu = s.cpu := rfl
@[simp] theorem State.onBus_bus (f : Bus → Bus) : (s.onBus f).bus = f s.bus := rfl

@[simp] theorem State.setA_cpu : (s.setA v).cpu = { s.cpu with a := v } := rfl
@[simp] theorem State.setA_bus : (s.setA v).bus = s.bus := rfl
@[simp] theorem State.setX_cpu : (s.setX v).cpu = { s.cpu with x := v } := rfl
@[simp] theorem State.setX_bus : (s.setX v).bus = s.bus := rfl
@[simp] theorem State.setY_cpu : (s.setY v).cpu = { s.cpu with y := v } := rfl
@[simp] theorem State.setY_bus : (s.setY v).bus = s.bus := rfl
@[simp] theorem State.setS_cpu : (s.setS v).cpu = { s.cpu with s := v } := rfl
@[simp] theorem State.setS_bus : (s.setS v).bus = s.bus := rfl
@[simp] theorem State.setPc_cpu : (s.setPc w).cpu = { s.cpu with pc := w } := rfl
@[simp] theorem State.setPc_bus : (s.setPc w).bus = s.bus := rfl
@[simp] theorem State.setC_cpu : (s.setC p).cpu = { s.cpu with c := p } := rfl
@[simp] theorem State.setC_bus : (s.setC p).bus = s.bus := rfl
@[simp] theorem State.setI_cpu : (s.setI p).cpu = { s.cpu with i := p } := rfl
@[simp] theorem State.setI_bus : (s.setI p).bus = s.bus := rfl
@[simp] theorem State.setD_cpu : (s.setD p).cpu = { s.cpu with d := p } := rfl
@[simp] theorem State.setD_bus : (s.setD p).bus = s.bus := rfl
@[simp] theorem State.setV_cpu : (s.setV p).cpu = { s.cpu with v := p } := rfl
@[simp] theorem State.setV_bus : (s.setV p).bus = s.bus := rfl
@[simp] theorem State.setNZFlags_cpu : (s.setNZFlags n z).cpu = { s.cpu with n := n, z := z } := rfl
@[simp] theorem State.setNZFlags_bus : (s.setNZFlags n z).bus = s.bus := rfl
@[simp] theorem State.setNZ_cpu : (s.setNZ v).cpu = { s.cpu with n := negFlag v, z := zeroFlag v } := rfl
@[simp] theorem State.setNZ_bus : (s.setNZ v).bus = s.bus := rfl
@[simp] theorem State.setAlu_cpu (r : AluResult) :
    (s.setAlu r).cpu = { s.cpu with a := r.value, n := r.n, v := r.v, z := r.z, c := r.c } := rfl
@[simp] theorem State.setAlu_bus (r : AluResult) : (s.setAlu r).bus = s.bus := rfl
@[simp] theorem State.unpackP_cpu :
    (s.unpackP v).cpu = { s.cpu with
      n := v.getLsbD 7, v := v.getLsbD 6, d := v.getLsbD 3, i := v.getLsbD 2, z := v.getLsbD 1,
      c := v.getLsbD 0 } := rfl
@[simp] theorem State.unpackP_bus : (s.unpackP v).bus = s.bus := rfl
@[simp] theorem State.compare_cpu (reg : Byte) :
    (s.compare reg v).cpu = { s.cpu with
      c := decide (v.toNat ≤ reg.toNat), n := negFlag (reg - v), z := zeroFlag (reg - v) } := rfl
@[simp] theorem State.compare_bus (reg : Byte) : (s.compare reg v).bus = s.bus := rfl
@[simp] theorem State.idle_cpu : s.idle.cpu = s.cpu := rfl
@[simp] theorem State.idle_bus : s.idle.bus = s.bus.tick := rfl
@[simp] theorem State.memRead_fst : (s.memRead w).1 = (s.bus.tick.peek w).1 := rfl
@[simp] theorem State.memRead_cpu : (s.memRead w).2.cpu = s.cpu := rfl
@[simp] theorem State.memRead_bus : (s.memRead w).2.bus = (s.bus.tick.peek w).2 := rfl
@[simp] theorem State.memWrite_cpu : (s.memWrite w v).cpu = s.cpu := rfl
@[simp] theorem State.memWrite_bus : (s.memWrite w v).bus = s.bus.tick.poke w v := rfl
@[simp] theorem State.fetch_fst : s.fetch.1 = (s.bus.tick.peek s.cpu.pc).1 := rfl
@[simp] theorem State.fetch_cpu : s.fetch.2.cpu = { s.cpu with pc := s.cpu.pc + 1 } := rfl
@[simp] theorem State.fetch_bus : s.fetch.2.bus = (s.bus.tick.peek s.cpu.pc).2 := rfl
@[simp] theorem State.push_cpu : (s.push v).cpu = { s.cpu with s := s.cpu.s - 1 } := rfl
@[simp] theorem State.push_bus : (s.push v).bus = s.bus.tick.poke (stackAddr s.cpu.s) v := rfl
@[simp] theorem State.pull_fst : s.pull.1 = (s.bus.tick.peek (stackAddr (s.cpu.s + 1))).1 := rfl
@[simp] theorem State.pull_cpu : s.pull.2.cpu = { s.cpu with s := s.cpu.s + 1 } := rfl
@[simp] theorem State.pull_bus : s.pull.2.bus = (s.bus.tick.peek (stackAddr (s.cpu.s + 1))).2 := rfl

@[simp] theorem State.setInputs_cpu (inp : Inputs) : (s.setInputs inp).cpu = s.cpu := rfl
@[simp] theorem State.setInputs_bus (inp : Inputs) : (s.setInputs inp).bus = { s.bus with inputs := inp } := rfl
@[simp] theorem State.reportTransition_cpu : s.reportTransition.cpu = s.cpu := rfl
@[simp] theorem State.reportTransition_bus :
    s.reportTransition.bus =
      { s.bus with
        riot := s.bus.riot.samplePa7 (s.bus.lines.left.peek.getLsbD 3)
        portCalls := { s.bus.portCalls with left := .peek :: s.bus.portCalls.left } } := rfl
@[simp] theorem State.drain_cpu : s.drain.cpu = s.cpu := rfl
@[simp] theorem State.withCode_pc (code : List Byte) : (s.withCode code).cpu.pc = 0xF000 := rfl
@[simp] theorem State.withCode_cart (code : List Byte) : (s.withCode code).bus.cart = Cart.ofCode code := rfl

/-- Two states are equal when their halves are. -/
theorem State.eq_of {s t : State} (hc : s.cpu = t.cpu) (hb : s.bus = t.bus) : s = t := by
  cases s; cases t; simp_all

end Sys2Proof.Machine
end

