-- ==== Sys2Proof/Laws/Operands.lean ====
section
/-!
SUPPORT. What the shared operations do to the processor: each moves the program counter past its operand bytes,
or moves the stack pointer, and leaves every other register and flag alone.
-/

namespace Sys2Proof.Machine

variable (s : State)

/-- Two advances of one are an advance of two. -/
theorem Word.add_one_one (w : Word) : w + 1#16 + 1#16 = w + 2#16 := by rw [BitVec.add_assoc]; rfl

@[simp] theorem State.index_fst (cls : AccessClass) (base : Word) (idx : Byte) :
    (s.index cls base idx).1 = base + zext16 idx := rfl

@[simp] theorem State.index_cpu (cls : AccessClass) (base : Word) (idx : Byte) :
    (s.index cls base idx).2.cpu = s.cpu := by
  simp only [State.index]; split <;> rfl

@[simp] theorem State.readWord_cpu (a a' : Word) : (s.readWord a a').2.cpu = s.cpu := rfl

@[simp] theorem State.zpPointer_cpu (q : Byte) : (s.zpPointer q).2.cpu = s.cpu := rfl

@[simp] theorem State.fetchWord_cpu : s.fetchWord.2.cpu = { s.cpu with pc := s.cpu.pc + 2 } := by
  simp [State.fetchWord, Word.add_one_one]

@[simp] theorem State.pushWord_cpu (w : Word) : (s.pushWord w).cpu = { s.cpu with s := s.cpu.s - 2 } := by
  simp only [State.pushWord, State.push_cpu]
  rw [BitVec.sub_sub]; rfl

@[simp] theorem State.pullWord_cpu : s.pullWord.2.cpu = { s.cpu with s := s.cpu.s + 2 } := by
  simp only [State.pullWord, State.pull_cpu]
  rw [BitVec.add_assoc]; rfl

/-- Forming an effective address moves the program counter past the operand bytes and does nothing else to the
processor (R105 to R110). -/
@[simp] theorem State.effAddr_cpu (m : Mem) (cls : AccessClass) :
    (s.effAddr m cls).2.cpu = { s.cpu with pc := s.cpu.pc + operandLength m.format } := by
  cases m <;> simp [State.effAddr, operandLength, Mem.format, Format.operandBytes]

/-- Reading a source operand moves the program counter past the operand bytes and does nothing else to the
processor (R104, R111). -/
@[simp] theorem State.readSrc_cpu (o : Src) :
    (s.readSrc o).2.cpu = { s.cpu with pc := s.cpu.pc + operandLength o.format } := by
  cases o <;> simp [State.readSrc, operandLength, Src.format, Format.operandBytes]

/-- Storing moves the program counter past the operand bytes and does nothing else to the processor (R111). -/
@[simp] theorem State.store_cpu (m : Mem) (v : Byte) :
    (s.store m v).cpu = { s.cpu with pc := s.cpu.pc + operandLength m.format } := by
  simp [State.store]

/-- A store is a timed write at the effective address (R111). -/
@[simp] theorem State.store_bus (m : Mem) (v : Byte) :
    (s.store m v).bus = (s.effAddr m .write).2.bus.tick.poke (s.effAddr m .write).1 v := rfl

@[simp] theorem State.rmwRead_addr (m : Mem) : (s.rmwRead m).1 = (s.effAddr m .rmw).1 := rfl

@[simp] theorem State.rmwRead_value (m : Mem) :
    (s.rmwRead m).2.1 = ((s.effAddr m .rmw).2.bus.tick.peek (s.effAddr m .rmw).1).1 := rfl

@[simp] theorem State.rmwRead_bus (m : Mem) :
    (s.rmwRead m).2.2.bus = ((s.effAddr m .rmw).2.bus.tick.peek (s.effAddr m .rmw).1).2.tick := rfl

/-- The read half of a read-modify-write moves the program counter past the operand bytes and does nothing else
to the processor (R111). -/
@[simp] theorem State.rmwRead_cpu (m : Mem) :
    (s.rmwRead m).2.2.cpu = { s.cpu with pc := s.cpu.pc + operandLength m.format } := by
  simp [State.rmwRead]

/-- A branch writes the program counter and nothing else of the processor (R196). -/
theorem State.branch_cpu (taken : Bool) :
    (s.branch taken).cpu =
      { s.cpu with pc := if taken then s.cpu.pc + 1 + sext16 s.fetch.1 else s.cpu.pc + 1 } := by
  cases taken
  · simp [State.branch]
  · simp only [State.branch, if_true]
    split <;> simp

/-- Going through a vector writes the program counter and nothing else of the processor (R195, R450). -/
theorem State.jumpVector_cpu (a : Word) :
    (s.jumpVector a).cpu = { s.cpu with pc := (s.readWord a (a + 1)).1 } := by
  simp [State.jumpVector]

end Sys2Proof.Machine
end

