-- ==== Sys2Proof/Laws/PerInstr.lean ====
section
/-!
SUPPORT. The family `OpcodeRow`: each instruction is a row of the opcode table exactly when it has an opcode
byte (spec/30_encoding.md R112, R113, R120), and is one to three bytes long (R100, R121).
-/

namespace Sys2Proof.Laws.OpcodeRow

/-- The instruction is a row of the table exactly when the encoder has an opcode byte for it, and its image is one
to three bytes long. -/
def Statement (i : Instr) : Prop :=
  (i.wellFormed = true ↔ (opcodeOf i).isSome = true) ∧ 1 ≤ i.length ∧ i.length ≤ 3

/-- No format has more than two operand bytes (R100, R102). -/
theorem operandBytes_le_two (f : Format) : f.operandBytes ≤ 2 := by cases f <;> decide

/-- The bounds on the length follow from the formats. -/
theorem of_iff {i : Instr} (h : i.wellFormed = true ↔ (opcodeOf i).isSome = true) : Statement i := by
  have := operandBytes_le_two i.format
  refine ⟨h, ?_, ?_⟩ <;> unfold Instr.length <;> omega

theorem adc (o : Src) : Statement (.adc o) := of_iff (by rcases o with _ | m <;> (try cases m) <;> decide)

theorem and (o : Src) : Statement (.and o) := of_iff (by rcases o with _ | m <;> (try cases m) <;> decide)

theorem asl (l : ShiftLoc) : Statement (.asl l) := of_iff (by rcases l with _ | m <;> (try cases m) <;> decide)

theorem bcc : Statement .bcc := of_iff (by decide)

theorem bcs : Statement .bcs := of_iff (by decide)

theorem beq : Statement .beq := of_iff (by decide)

theorem bit (m : Mem) : Statement (.bit m) := of_iff (by cases m <;> decide)

theorem bmi : Statement .bmi := of_iff (by decide)

theorem bne : Statement .bne := of_iff (by decide)

theorem bpl : Statement .bpl := of_iff (by decide)

theorem brk : Statement .brk := of_iff (by decide)

theorem bvc : Statement .bvc := of_iff (by decide)

theorem bvs : Statement .bvs := of_iff (by decide)

theorem clc : Statement .clc := of_iff (by decide)

theorem cld : Statement .cld := of_iff (by decide)

theorem cli : Statement .cli := of_iff (by decide)

theorem clv : Statement .clv := of_iff (by decide)

theorem cmp (o : Src) : Statement (.cmp o) := of_iff (by rcases o with _ | m <;> (try cases m) <;> decide)

theorem cpx (o : Src) : Statement (.cpx o) := of_iff (by rcases o with _ | m <;> (try cases m) <;> decide)

theorem cpy (o : Src) : Statement (.cpy o) := of_iff (by rcases o with _ | m <;> (try cases m) <;> decide)

theorem dec (m : Mem) : Statement (.dec m) := of_iff (by cases m <;> decide)

theorem dex : Statement .dex := of_iff (by decide)

theorem dey : Statement .dey := of_iff (by decide)

theorem eor (o : Src) : Statement (.eor o) := of_iff (by rcases o with _ | m <;> (try cases m) <;> decide)

theorem inc (m : Mem) : Statement (.inc m) := of_iff (by cases m <;> decide)

theorem inx : Statement .inx := of_iff (by decide)

theorem iny : Statement .iny := of_iff (by decide)

theorem jmp (t : JmpMode) : Statement (.jmp t) := of_iff (by cases t <;> decide)

theorem jsr : Statement .jsr := of_iff (by decide)

theorem lda (o : Src) : Statement (.lda o) := of_iff (by rcases o with _ | m <;> (try cases m) <;> decide)

theorem ldx (o : Src) : Statement (.ldx o) := of_iff (by rcases o with _ | m <;> (try cases m) <;> decide)

theorem ldy (o : Src) : Statement (.ldy o) := of_iff (by rcases o with _ | m <;> (try cases m) <;> decide)

theorem lsr (l : ShiftLoc) : Statement (.lsr l) := of_iff (by rcases l with _ | m <;> (try cases m) <;> decide)

theorem nop : Statement .nop := of_iff (by decide)

theorem ora (o : Src) : Statement (.ora o) := of_iff (by rcases o with _ | m <;> (try cases m) <;> decide)

theorem pha : Statement .pha := of_iff (by decide)

theorem php : Statement .php := of_iff (by decide)

theorem pla : Statement .pla := of_iff (by decide)

theorem plp : Statement .plp := of_iff (by decide)

theorem rol (l : ShiftLoc) : Statement (.rol l) := of_iff (by rcases l with _ | m <;> (try cases m) <;> decide)

theorem ror (l : ShiftLoc) : Statement (.ror l) := of_iff (by rcases l with _ | m <;> (try cases m) <;> decide)

theorem rti : Statement .rti := of_iff (by decide)

theorem rts : Statement .rts := of_iff (by decide)

theorem sbc (o : Src) : Statement (.sbc o) := of_iff (by rcases o with _ | m <;> (try cases m) <;> decide)

theorem sec : Statement .sec := of_iff (by decide)

theorem sed : Statement .sed := of_iff (by decide)

theorem sei : Statement .sei := of_iff (by decide)

theorem sta (m : Mem) : Statement (.sta m) := of_iff (by cases m <;> decide)

theorem stx (m : Mem) : Statement (.stx m) := of_iff (by cases m <;> decide)

theorem sty (m : Mem) : Statement (.sty m) := of_iff (by cases m <;> decide)

theorem tax : Statement .tax := of_iff (by decide)

theorem tay : Statement .tay := of_iff (by decide)

theorem tsx : Statement .tsx := of_iff (by decide)

theorem txa : Statement .txa := of_iff (by decide)

theorem txs : Statement .txs := of_iff (by decide)

theorem tya : Statement .tya := of_iff (by decide)

theorem unimpl (op : Byte) : Statement (.unimpl op) := of_iff (by
  simp only [Instr.wellFormed, opcodeOf]
  split <;> simp_all)

end Sys2Proof.Laws.OpcodeRow
end

