-- ==== Sys2Proof/Laws/Simulation.lean ====
section
/-!
SUPPORT. An instruction reaches the bus only through the passing of a cycle, a read and a write, so two states
that agree on the processor and whose buses are related by something those three operations respect stay so
related through every instruction.  An invariant of the bus, a frame and a property of two runs are all cases of
it.
-/

namespace Sys2Proof.Machine

/-- The three bus operations respect the relation `R`, with no write. -/
structure Bus.RespectsReads (R : Bus → Bus → Prop) : Prop where
  tick : ∀ {b b'}, R b b' → R b.tick b'.tick
  peek : ∀ {b b'} (a : Word), R b b' → (b.peek a).1 = (b'.peek a).1 ∧ R (b.peek a).2 (b'.peek a).2

/-- The three bus operations respect the relation `R`. -/
structure Bus.Respects (R : Bus → Bus → Prop) : Prop extends Bus.RespectsReads R where
  poke : ∀ {b b'} (a : Word) (v : Byte), R b b' → R (b.poke a v) (b'.poke a v)

/-- The states agree on the processor and their buses are related. -/
structure State.Sim (R : Bus → Bus → Prop) (s s' : State) : Prop where
  cpu : s.cpu = s'.cpu
  bus : R s.bus s'.bus

variable {R : Bus → Bus → Prop} {s s' : State}

/-- The same, for an operation that answers a value. -/
abbrev State.SimV {α : Type} (R : Bus → Bus → Prop) (r r' : α × State) : Prop := r.1 = r'.1 ∧ State.Sim R r.2 r'.2

theorem State.Sim.idle (hR : Bus.RespectsReads R) (h : State.Sim R s s') : State.Sim R s.idle s'.idle :=
  ⟨h.cpu, hR.tick h.bus⟩

theorem State.Sim.memRead (hR : Bus.RespectsReads R) (h : State.Sim R s s') (a : Word) :
    State.SimV R (s.memRead a) (s'.memRead a) :=
  have p := hR.peek a (hR.tick h.bus)
  ⟨p.1, h.cpu, p.2⟩

theorem State.Sim.memWrite (hR : Bus.Respects R) (h : State.Sim R s s') (a : Word) (v : Byte) :
    State.Sim R (s.memWrite a v) (s'.memWrite a v) :=
  ⟨h.cpu, hR.poke a v (hR.tick h.bus)⟩

/-- A change of the processor that looks at the processor alone. -/
theorem State.Sim.onCpu {t t' : State} (h : State.Sim R s s') (hb : t.bus = s.bus) (hb' : t'.bus = s'.bus)
    (hc : t.cpu = t'.cpu) : State.Sim R t t' :=
  ⟨hc, by rw [hb, hb']; exact h.bus⟩

theorem State.Sim.fetch (hR : Bus.RespectsReads R) (h : State.Sim R s s') : State.SimV R s.fetch s'.fetch := by
  have p := h.memRead hR s.cpu.pc
  rw [show s'.memRead s.cpu.pc = s'.memRead s'.cpu.pc by rw [h.cpu]] at p
  exact ⟨p.1, p.2.onCpu rfl rfl (by simp [h.cpu])⟩

theorem State.Sim.push (hR : Bus.Respects R) (h : State.Sim R s s') (v : Byte) :
    State.Sim R (s.push v) (s'.push v) := by
  have p := h.memWrite hR (stackAddr s.cpu.s) v
  rw [show s'.memWrite (stackAddr s.cpu.s) v = s'.memWrite (stackAddr s'.cpu.s) v by rw [h.cpu]] at p
  exact p.onCpu rfl rfl (by simp [h.cpu])

theorem State.Sim.pull (hR : Bus.RespectsReads R) (h : State.Sim R s s') : State.SimV R s.pull s'.pull := by
  have h' : State.Sim R (s.setS (s.cpu.s + 1)) (s'.setS (s'.cpu.s + 1)) := h.onCpu rfl rfl (by simp [h.cpu])
  have p := h'.memRead hR (stackAddr (s.cpu.s + 1))
  unfold State.pull
  simp only [State.setS_cpu]
  rwa [show s'.cpu.s = s.cpu.s by rw [h.cpu]] at p ⊢

theorem State.Sim.pushWord (hR : Bus.Respects R) (h : State.Sim R s s') (w : Word) :
    State.Sim R (s.pushWord w) (s'.pushWord w) := (h.push hR _).push hR _

theorem State.Sim.pullWord (hR : Bus.RespectsReads R) (h : State.Sim R s s') :
    State.SimV R s.pullWord s'.pullWord := by
  have p := h.pull hR
  have q := p.2.pull hR
  exact ⟨by simp only [State.pullWord, p.1, q.1], q.2⟩

theorem State.Sim.readWord (hR : Bus.RespectsReads R) (h : State.Sim R s s') (a a' : Word) :
    State.SimV R (s.readWord a a') (s'.readWord a a') := by
  have p := h.memRead hR a
  have q := p.2.memRead hR a'
  exact ⟨by simp only [State.readWord, p.1, q.1], q.2⟩

theorem State.Sim.fetchWord (hR : Bus.RespectsReads R) (h : State.Sim R s s') :
    State.SimV R s.fetchWord s'.fetchWord := by
  have p := h.fetch hR
  have q := p.2.fetch hR
  exact ⟨by simp only [State.fetchWord, p.1, q.1], q.2⟩

theorem State.Sim.jumpVector (hR : Bus.RespectsReads R) (h : State.Sim R s s') (a : Word) :
    State.Sim R (s.jumpVector a) (s'.jumpVector a) := by
  have p := h.readWord hR a (a + 1)
  refine p.2.onCpu rfl rfl ?_
  rw [State.jumpVector_cpu, State.jumpVector_cpu, h.cpu, p.1]

theorem State.Sim.index (hR : Bus.RespectsReads R) (h : State.Sim R s s') (cls : AccessClass) (base : Word)
    (idx : Byte) : State.SimV R (s.index cls base idx) (s'.index cls base idx) := by
  refine ⟨rfl, ?_⟩
  simp only [State.index]
  split
  · exact h
  · exact h.idle hR

theorem State.Sim.effAddr (hR : Bus.RespectsReads R) (h : State.Sim R s s') (m : Mem) (cls : AccessClass) :
    State.SimV R (s.effAddr m cls) (s'.effAddr m cls) := by
  have f := h.fetch hR
  have w := h.fetchWord hR
  cases m <;> simp only [State.effAddr]
  · exact ⟨by rw [f.1], f.2⟩
  · exact ⟨by rw [f.1, f.2.cpu], f.2.idle hR⟩
  · exact ⟨by rw [f.1, f.2.cpu], f.2.idle hR⟩
  · exact w
  · rw [w.1, w.2.cpu]; exact w.2.index hR cls _ _
  · rw [w.1, w.2.cpu]; exact w.2.index hR cls _ _
  · rw [f.1, f.2.cpu]; exact (f.2.idle hR).readWord hR _ _
  · have z := f.2.readWord hR (zext16 s.fetch.1) (zext16 (s.fetch.1 + 1))
    simp only [State.zpPointer]
    rw [← f.1, z.1, z.2.cpu]
    exact z.2.index hR cls _ _

theorem State.Sim.readSrc (hR : Bus.RespectsReads R) (h : State.Sim R s s') (o : Src) :
    State.SimV R (s.readSrc o) (s'.readSrc o) := by
  cases o with
  | imm => exact h.fetch hR
  | mem m =>
    have e := h.effAddr hR m .read
    simp only [State.readSrc]
    rw [e.1]
    exact e.2.memRead hR _

theorem State.Sim.store (hR : Bus.Respects R) (h : State.Sim R s s') (m : Mem) (v : Byte) :
    State.Sim R (s.store m v) (s'.store m v) := by
  have e := h.effAddr hR.toRespectsReads m .write
  simp only [State.store]
  rw [e.1]
  exact e.2.memWrite hR _ _

theorem State.Sim.rmwRead (hR : Bus.RespectsReads R) (h : State.Sim R s s') (m : Mem) :
    (s.rmwRead m).1 = (s'.rmwRead m).1 ∧ (s.rmwRead m).2.1 = (s'.rmwRead m).2.1 ∧
      State.Sim R (s.rmwRead m).2.2 (s'.rmwRead m).2.2 := by
  have e := h.effAddr hR m .rmw
  have v := e.2.memRead hR (s.effAddr m .rmw).1
  refine ⟨e.1, ?_, ?_⟩
  · simp only [State.rmwRead]; rw [← e.1]; exact v.1
  · simp only [State.rmwRead]; rw [← e.1]; exact v.2.idle hR

theorem State.Sim.branch (hR : Bus.RespectsReads R) (h : State.Sim R s s') (taken : Bool) :
    State.Sim R (s.branch taken) (s'.branch taken) := by
  have f := h.fetch hR
  cases taken
  · exact f.2
  · have i := f.2.idle hR
    have i' := i.idle hR
    simp only [State.branch, if_true]
    rw [i.cpu, f.1]
    split
    · exact i.onCpu rfl rfl (by simp [h.cpu])
    · exact i'.onCpu rfl rfl (by simp [h.cpu])

/-- The outcomes are next states that agree on the processor and whose buses are related. -/
def Outcomes.Sim (R : Bus → Bus → Prop) (o o' : Host.Outcome State Fault Refusal) : Prop :=
  ∃ t t', o = .next t ∧ o' = .next t' ∧ State.Sim R t t'

theorem State.Sim.next (h : State.Sim R s s') : Outcomes.Sim R (.next s) (.next s') := ⟨s, s', rfl, rfl, h⟩

/-- An instruction that ends by changing the processor from states that are related. -/
theorem State.Sim.nextCpu {o o' : Host.Outcome State Fault Refusal} {t t' : State} (h : State.Sim R s s')
    (ho : o = .next t) (ho' : o' = .next t') (hb : t.bus = s.bus) (hb' : t'.bus = s'.bus) (hc : t.cpu = t'.cpu) :
    Outcomes.Sim R o o' :=
  ⟨t, t', ho, ho', h.onCpu hb hb' hc⟩

/-- The accumulator and memory forms of a shift. -/
theorem State.Sim.shift (hR : Bus.Respects R) (h : State.Sim R s s') (f : Byte → Bool → Byte × Bool)
    (l : ShiftLoc) : State.Sim R (s.shift f l) (s'.shift f l) := by
  cases l with
  | acc =>
    have i := h.idle hR.toRespectsReads
    exact i.onCpu rfl rfl (by simp [State.shift, h.cpu])
  | mem m =>
    have r := h.rmwRead hR.toRespectsReads m
    have w := r.2.2.memWrite hR (s.rmwRead m).1 (f (s.rmwRead m).2.1 (s.rmwRead m).2.2.cpu.c).1
    simp only [State.shift]
    rw [← r.1, ← r.2.1, ← r.2.2.cpu]
    exact w.onCpu rfl rfl (by simp [h.cpu])

/-- Every instruction keeps the relation, if the three bus operations respect it; an instruction that stores
nothing and pushes nothing needs no more than the reads. -/
theorem exec_sim_reads (hR : Bus.RespectsReads R) (i : Instr) (hd : i.destination = none) (hp : i.pushes = 0)
    (h : State.Sim R s s') : Outcomes.Sim R (exec i s) (exec i s') := by
  have idle := h.idle hR
  have idle2 := idle.idle hR
  have pull := idle2.pull hR
  cases i
  case sta m => simp [Instr.destination] at hd
  case stx m => simp [Instr.destination] at hd
  case sty m => simp [Instr.destination] at hd
  case inc m => simp [Instr.destination] at hd
  case dec m => simp [Instr.destination] at hd
  case pha => simp [Instr.pushes] at hp
  case php => simp [Instr.pushes] at hp
  case jsr => simp [Instr.pushes] at hp
  case brk => simp [Instr.pushes] at hp
  case asl l | lsr l | rol l | ror l =>
    cases l with
    | acc => exact idle.nextCpu rfl rfl rfl rfl (by simp [State.shift, h.cpu])
    | mem m => simp [Instr.destination] at hd
  case adc o | sbc o | and o | ora o | eor o | lda o | ldx o | ldy o | cmp o | cpx o | cpy o =>
    have r := h.readSrc hR o
    exact r.2.nextCpu rfl rfl rfl rfl (by simp [h.cpu, r.1])
  case bit m =>
    have r := h.readSrc hR (.mem m)
    exact r.2.nextCpu rfl rfl rfl rfl (by simp [h.cpu, r.1])
  case bcc | bcs | beq | bne | bmi | bpl | bvc | bvs =>
    have b := fun c => (h.branch hR c).next
    simp only [exec, execBcc, execBcs, execBeq, execBne, execBmi, execBpl, execBvc, execBvs]
    rw [← h.cpu]
    exact b _
  case jmp t =>
    have w := h.fetchWord hR
    cases t with
    | abs => exact w.2.nextCpu rfl rfl rfl rfl (by simp [h.cpu, w.1])
    | ind =>
      have r := w.2.readWord hR s.fetchWord.1 (wordOf (page s.fetchWord.1) (lowByte s.fetchWord.1 + 1))
      simp only [exec, execJmp]
      rw [← w.1]
      exact r.2.nextCpu rfl rfl rfl rfl (by rw [State.setPc_cpu, State.setPc_cpu, r.1, r.2.cpu])
  case rts =>
    have p := idle2.pullWord hR
    exact (p.2.idle hR).nextCpu rfl rfl rfl rfl (by simp [h.cpu, p.1])
  case rti =>
    have u : State.Sim R (s.idle.idle.pull.2.unpackP s.idle.idle.pull.1)
        (s'.idle.idle.pull.2.unpackP s'.idle.idle.pull.1) := pull.2.onCpu rfl rfl (by
          rw [State.unpackP_cpu, State.unpackP_cpu, pull.1, pull.2.cpu])
    have p := u.pullWord hR
    refine (p.2.onCpu (t := s.idle.idle.returnFromTrap) (t' := s'.idle.idle.returnFromTrap) rfl rfl ?_).next
    simp only [State.returnFromTrap, State.setPc_cpu]
    rw [p.1, p.2.cpu]
  case pla =>
    exact pull.2.nextCpu rfl rfl rfl rfl (by
      rw [State.setNZ_cpu, State.setNZ_cpu, State.setA_cpu, State.setA_cpu, pull.1, pull.2.cpu])
  case plp =>
    exact pull.2.nextCpu rfl rfl rfl rfl (by rw [State.unpackP_cpu, State.unpackP_cpu, pull.1, pull.2.cpu])
  case nop => exact idle.next
  case unimpl op => exact h.next
  all_goals exact idle.nextCpu rfl rfl rfl rfl (by simp [h.cpu])

/-- Every instruction keeps the relation, if the three bus operations respect it. -/
theorem exec_sim (hR : Bus.Respects R) (i : Instr) (h : State.Sim R s s') :
    Outcomes.Sim R (exec i s) (exec i s') := by
  have hr := hR.toRespectsReads
  by_cases hd : i.destination = none ∧ i.pushes = 0
  · exact exec_sim_reads hr i hd.1 hd.2 h
  have idle := h.idle hr
  cases i
  case asl l => exact (h.shift hR _ l).next
  case lsr l => exact (h.shift hR _ l).next
  case rol l => exact (h.shift hR _ l).next
  case ror l => exact (h.shift hR _ l).next
  case sta m => simp only [exec, execSta]; rw [← h.cpu]; exact (h.store hR m _).next
  case stx m => simp only [exec, execStx]; rw [← h.cpu]; exact (h.store hR m _).next
  case sty m => simp only [exec, execSty]; rw [← h.cpu]; exact (h.store hR m _).next
  case inc m =>
    have r := h.rmwRead hr m
    have w := r.2.2.memWrite hR (s.rmwRead m).1 ((s.rmwRead m).2.1 + 1)
    simp only [exec, execInc]
    rw [← r.1, ← r.2.1]
    exact w.nextCpu rfl rfl rfl rfl (by simp [h.cpu])
  case dec m =>
    have r := h.rmwRead hr m
    have w := r.2.2.memWrite hR (s.rmwRead m).1 ((s.rmwRead m).2.1 - 1)
    simp only [exec, execDec]
    rw [← r.1, ← r.2.1]
    exact w.nextCpu rfl rfl rfl rfl (by simp [h.cpu])
  case pha => simp only [exec, execPha]; rw [← h.cpu]; exact (idle.push hR _).next
  case php => simp only [exec, execPhp]; rw [← h.cpu]; exact (idle.push hR _).next
  case jsr =>
    have f := h.fetch hr
    have i := f.2.idle hr
    have p := i.pushWord hR s.fetch.2.idle.cpu.pc
    have m := p.memRead hr ((s.fetch.2.idle.pushWord s.fetch.2.idle.cpu.pc).cpu.pc)
    simp only [exec, execJsr]
    rw [← f.1, ← i.cpu, ← p.cpu]
    exact m.2.nextCpu rfl rfl rfl rfl (by rw [State.setPc_cpu, State.setPc_cpu, m.1, m.2.cpu])
  case brk =>
    have j : State.Sim R (s.idle.setPc (s.idle.cpu.pc + 1)) (s'.idle.setPc (s'.idle.cpu.pc + 1)) :=
      idle.onCpu rfl rfl (by simp [h.cpu])
    have p := j.pushWord hR (s.idle.setPc (s.idle.cpu.pc + 1)).cpu.pc
    have q := p.push hR
      (((s.idle.setPc (s.idle.cpu.pc + 1)).pushWord (s.idle.setPc (s.idle.cpu.pc + 1)).cpu.pc).cpu.packP true)
    have e : (s'.idle.setPc (s'.idle.cpu.pc + 1)).cpu.pc = (s.idle.setPc (s.idle.cpu.pc + 1)).cpu.pc := by
      rw [j.cpu]
    refine (State.Sim.jumpVector hr (s := State.setI true _) (s' := State.setI true _) ?_ 0xFFFE).next
    refine q.onCpu rfl ?_ ?_
    · simp only [State.setI_bus]; rw [e, ← p.cpu]
    · simp only [State.setI_cpu]; rw [e, ← p.cpu, q.cpu]
  all_goals exact absurd ⟨rfl, rfl⟩ hd

/-- A property of the bus kept by the passing of a cycle and by a read is kept by forming an effective address. -/
theorem State.effAddr_bus_invariant {P : Bus → Prop} (tick : ∀ b, P b → P b.tick)
    (peek : ∀ b a, P b → P (b.peek a).2) (m : Mem) (cls : AccessClass) (h : P s.bus) :
    P (s.effAddr m cls).2.bus := by
  have hR : Bus.RespectsReads fun b b' => b = b' ∧ P b :=
    { tick := fun h => ⟨by rw [h.1], tick _ h.2⟩
      peek := fun a h => ⟨by rw [h.1], by rw [h.1], peek _ a h.2⟩ }
  exact ((⟨rfl, rfl, h⟩ : State.Sim _ s s).effAddr hR m cls).2.bus.2

/-- A property of the bus kept by the passing of a cycle and by a read is kept by reading a source operand. -/
theorem State.readSrc_bus_invariant {P : Bus → Prop} (tick : ∀ b, P b → P b.tick)
    (peek : ∀ b a, P b → P (b.peek a).2) (o : Src) (h : P s.bus) : P (s.readSrc o).2.bus := by
  have hR : Bus.RespectsReads fun b b' => b = b' ∧ P b :=
    { tick := fun h => ⟨by rw [h.1], tick _ h.2⟩
      peek := fun a h => ⟨by rw [h.1], by rw [h.1], peek _ a h.2⟩ }
  exact ((⟨rfl, rfl, h⟩ : State.Sim _ s s).readSrc hR o).2.bus.2

/-- Every step keeps the relation, if the three bus operations respect it. -/
theorem step_sim (hR : Bus.Respects R) (h : State.Sim R s s') : Outcomes.Sim R (step s) (step s') := by
  have f := h.fetch hR.toRespectsReads
  simp only [step]
  rw [← f.1]
  exact exec_sim hR _ f.2

/-- A property of the bus kept by the passing of a cycle, by a read and by a write is kept by every
instruction. -/
theorem exec_bus_invariant {P : Bus → Prop} (tick : ∀ b, P b → P b.tick) (peek : ∀ b a, P b → P (b.peek a).2)
    (poke : ∀ b a v, P b → P (b.poke a v)) {i : Instr} {t : State} (h : P s.bus) (e : exec i s = .next t) :
    P t.bus := by
  have hR : Bus.Respects fun b b' => b = b' ∧ P b :=
    { tick := fun h => ⟨by rw [h.1], tick _ h.2⟩
      peek := fun a h => ⟨by rw [h.1], by rw [h.1], peek _ a h.2⟩
      poke := fun a v h => ⟨by rw [h.1], poke _ a v h.2⟩ }
  obtain ⟨u, u', hu, -, hs⟩ := exec_sim hR i (⟨rfl, rfl, h⟩ : State.Sim _ s s)
  rw [e] at hu
  cases hu
  exact hs.bus.2

/-- A property of the bus kept by the passing of a cycle and by a read is kept by every instruction that stores
nothing and pushes nothing. -/
theorem exec_bus_invariant_reads {P : Bus → Prop} (tick : ∀ b, P b → P b.tick)
    (peek : ∀ b a, P b → P (b.peek a).2) {i : Instr} {t : State} (hd : i.destination = none)
    (hp : i.pushes = 0) (h : P s.bus) (e : exec i s = .next t) : P t.bus := by
  have hR : Bus.RespectsReads fun b b' => b = b' ∧ P b :=
    { tick := fun h => ⟨by rw [h.1], tick _ h.2⟩
      peek := fun a h => ⟨by rw [h.1], by rw [h.1], peek _ a h.2⟩ }
  obtain ⟨u, u', hu, -, hs⟩ := exec_sim_reads hR i hd hp (⟨rfl, rfl, h⟩ : State.Sim _ s s)
  rw [e] at hu
  cases hu
  exact hs.bus.2

/-- A property of the bus kept by the passing of a cycle, by a read and by a write is kept by every step. -/
theorem step_bus_invariant {P : Bus → Prop} (tick : ∀ b, P b → P b.tick) (peek : ∀ b a, P b → P (b.peek a).2)
    (poke : ∀ b a v, P b → P (b.poke a v)) {t : State} (h : P s.bus) (e : step s = .next t) : P t.bus :=
  exec_bus_invariant tick peek poke (s := s.fetch.2) (peek _ _ (tick _ h)) e

end Sys2Proof.Machine
end

