-- ==== Sys2Proof/Laws/Words.lean ====
section
/-!
SUPPORT. A 16-bit address and its two bytes (spec/00_scope.md R7).
-/

namespace Sys2Proof.Machine

/-- The high byte of an address made of two bytes. -/
@[simp] theorem page_wordOf (h l : Byte) : page (wordOf h l) = h := by
  simp only [page, wordOf]
  apply BitVec.eq_of_getLsbD_eq
  intro i hi
  simp only [BitVec.getLsbD_extractLsb']
  rw [BitVec.getLsbD_append]
  simp [hi]

/-- The low byte of an address made of two bytes. -/
@[simp] theorem lowByte_wordOf (h l : Byte) : lowByte (wordOf h l) = l := by
  simp only [lowByte, wordOf]
  apply BitVec.eq_of_getLsbD_eq
  intro i hi
  simp only [BitVec.getLsbD_extractLsb']
  rw [BitVec.getLsbD_append]
  simp [hi]

/-- An address put together from its two bytes. -/
@[simp] theorem wordOf_page_lowByte (w : Word) : wordOf (page w) (lowByte w) = w := by
  simp only [page, lowByte, wordOf]
  apply BitVec.eq_of_getLsbD_eq
  intro i hi
  rw [BitVec.getLsbD_append]
  simp only [BitVec.getLsbD_extractLsb']
  split
  · simp [*]
  · rename_i hge
    have h1 : i - 8 < 8 := by omega
    have h2 : 8 + (i - 8) = i := by omega
    simp only [h1, decide_true, Bool.true_and, h2]

end Sys2Proof.Machine
end

