-- ==== Sys2Proof/Tests/Slice0.lean ====
section
/-!
SUPPORT. The author's own tests.  Expected values are those of spec/95_test_vectors.md (the vector's id stands in
each comment), of the matrix of spec/30_encoding.md R113, of the waveform table of spec/63_tia_audio.md R377, or
worked out by hand from the rule named.  The last part shows, for every obligation with hypotheses, operands and
states that meet them.
-/

namespace Sys2Proof.Tests

open Sys2Proof Sys2Proof.Machine

-- One theorem at a time: the many small kernel evaluations below would otherwise each hold a thread.
set_option Elab.async false

/-! ### Well-formedness refuses -/

/-- One ill-formed term for each check of WellFormed.lean (R113: the mnemonic has no such form; R120: the byte is
in the table). -/
theorem test_ill_formed :
    ([.adc (.mem .zpy), .and (.mem .zpy), .cmp (.mem .zpy), .eor (.mem .zpy), .lda (.mem .zpy), .ora (.mem .zpy),
      .sbc (.mem .zpy), .asl (.mem .aby), .lsr (.mem .zpy), .rol (.mem .izx), .ror (.mem .izy), .bit .zpx,
      .cpx (.mem .zpx), .cpy (.mem .abx), .dec .aby, .inc .zpy, .ldx (.mem .zpx), .ldy (.mem .aby), .sta .zpy,
      .stx .zpx, .sty .zpy, .unimpl 0xEA] : List Instr).map Instr.wellFormed = List.replicate 22 false := by
  decide

/-- The encoder has no word for an ill-formed term. -/
theorem test_ill_formed_has_no_word : encode (.stx .zpx) [0x10] = none ∧ encode (.unimpl 0xEA) [] = none := by decide

/-! ### Words written out from R113 -/

/-- Loads, stores, transfers: `aaabbbcc` patterns and the implied ones. -/
theorem test_words_load_store_transfer :
    ([0b10101001, 0b10100010, 0b10100000, 0b10000101, 0b10000110, 0b10000100, 0b10101010, 0b10101000, 0b10001010,
      0b10011000, 0b10111010, 0b10011010] : List Byte).map decodeOpcode =
      [.lda .imm, .ldx .imm, .ldy .imm, .sta .zp, .stx .zp, .sty .zp, .tax, .tay, .txa, .tya, .tsx, .txs] := by
  decide

/-- Arithmetic, comparisons, increments. -/
theorem test_words_arithmetic :
    ([0b01101101, 0b11101101, 0b11011001, 0b11100000, 0b11000000, 0b11111110, 0b11000110, 0b11101000, 0b11001000,
      0b11001010, 0b10001000] : List Byte).map decodeOpcode =
      [.adc (.mem .abs), .sbc (.mem .abs), .cmp (.mem .aby), .cpx .imm, .cpy .imm, .inc .abx, .dec .zp, .inx, .iny,
        .dex, .dey] := by
  decide

/-- Logic, bit test, shifts. -/
theorem test_words_logic :
    ([0b00100001, 0b00010001, 0b01011101, 0b00101100, 0b00001010, 0b01000110, 0b00110110, 0b01111110] :
      List Byte).map decodeOpcode =
      [.and (.mem .izx), .ora (.mem .izy), .eor (.mem .abx), .bit .abs, .asl .acc, .lsr (.mem .zp),
        .rol (.mem .zpx), .ror (.mem .abx)] := by
  decide

/-- Jumps, calls, branches. -/
theorem test_words_control :
    ([0b01001100, 0b01101100, 0b00100000, 0b01100000, 0b01000000, 0b00000000, 0b10010000, 0b10110000, 0b11110000,
      0b11010000, 0b00110000, 0b00010000, 0b01010000, 0b01110000] : List Byte).map decodeOpcode =
      [.jmp .abs, .jmp .ind, .jsr, .rts, .rti, .brk, .bcc, .bcs, .beq, .bne, .bmi, .bpl, .bvc, .bvs] := by
  decide

/-- Stack, flags, no operation, an unimplemented opcode. -/
theorem test_words_stack_flags :
    ([0b01001000, 0b00001000, 0b01101000, 0b00101000, 0b00011000, 0b00111000, 0b01011000, 0b01111000, 0b11011000,
      0b11111000, 0b10111000, 0b11101010, 0b00000010] : List Byte).map decodeOpcode =
      [.pha, .php, .pla, .plp, .clc, .sec, .cli, .sei, .cld, .sed, .clv, .nop, .unimpl 0x02] := by
  decide

/-- A table word: bit 0 is the least significant bit of the first byte, later bytes count on. -/
theorem test_table_word :
    decodeTableWord 24 0xF2344C = some (.jmp .abs) ∧ decodeTableWord 8 0x4C = some (.jmp .abs) ∧
      decodeTableWord 8 0xFF = some (.unimpl 0xFF) := by
  decide

/-- Decoding rejects by name what is too short. -/
theorem test_decode_short : decode [0x4C, 0x34] = .error (.operandsMissing (.jmp .abs)) ∧ decode [] = .error .noBytes := by decide

/-! ### One step each -/

/-- A `4K` machine with the given code at `pc`, as the conventions of spec/95_test_vectors.md section 0 have it:
`A = X = Y = 0`, `S = FF`, flags clear but `I`. -/
def machineAt (pc : Word) (code : List Byte) : State :=
  { cpu := { State.reset.cpu with s := 0xFF, pc := pc }
    bus :=
      { State.reset.bus with
        cart := { rom := { size := 4096, bytes := Memory.ofBytes code (pc.toNat % 4096) }, mapper := .fixed4K } } }

/-- The same at `0x1000`. -/
def machine (code : List Byte) : State := machineAt 0x1000 code

/-- The machine with a byte of RAM set; `a` is the zero-page address. -/
def put (a : Nat) (v : Byte) (s : State) : State :=
  { s with bus := { s.bus with ram := s.bus.ram.write (a % 128) v } }

/-- The machine with a byte of the image set. -/
def rom (o : Nat) (v : Byte) (s : State) : State :=
  { s with bus := { s.bus with cart := { s.bus.cart with rom := { s.bus.cart.rom with bytes := s.bus.cart.rom.bytes.write o v } } } }

/-- The machine with its processor changed. -/
def cpu (f : Cpu → Cpu) (s : State) : State := { s with cpu := f s.cpu }

/-- The state after one step. -/
def run (s : State) : State :=
  match step s with
  | .next t => t
  | .fault _ | .refused _ => s

/-- Cycles one step takes. -/
def cyc (s : State) : Nat := (run s).bus.cycles - s.bus.cycles

/-- The byte of RAM at a zero-page address after one step. -/
def ramAt (a : Nat) (s : State) : Byte := (run s).bus.ram.read (a % 128)

/-- The flags `N V Z C` after one step. -/
def nvzc (s : State) : List Bool := [(run s).cpu.n, (run s).cpu.v, (run s).cpu.z, (run s).cpu.c]

/-- LD-5: zero-page indexing wraps. -/
theorem test_lda_wraps :
    (run (put 0x80 0x99 (cpu ({ · with x := 0x90 }) (machine [0xB5, 0xF0])))).cpu.a = 0x99 := by decide +kernel

/-- The word of `LDA #$05` placed after reset is what the very next step runs (log 6). -/
theorem test_fetch_word : (run (State.reset.withFetchWord 16 0x05A9)).cpu.a = 0x05 := by decide +kernel

/-- LD-15: the pointer's high byte comes from page zero, where the timing chip answers over the open bus. -/
theorem test_lda_pointer_wraps :
    (run (put 0x85 0x77 (put 0xFF 0x84 (cpu ({ · with y := 1 }) (machine [0xB1, 0xFF]))))).cpu.a = 0x77 := by
  decide +kernel

/-- LD-11: a timing-chip read leaves the open bus in its low bits. -/
theorem test_ldx_open_bus : (run (cpu ({ · with y := 2 }) (machine [0xB6, 0xFF]))).cpu.x = 0x3F := by decide +kernel

/-- LD-9. -/
theorem test_ldy :
    let s := put 0xFF 0x44 (cpu ({ · with x := 0x7F }) (machine [0xBC, 0x80, 0x00]))
    (run s).cpu.y = 0x44 ∧ cyc s = 4 := by decide +kernel

/-- ST-3: the indirect indexed store always has its idle cycle. -/
theorem test_sta :
    let s := put 0x80 0x90 (cpu ({ · with a := 0x22, y := 1 }) (machine [0x91, 0x80]))
    ramAt 0x91 s = 0x22 ∧ cyc s = 6 := by decide +kernel

/-- ST-4. -/
theorem test_stx : ramAt 0x81 (cpu ({ · with x := 0xFF }) (machine [0x8E, 0x81, 0x00])) = 0xFF := by decide +kernel

/-- ST-5. -/
theorem test_sty : ramAt 0x81 (cpu ({ · with y := 7, x := 1 }) (machine [0x94, 0x80])) = 0x07 := by decide +kernel

/-- TR-1. -/
theorem test_tax : (run (cpu ({ · with x := 0x12 }) (machine [0xAA]))).cpu.x = 0x00 := by decide +kernel

/-- TR-5. -/
theorem test_tay : (run (cpu ({ · with a := 0x7F }) (machine [0xA8]))).cpu.y = 0x7F := by decide +kernel

/-- TR-4. -/
theorem test_txa : (run (cpu ({ · with x := 0x80 }) (machine [0x8A]))).cpu.a = 0x80 := by decide +kernel

/-- TR-6. -/
theorem test_tya : (run (cpu ({ · with a := 0x55 }) (machine [0x98]))).cpu.a = 0x00 := by decide +kernel

/-- TR-3. -/
theorem test_tsx : (run (cpu ({ · with s := 0xFD }) (machine [0xBA]))).cpu.x = 0xFD := by decide +kernel

/-- TR-2: no flag is written. -/
theorem test_txs :
    let t := run (cpu ({ · with x := 0x80, z := true }) (machine [0x9A]))
    (t.cpu.s, t.cpu.z, t.cpu.n) = (0x80, true, false) := by decide +kernel

/-- AD-4. -/
theorem test_adc :
    let s := cpu ({ · with a := 0x80 }) (machine [0x69, 0x80])
    (run s).cpu.a = 0x00 ∧ nvzc s = [false, true, true, true] := by decide +kernel

/-- DA-2: `N` and `V` come from the half-corrected sum. -/
theorem test_adc_decimal :
    let s := cpu ({ · with a := 0x58, c := true, d := true }) (machine [0x69, 0x46])
    (run s).cpu.a = 0x05 ∧ nvzc s = [true, true, false, true] := by decide +kernel

/-- SB-3. -/
theorem test_sbc :
    let s := cpu ({ · with a := 0x80, c := true }) (machine [0xE9, 0x01])
    (run s).cpu.a = 0x7F ∧ nvzc s = [false, true, false, true] := by decide +kernel

/-- DS-2: the flags are those of the binary subtraction. -/
theorem test_sbc_decimal :
    let s := cpu ({ · with c := true, d := true }) (machine [0xE9, 0x01])
    (run s).cpu.a = 0x99 ∧ nvzc s = [true, false, false, false] := by decide +kernel

/-- CP-1. -/
theorem test_cmp : nvzc (cpu ({ · with a := 0x10 }) (machine [0xC9, 0x20])) = [true, false, false, false] := by
  decide +kernel

/-- CP-4. -/
theorem test_cpx : nvzc (cpu ({ · with x := 0x05 }) (machine [0xE0, 0x05])) = [false, false, true, true] := by
  decide +kernel

/-- CP-5. -/
theorem test_cpy : nvzc (cpu ({ · with y := 0xFF }) (machine [0xC0, 0x00])) = [true, false, false, true] := by
  decide +kernel

/-- IN-1. -/
theorem test_inc :
    let s := put 0x80 0xFF (machine [0xE6, 0x80])
    ramAt 0x80 s = 0x00 ∧ (run s).cpu.z = true ∧ cyc s = 5 := by decide +kernel

/-- IN-4. -/
theorem test_dec : ramAt 0x80 (machine [0xCE, 0x80, 0x00]) = 0xFF := by decide +kernel

/-- IN-5. -/
theorem test_inx : (run (cpu ({ · with x := 0xFF }) (machine [0xE8]))).cpu.x = 0x00 := by decide +kernel

/-- R159 by hand: `7F + 1 = 80`, so `N` is set. -/
theorem test_iny :
    let t := run (cpu ({ · with y := 0x7F }) (machine [0xC8]))
    (t.cpu.y, t.cpu.n) = (0x80, true) := by decide +kernel

/-- R161 by hand: `01 - 1 = 00`, so `Z` is set. -/
theorem test_dex :
    let t := run (cpu ({ · with x := 0x01 }) (machine [0xCA]))
    (t.cpu.x, t.cpu.z) = (0x00, true) := by decide +kernel

/-- IN-6. -/
theorem test_dey : (run (machine [0x88])).cpu.y = 0xFF := by decide +kernel

/-- LG-1. -/
theorem test_and : (run (cpu ({ · with a := 0xF0 }) (machine [0x29, 0x3C]))).cpu.a = 0x30 := by decide +kernel

/-- LG-2. -/
theorem test_ora : (run (cpu ({ · with a := 0x0F }) (machine [0x09, 0x80]))).cpu.a = 0x8F := by decide +kernel

/-- LG-3. -/
theorem test_eor : (run (cpu ({ · with a := 0xAA }) (machine [0x49, 0xFF]))).cpu.a = 0x55 := by decide +kernel

/-- LG-5. -/
theorem test_bit :
    let s := put 0x80 0xC0 (cpu ({ · with a := 0x01 }) (machine [0x24, 0x80]))
    nvzc s = [true, true, true, false] ∧ (run s).cpu.a = 0x01 := by decide +kernel

/-- SH-9. -/
theorem test_asl :
    let s := put 0x82 0x40 (cpu ({ · with x := 2 }) (machine [0x1E, 0x80, 0x00]))
    ramAt 0x82 s = 0x80 ∧ nvzc s = [true, false, false, false] ∧ cyc s = 7 := by decide +kernel

/-- SH-4: LSR always clears `N`. -/
theorem test_lsr :
    let s := cpu ({ · with a := 0x01, n := true }) (machine [0x4A])
    (run s).cpu.a = 0x00 ∧ nvzc s = [false, false, true, true] := by decide +kernel

/-- SH-5. -/
theorem test_rol :
    let s := cpu ({ · with a := 0x40, c := true }) (machine [0x2A])
    (run s).cpu.a = 0x81 ∧ nvzc s = [true, false, false, false] := by decide +kernel

/-- SH-7. -/
theorem test_ror :
    let s := put 0x80 0x02 (cpu ({ · with c := true }) (machine [0x66, 0x80]))
    ramAt 0x80 s = 0x81 ∧ nvzc s = [true, false, false, false] := by decide +kernel

/-- CF-3: the pointer's high byte is read from the same page. -/
theorem test_jmp_indirect :
    (run (rom 0x0FF 0x34 (rom 0x000 0x12 (rom 0x100 0x56 (machineAt 0x1200 [0x6C, 0xFF, 0x10]))))).cpu.pc = 0x1234 := by
  decide +kernel

/-- CF-1. -/
theorem test_jmp : (run (machine [0x4C, 0x34, 0xF2])).cpu.pc = 0xF234 := by decide +kernel

/-- CF-4. -/
theorem test_jsr :
    let s := machine [0x20, 0x10, 0xF2]
    (ramAt 0xFF s, ramAt 0xFE s, (run s).cpu.s, (run s).cpu.pc, cyc s) = (0x10, 0x02, 0xFD, 0xF210, 6) := by
  decide +kernel

/-- CF-7: the return address wraps. -/
theorem test_rts :
    (run (put 0xFE 0xFF (put 0xFF 0xFF (cpu ({ · with s := 0xFD }) (machine [0x60]))))).cpu.pc = 0x0000 := by
  decide +kernel

/-- CF-8. -/
theorem test_brk :
    let s := rom 0xFFF 0xF0 (cpu ({ · with z := true, c := true }) (machine [0x00]))
    (ramAt 0xFF s, ramAt 0xFE s, ramAt 0xFD s, (run s).cpu.s, (run s).cpu.pc, cyc s) =
      (0x10, 0x02, 0x37, 0xFC, 0xF000, 7) := by
  decide +kernel

/-- CF-9: the pushes reach the timing chip, whose VSYNC turns on. -/
theorem test_brk_into_timing_chip :
    let s := rom 0xFFF 0xF0 (cpu ({ · with s := 0x01, d := true }) (machine [0x00]))
    (ramAt 0xFF s, (run s).cpu.s, (run s).bus.tia.vsync, (run s).cpu.d) = (0x3C, 0xFE, true, true) := by
  decide +kernel

/-- CF-10. -/
theorem test_rti :
    let s := put 0xFD 0xFF (put 0xFE 0x34 (put 0xFF 0x12 (cpu ({ · with s := 0xFC }) (machine [0x40]))))
    ((run s).cpu.pc, (run s).cpu.s, (run s).cpu.d, nvzc s) = (0x1234, 0xFF, true, [true, true, true, true]) := by
  decide +kernel

/-- BR-12: the target wraps through 65536 and leaves the page. -/
theorem test_bcc :
    let s := machineAt 0xFFF0 [0x90, 0x7F]
    ((run s).cpu.pc, cyc s) = (0x0071, 4) := by decide +kernel

/-- BR-3. -/
theorem test_bcs :
    let s := cpu ({ · with c := true }) (machine [0xB0, 0x7F])
    ((run s).cpu.pc, cyc s) = (0x1081, 3) := by decide +kernel

/-- BR-4. -/
theorem test_beq :
    let s := cpu ({ · with z := true }) (machineAt 0x10F0 [0xF0, 0x20])
    ((run s).cpu.pc, cyc s) = (0x1112, 4) := by decide +kernel

/-- BR-11: the page is that of the next instruction. -/
theorem test_bne :
    let s := machineAt 0x10FE [0xD0, 0xFD]
    ((run s).cpu.pc, cyc s) = (0x10FD, 4) := by decide +kernel

/-- BR-14. -/
theorem test_bmi :
    let s := cpu ({ · with n := true }) (machineAt 0x1010 [0x30, 0x80])
    ((run s).cpu.pc, cyc s) = (0x0F92, 4) := by decide +kernel

/-- BR-7. -/
theorem test_bpl :
    let s := machine [0x10, 0xFE]
    ((run s).cpu.pc, cyc s) = (0x1000, 3) := by decide +kernel

/-- BR-8. -/
theorem test_bvc :
    let s := cpu ({ · with v := true }) (machine [0x50, 0x05])
    ((run s).cpu.pc, cyc s) = (0x1002, 2) := by decide +kernel

/-- BR-9. -/
theorem test_bvs :
    let s := cpu ({ · with v := true }) (machine [0x70, 0x80])
    ((run s).cpu.pc, cyc s) = (0x0F82, 4) := by decide +kernel

/-- SK-1. -/
theorem test_pha :
    let s := cpu ({ · with a := 0x42 }) (machine [0x48])
    (ramAt 0xFF s, (run s).cpu.s, cyc s) = (0x42, 0xFE, 3) := by decide +kernel

/-- SK-2. -/
theorem test_php : ramAt 0xFF (cpu ({ · with n := true, c := true }) (machine [0x08])) = 0xB5 := by decide +kernel

/-- SK-8: the stack pointer wraps and the timing chip answers over the open bus. -/
theorem test_pla :
    let s := machine [0x68]
    ((run s).cpu.s, (run s).cpu.a, cyc s) = (0x00, 0x28, 4) := by decide +kernel

/-- SK-7. -/
theorem test_plp :
    let s := put 0xFF 0x30 (cpu ({ · with s := 0xFE, n := true, v := true, d := true, z := true, c := true }) (machine [0x28]))
    (nvzc s, (run s).cpu.d, (run s).cpu.i) = ([false, false, false, false], false, false) := by decide +kernel

/-- FL-1. -/
theorem test_clc : (run (cpu ({ · with c := true }) (machine [0x18]))).cpu.c = false := by decide +kernel

/-- FL-2. -/
theorem test_sec : (run (machine [0x38])).cpu.c = true := by decide +kernel

/-- FL-3. -/
theorem test_cli : (run (machine [0x58])).cpu.i = false := by decide +kernel

/-- FL-4. -/
theorem test_sei : (run (cpu ({ · with i := false }) (machine [0x78]))).cpu.i = true := by decide +kernel

/-- FL-5. -/
theorem test_cld : (run (cpu ({ · with d := true }) (machine [0xD8]))).cpu.d = false := by decide +kernel

/-- FL-6. -/
theorem test_sed : (run (machine [0xF8])).cpu.d = true := by decide +kernel

/-- FL-7. -/
theorem test_clv : (run (cpu ({ · with v := true }) (machine [0xB8]))).cpu.v = false := by decide +kernel

/-- FL-8. -/
theorem test_nop :
    let s := machine [0xEA]
    ((run s).cpu, cyc s) = ({ s.cpu with pc := 0x1001 }, 2) := by decide +kernel

/-- UN-1. -/
theorem test_unimpl :
    let s := cpu ({ · with a := 0x11, n := true, v := true, z := true, c := true }) (machine [0x02])
    ((run s).cpu, (run s).bus.busTrash, cyc s) = ({ s.cpu with pc := 0x1001 }, 0x02, 1) := by decide +kernel

/-! ### Devices -/

/-- S4: a timer loaded with 10, shift 0, read after 10 cycles shows 0 with its flag clear, and after 11 cycles has its
flag set. -/
theorem test_timer :
    let b := State.reset.bus.poke 0x0294 0x0A
    let ten := b.tick.tick.tick.tick.tick.tick.tick.tick.tick.tick
    ((ten.peek 0x0284).1, (ten.peek 0x0285).1, (ten.tick.peek 0x0285).1, (ten.tick.peek 0x0284).1) =
      (0x00, 0x00, 0x80, 0xFF) := by
  decide +kernel

/-- RI-8: reset pressed and left difficulty B read `BE`; R288: the bits without a switch read 1 when every other
bit is 0. -/
theorem test_switch_panel :
    let s := State.reset.setInputs { Inputs.idle with switches := { Switches.idle with resetPressed := true, leftExpert := false } }
    ((s.bus.peek 0x0282).1, Switches.byte ⟨true, true, false, false, false⟩) = (0xBE, 0x34) := by
  decide +kernel

/-- RI-10 (the timer flag set as in RI-2): a fall of PA7 reported by the controller reads `C0`, then `80`; R287: the
same fall not reported leaves the edge flag alone. -/
theorem test_edge_flag :
    let s := State.reset.setInputs { Inputs.idle with left := { Controller.idle with held := { Pins.idle with peek := 0x7 } } }
    let first := s.reportTransition.bus.peek 0x0285
    (first.1, (first.2.peek 0x0285).1, (s.bus.peek 0x0285).1) = (0xC0, 0x80, 0x80) := by
  decide +kernel

/-- S3: sprite 0 of graphics `FF` at position 10 is present in pixels 10 to 17 and in no other of 0 to 19. -/
theorem test_sprite :
    let t := { Tia.powerOn with p0 := { PlayerUnit.powerOn with grpNew := 0xFF, pos := 10 }, h := 20 }
    (List.range 20).map (fun x => t.presence x) =
      List.replicate 10 0 ++ List.replicate 8 1 ++ List.replicate 2 0 := by
  decide +kernel

/-- S2: a write to `0x1FF9` and one to `0x1FF8` select the banks of an 8K image. -/
theorem test_f8 :
    let rom : Rom := { size := 8192, bytes := [(0x0000, 0x11), (0x1000, 0x22)] }
    let hi := ((Mapper.std .f8 false 0).access rom 0x1FF9 0x00).2
    let lo := (hi.access rom 0x1FF8 0x00).2
    ((hi.access rom 0x1000 0).1, (lo.access rom 0x1000 0).1) = (some 0x22, some 0x11) := by
  decide +kernel

/-- R343: a VBLANK write sets its fields and calls the controllers. -/
theorem test_vblank :
    let b := State.reset.bus.poke 0x0001 0xC2
    (b.tia.vblank, b.tia.inptLatch, b.tia.inptGround, b.tia.refreshes, b.portCalls.right.take 3) =
      (true, true, true, 1, [PortCall.ground true, PortCall.latch true, PortCall.clock 3]) := by
  decide +kernel

/-- R286, R345: a controller that answers by its calls: a paddle whose first pot reads 1 once 9 clocks have passed
since power-on; the read is added to its history. -/
theorem test_paddle :
    let paddle : Controller :=
      { held := { Pins.idle with pot1 := 0x00 }
        scripted := [([.clock 3, .clock 3, .clock 3, .transitions], Pins.idle)] }
    let b := (State.reset.setInputs { Inputs.idle with left := paddle }).bus
    ((b.peek 0x0008).1, (b.tick.peek 0x0008).1, (b.peek 0x0008).2.portCalls.left) =
      (0x00, 0x80, [PortCall.pot1, PortCall.clock 3, PortCall.clock 3, PortCall.transitions]) := by
  decide +kernel

/-- Bits as a number, first bit most significant. -/
def packed (bits : List Bool) : Nat := bits.foldl (fun n b => 2 * n + bitNat b) 0

/-- R377: the short tables, bit by bit, index 0 first. -/
theorem test_short_waves :
    packed waveP4 = 0b111100010011010 ∧ packed waveP5 = 0b1111100011011101010000100101100 ∧
      packed waveDiv31 = 0b1111111111111111110000000000000 ∧ waveP4.length = 15 ∧ waveP5.length = 31 := by
  decide +kernel

/-- R377: the hex listing of `P9`, one pad bit. -/
theorem test_wave_P9 :
    waveP9.length = 511 ∧ packed waveP9 * 2 =
      0xFF83DF1732094ED1E7CD8A91C6D5C4C44021184E5586F4DC8A15A7EC92DF93533018CA34BFA2C759678FBA0D6DD82D7D540A57977039D27AEA243385ED9A1DE0 := by
  decide +kernel

/-- R377: the hex listing of `D31P4`, three pad bits. -/
theorem test_wave_D31P4 :
    waveD31P4.length = 465 ∧ packed waveD31P4 * 8 =
      0xFFFFFFFFFFFFFFFC000000000001FFF00000001FFFFFFFC0000FFF80001FFFFFFFFFFFFFFF800000000007FFFE00000003FFFFFFF8003FFFF0000 := by
  decide +kernel

/-- R377: the hex listing of `P5P4`, three pad bits. -/
theorem test_wave_P5P4 :
    waveP5P4.length = 465 ∧ packed waveP5P4 * 8 =
      0xF033C1CFC08E7C7F1E3307FC41D9FFC1074FFF04F97FF813EDFF81CC27E00437BF0030D0F8038F5FE0F83D7F8601C5FC301F77F087F91E023F8D8 := by
  decide +kernel

/-! ### Hypotheses can be met

One theorem for each obligation with hypotheses, a case for each clause at the ends of its range. -/

/-- DecodeInvertsEncode: no, one and two operand bytes. -/
theorem witness_DecodeInvertsEncode :
    (Instr.unimpl 0xFF).wellFormed = true ∧ ([] : List Byte).length = (Instr.unimpl 0xFF).format.operandBytes ∧
      (Instr.bne).wellFormed = true ∧ ([0xFB] : List Byte).length = Instr.bne.format.operandBytes ∧
      (Instr.jmp .ind).wellFormed = true ∧ ([0xFF, 0x10] : List Byte).length = (Instr.jmp .ind).format.operandBytes := by
  decide

/-- EncodeInvertsDecode: bytes that decode, and a tail just long enough. -/
theorem witness_EncodeInvertsDecode :
    decode [0xFF, 0xA9] = .ok (.unimpl 0xFF, [], [0xA9]) ∧
      (decodeOpcode 0x6C).format.operandBytes ≤ ([0x80, 0x00] : List Byte).length := by
  decide

/-- StepRunsDecodedInstruction: an opcode in RAM, one in a `4K` cartridge. -/
theorem witness_StepRunsDecodedInstruction :
    (let s := put 0x80 0xEA (machineAt 0x0080 [])
     decode [s.fetch.1] = .ok (.nop, [], []) ∧ chipOf s.cpu.pc = .ram) ∧
    (let s := machineAt 0xFFFF [0xA9]
     decode [s.fetch.1, 0x05] = .ok (.lda .imm, [0x05], []) ∧ chipOf s.cpu.pc = .cart ∧
       s.bus.cart.mapper = .fixed4K) := by
  decide +kernel

/-- EffectiveAddresses: both indexed modes, a sum inside the page and one outside. -/
theorem witness_EffectiveAddresses :
    (Mem.abx = .abx ∨ Mem.abx = .aby) ∧ (Mem.aby = .abx ∨ Mem.aby = .aby) ∧
      page (0x10FF + zext16 0x00) = page 0x10FF ∧ page (0x10FF + zext16 0x01) ≠ page 0x10FF := by
  decide

/-- OperandRead: an immediate, and a memory operand whose address selects RAM. -/
theorem witness_OperandRead :
    chipOf ((machine [0x80]).effAddr .zp .read).1 = .ram ∧ chipOf ((machine [0xFF]).effAddr .zp .read).1 = .ram := by
  decide +kernel

/-- AdcBinary, SbcBinary. -/
theorem witness_binary : (machine [0x69, 0x80]).cpu.d = false := by decide +kernel

/-- AdcDecimal, SbcDecimal. -/
theorem witness_decimal : (cpu ({ · with d := true }) (machine [0x69, 0x46])).cpu.d = true := by decide +kernel

/-- ArithmeticLaws: the digits 0 and 9. -/
theorem witness_ArithmeticLaws : (0 : Nat) < 10 ∧ (9 : Nat) < 10 := by decide

/-- StatusByte: two bytes that differ in bits 4 and 5 alone. -/
theorem witness_StatusByte :
    ∀ j, j ≠ 4 → j ≠ 5 → (0x30 : Byte).getLsbD j = (0x00 : Byte).getLsbD j := by
  intro j h4 h5
  rcases Nat.lt_or_ge j 8 with h | h
  · interval_cases j <;> first | rfl | exact absurd rfl h4 | exact absurd rfl h5
  · rw [BitVec.getLsbD_of_ge _ _ h, BitVec.getLsbD_of_ge _ _ h]

/-- StackInstructions: the ends of both halves of the page, and both wraps. -/
theorem witness_StackInstructions :
    0x80 ≤ (0x80 : Byte).toNat ∧ 0x80 ≤ (0xFF : Byte).toNat ∧ (0x00 : Byte).toNat < 0x80 ∧ (0x7F : Byte).toNat < 0x80 ∧
      (cpu ({ · with s := 0x00 }) (machine [])).cpu.s = 0x00 ∧ (machine []).cpu.s = 0xFF := by
  decide +kernel

/-- UnimplementedOpcodes: the first and the last of them. -/
theorem witness_UnimplementedOpcodes :
    unimplementedOpcodes.contains (machine [0x02]).fetch.1.toNat = true ∧
      unimplementedOpcodes.contains (machine [0xFF]).fetch.1.toNat = true := by
  decide +kernel

/-- CallsReturn: the lowest stack pointers it covers. -/
theorem witness_CallsReturn :
    (machine []).bus.ram.wf ∧ 0x81 ≤ (cpu ({ · with s := 0x81 }) (machine [])).cpu.s.toNat ∧
      0x82 ≤ (cpu ({ · with s := 0x82 }) (machine [])).cpu.s.toNat := by
  decide +kernel

/-- FrameWithoutStore: a load and a return, with the two ends of RAM. -/
theorem witness_FrameWithoutStore :
    ((Instr.lda (.mem .izy)).destination = none ∧ (Instr.lda (.mem .izy)).pushes = 0 ∧
      ∃ t, exec (.lda (.mem .izy)) (machine [0x80]) = .next t) ∧
    (Instr.rti.destination = none ∧ Instr.rti.pushes = 0 ∧ ∃ t, exec .rti (machine []) = .next t) ∧
    chipOf 0x0080 = .ram ∧ chipOf 0x00FF = .ram := by
  refine ⟨⟨rfl, rfl, _, rfl⟩, ⟨rfl, rfl, _, rfl⟩, ?_, ?_⟩ <;> decide

/-- FrameOfStore: a store to RAM with another RAM byte, one outside the timing chip, one outside the I/O chip. -/
theorem witness_FrameOfStore :
    (machine [0x80]).bus.ram.wf ∧ (Instr.sta .zp).destination = some .zp ∧
      (∃ t, exec (.sta .zp) (machine [0x80]) = .next t) ∧
      (let ea := ((machine [0x80]).effAddr .zp .write).1
       chipOf ea = .ram ∧ ramIndex 0x0081 ≠ ramIndex ea ∧ chipOf ea ≠ .tia ∧ chipOf ea ≠ .riot) ∧
      (Instr.asl (.mem .zp)).destination = some .zp ∧ (∃ t, exec (.asl (.mem .zp)) (machine [0x02]) = .next t) ∧
      chipOf ((machine [0x02]).effAddr .zp .rmw).1 ≠ .riot := by
  refine ⟨by decide +kernel, rfl, ⟨_, rfl⟩, ?_, rfl, ⟨_, rfl⟩, ?_⟩ <;> decide +kernel

/-- FrameOfPush: the four instructions that push, with their slots in RAM and with one of them in the timing chip. -/
theorem witness_FrameOfPush :
    (machine []).bus.ram.wf ∧ 0 < Instr.pha.pushes ∧ 0 < Instr.php.pushes ∧ 0 < Instr.jsr.pushes ∧ 0 < Instr.brk.pushes ∧
      (∃ t, exec .brk (machine []) = .next t) ∧
      (∀ k, k < Instr.brk.pushes → chipOf (stackAddr ((machine []).cpu.s - BitVec.ofNat 8 k)) = .ram) ∧
      ramIndex 0x0080 ≠ ramIndex (stackAddr 0xFF) ∧
      chipOf (stackAddr ((cpu ({ · with s := 0x7F }) (machine [])).cpu.s - BitVec.ofNat 8 0)) = .tia := by
  refine ⟨?_, ?_, ?_, ?_, ?_, ⟨_, rfl⟩, ?_, ?_, ?_⟩ <;> decide +kernel

/-- OnlyNamedStateChanges: an instruction with a field it does not write. -/
theorem witness_OnlyNamedStateChanges :
    (∃ t, exec (.cmp .imm) (machine [0x05]) = .next t) ∧ CpuField.v ∉ (Instr.cmp .imm).writes ∧
      (∃ t, step (machine [0xC9, 0x05]) = .next t) :=
  ⟨⟨_, rfl⟩, by decide, ⟨_, rfl⟩⟩

/-- AddressDecoding: two addresses with the same low 13 bits; each chip's first and last address in its mirror. -/
theorem witness_AddressDecoding :
    (0x1FFF : Word).toNat % 8192 = (0xFFFF : Word).toNat % 8192 ∧ chipOf 0x1000 = .cart ∧ chipOf 0xFFFF = .cart ∧
      chipOf 0x0000 = .tia ∧ chipOf 0x0F7F = .tia ∧ chipOf 0x0080 = .ram ∧ chipOf 0x0DFF = .ram ∧
      chipOf 0x0280 = .riot ∧ chipOf 0x0FFF = .riot := by
  decide

/-- OpenBus: a cartridge RAM write port, the first and last timing-chip index without a register, the ends of the
undriven bits. -/
theorem witness_OpenBus :
    (let b := { State.reset.bus with cart := { rom := { size := 12288, bytes := [] }, mapper := .cbs 0 [] } }
     chipOf 0x1000 = .cart ∧ (b.cart.access (addr13 0x1000) b.busTrash).1 = none) ∧
    chipOf 0x000E = .tia ∧ 14 ≤ tiaReadIndex 0x000E ∧ 14 ≤ tiaReadIndex 0x000F ∧ (0 : Nat) < 6 ∧ (5 : Nat) < 6 := by
  decide +kernel

/-- RamReadsLastWrite: a byte through its stack mirror, and another byte. -/
theorem witness_RamReadsLastWrite :
    State.reset.bus.ram.wf ∧ chipOf 0x0080 = .ram ∧ chipOf 0x0180 = .ram ∧ chipOf 0x00FF = .ram ∧
      ramIndex 0x0080 = ramIndex 0x0180 ∧ ramIndex 0x0080 ≠ ramIndex 0x00FF := by
  decide +kernel

/-- TickMovesEveryClock, WsyncStall, ObjectRegisters: the beam at both ends of its range, and a WSYNC address. -/
theorem witness_beam :
    -68 ≤ Tia.powerOn.h ∧ Tia.powerOn.h < 160 ∧ -68 ≤ ({ Tia.powerOn with h := 159 } : Tia).h ∧
      ({ Tia.powerOn with h := 159 } : Tia).h < 160 ∧ chipOf 0x0002 = .tia ∧ tiaWriteIndex 0x0002 = 0x02 := by
  decide +kernel

/-- TimingChipReads: the two indices without a register, the undriven bits, the ends of the input registers. -/
theorem witness_TimingChipReads :
    (14 : Nat) ≤ 14 ∧ (14 : Nat) ≤ 15 ∧ (5 : Nat) < 6 ∧ (8 : Nat) ≤ 8 ∧ (13 : Nat) < 14 := by decide

/-- CollisionLatchesAreSticky: a write elsewhere, a latch that is set, an instruction that stores nothing. -/
theorem witness_CollisionLatchesAreSticky :
    (0x2B : Nat) ≠ 0x2C ∧ ({ Tia.powerOn with cx := Vector.replicate 15 true } : Tia).cx[(14 : Fin 15)] = true ∧
      Instr.nop.destination = none ∧ Instr.nop.pushes = 0 ∧ ∃ t, exec .nop (machine []) = .next t :=
  ⟨by decide, by decide, rfl, rfl, _, rfl⟩

/-- PlayfieldAndControlRegisters: the ends of the bit ranges and of the picture's halves. -/
theorem witness_PlayfieldAndControlRegisters :
    (3 : Nat) < 4 ∧ (4 : Nat) ≤ 4 ∧ (7 : Nat) < 8 ∧ (12 : Nat) ≤ 12 ∧ (11 : Nat) < 12 ∧ (79 : Nat) < 80 := by decide

/-- ObjectPresence: positions and pixels at both ends; the HMOVE blanking's last pixel and the one after it; the three
sizes of a solid player. -/
theorem witness_ObjectPresence :
    (let t := { Tia.powerOn with
        p0 := { PlayerUnit.powerOn with pos := 0, mpos := 159 }, p1 := { PlayerUnit.powerOn with pos := 159, mpos := 0 }
        posBL := 159, hmoveBlank := true }
     t.p0.pos < 160 ∧ t.p0.mpos < 160 ∧ t.p1.pos < 160 ∧ t.p1.mpos < 160 ∧ t.posBL < 160 ∧ 159 < 160 ∧
       t.hmoveBlank = true ∧ 7 < 8 ∧ 8 ≤ 8 ∧ Tia.powerOn.hmoveBlank = false) ∧
    ([(0, 0), (5, 159), (7, 0)] : List (BitVec 3 × Nat)).all (fun c =>
      let t := { Tia.powerOn with p0 := { PlayerUnit.powerOn with grpNew := 0xFF, nusiz := c.1, pos := c.2 } }
      decide (t.p0.pos < 160 ∧ t.hmoveBlank = false ∧ t.p0.vdelp = false ∧ t.p0.grpNew = 0xFF ∧
        (t.p0.nusiz = 0 ∨ t.p0.nusiz = 5 ∨ t.p0.nusiz = 7))) = true := by
  decide +kernel

/-- TimerCountsDown: all four timer addresses; counts that just have not and just have passed the load. -/
theorem witness_TimerCountsDown :
    ([0x14, 0x15, 0x16, 0x17] : List (BitVec 5)).all (fun k => k.getLsbD 2 && k.getLsbD 4) = true ∧
      (0 : Int) ≤ ((0x0A : Byte).toNat * 2 ^ [0, 3, 6, 10].getD ((0x14 : BitVec 5).toNat % 4) 0 : Nat) - 10 ∧
      ((0x0A : Byte).toNat * 2 ^ [0, 3, 6, 10].getD ((0x14 : BitVec 5).toNat % 4) 0 : Nat) - (11 : Int) < 0 := by
  decide

/-- PortsAndFlags: the accesses that call the ports at the ends of their ranges, and those beside them; INTIM, TIMINT
and an edge-control write; the ends of the bit range. -/
theorem witness_PortsAndFlags :
    (chipOf 0x0280 = .riot ∧ (riotIndex 0x0280).toNat % 8 = 0 ∧ (riotIndex 0x0281).toNat % 8 = 1 ∧
      (riotIndex 0x0282).toNat % 8 = 2 ∧ (riotIndex 0x029F).toNat % 8 = 7) ∧
    (chipOf 0x0001 = .tia ∧ tiaWriteIndex 0x0001 = 0x01 ∧ tiaWriteIndex 0x0041 = 0x01 ∧ tiaReadIndex 0x0007 = 7 ∧
      tiaReadIndex 0x0008 = 8 ∧ tiaReadIndex 0x000D = 0xD ∧ tiaReadIndex 0x000E = 0xE) ∧
    (0x04 : BitVec 5).getLsbD 2 = true ∧ (0x04 : BitVec 5).getLsbD 0 = false ∧ (0x05 : BitVec 5).getLsbD 2 = true ∧
      (0x05 : BitVec 5).getLsbD 0 = true ∧ (0x07 : BitVec 5).getLsbD 4 = false ∧ (7 : Nat) < 8 := by
  decide

/-- AudioHalf: the default parameters; the indices beside the six; a channel whose divider has to count on and one
whose divider is full; a table bit that is 1 and one that is 0. -/
theorem witness_AudioHalf :
    defaultConfig.wf ∧ 0 < defaultConfig.audioTickPeriod ∧ (0x14 : Nat) < 0x15 ∧ (0x1A : Nat) < 0x1B ∧
      (let c : Channel := { Channel.powerOn with audc := 4, audf := 1 }
       c.divCount + 1 < (c.audf.toNat + 1) * (c.wave defaultConfig).extra ∧
         (c.wave defaultConfig).bits[c.phase]? = some true) ∧
      (let c : Channel := { Channel.powerOn with audc := 4, audf := 1, divCount := 1, phase := 1 }
       (c.audf.toNat + 1) * (c.wave defaultConfig).extra ≤ c.divCount + 1 ∧
         (c.wave defaultConfig).bits[c.phase]? = some false) := by
  decide +kernel

/-- StandardHotspots: the last hotspot of each size, the addresses beside them, both ends of the address range. -/
theorem witness_StandardHotspots :
    (1 < StdSize.f8.banks ∧ 0x1FF9 = [0x1FF8, 0x1FF6, 0x1FF4].getD (StdSize.f8.banks / 4) 0 + 1) ∧
      (3 < StdSize.f6.banks ∧ 0x1FF9 = [0x1FF8, 0x1FF6, 0x1FF4].getD (StdSize.f6.banks / 4) 0 + 3) ∧
      (7 < StdSize.f4.banks ∧ 0x1FFB = [0x1FF8, 0x1FF6, 0x1FF4].getD (StdSize.f4.banks / 4) 0 + 7) ∧
      [0x1FF8, 0x1FF6, 0x1FF4].getD (StdSize.f8.banks / 4) 0 + StdSize.f8.banks ≤ 0x1FFA ∧ 0x1FFF < 8192 ∧
      (∃ k, ((Mapper.std .f8 false 1).access { size := 8192, bytes := [] } 0x1000 0).2 = .std .f8 false k) := by
  refine ⟨?_, ?_, ?_, ?_, ?_, ⟨1, rfl⟩⟩ <;> decide

/-- CartridgeRamPorts: the last byte of each port; `E7` with its trap bank 7 low. -/
theorem witness_CartridgeRamPorts :
    Memory.wf [] ∧ Memory.wf [(1023, 0x42)] ∧ (127 : Nat) < 128 ∧ (255 : Nat) < 256 ∧ (1023 : Nat) < 1024 := by decide

/-- UnusualSwitching: both ends of each address range, the addresses beside the RAM and register windows, a low bank
that is not the trap bank, the last write function. -/
theorem witness_UnusualSwitching :
    (0x3F : Nat) ≤ 0x3F ∧ (4096 : Nat) ≤ 4096 ∧ (4095 : Nat) < 4096 ∧ (6143 : Nat) < 6144 ∧ (6144 : Nat) ≤ 8191 ∧
      (8191 : Nat) < 8192 ∧ (0x01FE : Nat) < 8192 ∧ (0x1FF1 : Nat) ≠ 0x1FF0 ∧ (0x0FFF : Nat) < 0x1000 ∧
      (0x1200 : Nat) ≤ 0x1200 ∧ (0x1100 : Nat) ≤ 0x1100 ∧ (0x1080 : Nat) ≤ 0x1080 ∧ (0x17FF : Nat) < 0x1800 ∧
      (0x1A00 : Nat) ≤ 0x1A00 ∧ (0x1FEB : Nat) < 0x1FEC ∧ (0x003D : Nat) ≠ 0x003F ∧ (0x003D : Nat) ≠ 0x003E ∧
      (6 : BitVec 3).toNat < 7 ∧ (7 : Nat) < 8 := by
  decide

/-- PitfallReads: the functions that read zero, and a fetcher other than the one read. -/
theorem witness_PitfallReads :
    (3 : Nat) ≤ 3 ∧ (6 : Nat) ≤ 6 ∧ (7 : Nat) < 8 ∧ (0 : Fin 8) ≠ 7 := by decide

/-- AccessShowsMappedByte: a read port of cartridge RAM, and an Activision read with the trigger not armed. -/
theorem witness_AccessShowsMappedByte :
    (let m := Mapper.superChip .f8 0 [(0, 0x42)]
     m.scheme ≠ .sDPC ∧ (m.access { size := 8192, bytes := [] } 0x1080 0).1 = some 0x42) ∧
    (Mapper.activision 0 false).scheme ≠ .sDPC ∧
      (∀ bank, Mapper.activision 0 false ≠ .activision bank true) ∧
      ((Mapper.activision 0 false).access { size := 8192, bytes := [(0x0FFF, 0x42)] } 0x1FFF 0).1 = some 0x42 := by
  refine ⟨by decide, by decide, by simp, by decide⟩

/-- PowerOnValues: an audio period longer than six clocks, and cartridges the registry makes. -/
theorem witness_PowerOnValues :
    6 < defaultConfig.audioTickPeriod ∧
      (∃ cart, Cart.create defaultConfig .sE7 { size := 16384, bytes := [] } [] [] = some cart) ∧
      ∃ cart, Cart.create defaultConfig .sDPC { size := 10240, bytes := [] } [] [] = some cart :=
  ⟨by decide +kernel, ⟨_, rfl⟩, _, rfl⟩

/-- PowerOnIsWellFormed: a well-formed cartridge of the scheme with the most state, and RAM with its last byte
listed. -/
theorem witness_PowerOnIsWellFormed :
    defaultConfig.wf ∧ Memory.wfIn 128 [(127, 0xFF)] ∧
      Cart.wf { rom := { size := 10240, bytes := [(10239, 0x01)] }, mapper := .pitfall2 (Dpc.powerOn 1) } := by
  refine ⟨by decide +kernel, by decide, by decide, by decide, by decide⟩

/-- StepKeepsWellFormed: a well-formed state whose step stores to RAM. -/
theorem witness_StepKeepsWellFormed :
    (machine [0x85, 0x80]).Ok ∧ ∃ t, step (machine [0x85, 0x80]) = .next t :=
  ⟨{ cfg := by decide +kernel
     ram := by decide +kernel
     stall := by decide +kernel
     tia :=
      { left := by decide +kernel, cursor := by decide +kernel, right := by decide +kernel
        p0 := ⟨by decide +kernel, by decide +kernel⟩, p1 := ⟨by decide +kernel, by decide +kernel⟩
        ball := by decide +kernel }
     audio := ⟨by decide +kernel, by decide +kernel, by decide +kernel⟩
     riot := ⟨by decide +kernel, by decide +kernel⟩
     cart := ⟨by decide +kernel, by decide +kernel, trivial⟩ }, _, rfl⟩

/-- StepKeepsLockstep: a state in lockstep whose step writes WSYNC. -/
theorem witness_StepKeepsLockstep :
    (machine [0x85, 0x02]).Lockstep ∧ ∃ t, step (machine [0x85, 0x02]) = .next t :=
  ⟨{ beam := by decide +kernel, cycle := by decide +kernel, stall := by decide +kernel, riot := by decide +kernel
     audio := by decide +kernel, elapsed := by decide +kernel, left := by decide +kernel, right := by decide +kernel }, _, rfl⟩

/-- InterruptFlagGatesNothing: an instruction that reads memory and one that writes `I`. -/
theorem witness_InterruptFlagGatesNothing :
    (Instr.lda .imm ≠ .php ∧ Instr.lda .imm ≠ .brk ∧ ∃ t, exec (.lda .imm) (machine [0x05]) = .next t) ∧
      Instr.plp ≠ .php ∧ Instr.plp ≠ .brk ∧ ∃ t, exec .plp (machine []) = .next t :=
  ⟨⟨by decide, by decide, _, rfl⟩, by decide, by decide, _, rfl⟩

/-- HostSideIsInvisible: two different states that a program cannot tell apart, with controllers that always answer
the same; and two with a controller that answers by its history. -/
theorem witness_HostSideIsInvisible :
    (let s := machine [0xEA]
     let s' := { s with bus := { s.bus with sysclk := 0, cycles := 0, audio := .powerOn, portCalls := .powerOn } }
     s ≠ s' ∧ s.visible = s'.visible ∧ ∃ t, step s = .next t) ∧
    (let s := (machine [0xEA]).setInputs { Inputs.idle with left := { Controller.idle with scripted := [([], .idle)] } }
     let s' := { s with bus := { s.bus with sysclk := 0, cycles := 0, audio := .powerOn } }
     s ≠ s' ∧ s.visible = s'.visible ∧ ∃ t, step s = .next t) :=
  ⟨⟨by decide +kernel, by decide +kernel, _, rfl⟩, by decide +kernel, by decide +kernel, _, rfl⟩

end Sys2Proof.Tests
end

section
/-!
PROOFS. The bus (spec/20_memory.md): open bus (R66), the passing of one processor cycle (R74, R75) and the WSYNC
stall (R76).
-/

namespace Sys2Proof.Machine

/-! ### Reads of the timing chip -/

/-- The indices without a register read as the open bus (R66, R304). -/
theorem Tia.readByte_of_no_register (t : Tia) (inp : Lines) (trash : Byte) {i : Nat} (h : 14 ≤ i) :
    t.readByte inp trash i = trash := if_pos h

/-- Bits 5 to 0 of a timing-chip read are the open bus (R66, R304). -/
theorem Tia.getLsbD_readByte_of_undriven (t : Tia) (inp : Lines) (trash : Byte) (i : Nat) {j : Nat} (hj : j < 6) :
    (t.readByte inp trash i).getLsbD j = trash.getLsbD j := by
  rw [Tia.readByte]
  split
  · rfl
  · simp only [BitVec.getLsbD_append, BitVec.getLsbD_extractLsb', hj, decide_true, Bool.true_and, Nat.zero_add,
      if_true]

/-- Settles O35: the open-bus byte is the one a read returns or a write carries, and a read that does not drive a
bit returns that of the open-bus byte before. -/
theorem openBus : Obligations.OpenBus := by
  unfold Obligations.OpenBus
  intro b a v
  refine ⟨b.peek_busTrash a, b.poke_busTrash a v, b.tick_busTrash, ?_, ?_, ?_⟩
  · intro ha hnone
    rw [b.peek_cart_eq a ha, hnone]
    rfl
  · intro ha hi
    rw [b.peek_tia_eq a ha]
    exact Tia.readByte_of_no_register _ _ _ hi
  · intro ha j hj
    rw [b.peek_tia_eq a ha]
    exact Tia.getLsbD_readByte_of_undriven _ _ _ _ hj

/-! ### One processor cycle -/

/-- One sample leaves for each full period in the residue (R373). -/
theorem Audio.clock_samples_length (cfg : Config) (n : Nat) (au : Audio) :
    (au.clock cfg n).samples.length = au.samples.length + (au.residue + n) / cfg.audioTickPeriod :=
  Audio.ticks_samples cfg _ au

/-- Settles O37: a tick forwards one count to every chip, and each chip's own clock lemma says what it does with
it. -/
theorem tickMovesEveryClock : Obligations.TickMovesEveryClock := by
  unfold Obligations.TickMovesEveryClock
  intro b h0 h1 n
  have hh : b.tick.tia.h = (b.tia.h + 68 + n) % 228 - 68 := b.tia.clock_h n h0 h1
  have hline : (b.tick.tia.scanline : Int) = b.tia.scanline + (b.tia.h + 68 + n) / 228 :=
    b.tia.clock_scanline n h0 h1
  have hsamples : b.tick.audio.samples.length =
      b.audio.samples.length + (b.audio.residue + n) / b.cfg.audioTickPeriod :=
    b.audio.clock_samples_length b.cfg n
  exact ⟨b.tick_sysclk, b.tick_wsyncExtra, b.tick_cycles, hh, hline, b.tia.clock_programmed n, rfl,
    b.audio.clock_residue b.cfg n, hsamples, b.audio.clock_programmed b.cfg n, b.tick_ram, b.tick_cart,
    b.tick_busTrash, b.tick_portCalls⟩

/-! ### The WSYNC write -/

/-- A write does not move the beam. -/
@[simp] theorem Bus.poke_tia_h (b : Bus) (a : Word) (v : Byte) : (b.poke a v).tia.h = b.tia.h := by
  rw [Bus.poke_tia]
  split
  · rw [Tia.write_h, Tia.catchUp_h]
  · rfl

/-- A write does not move the audio's clock. -/
@[simp] theorem Bus.poke_audio_residue (b : Bus) (a : Word) (v : Byte) :
    (b.poke a v).audio.residue = b.audio.residue := by
  rw [Bus.poke_audio]
  split
  · rw [Audio.write_residue]
  · rfl

/-- The stall of a WSYNC write is the distance to the start of the next line (R76, R341). -/
theorem Tia.wsyncClocks_eq (t : Tia) : (t.wsyncClocks : Int) = (160 - t.h) % 228 :=
  Int.toNat_of_nonneg (Int.emod_nonneg _ (by decide))

/-- The stall takes the beam to the start of a line, and the cycle's own 3 clocks take it to -65 (R76). -/
theorem beam_after_stall (h : Int) : (h + 68 + (3 + (160 - h) % 228)) % 228 - 68 = -65 := by omega

/-- A timing-chip write leaves the I/O chip alone (R65). -/
theorem Bus.poke_riot_of_tia {b : Bus} {a : Word} {v : Byte} (ha : chipOf a = .tia) :
    (b.poke a v).riot = b.riot := by
  simp [Bus.poke_riot, ha]

section
variable {b : Bus} {a : Word} {v : Byte} (ha : chipOf a = .tia) (hi : tiaWriteIndex a = 0x02)
include ha hi

/-- A WSYNC write leaves the clocks to the start of the next line pending (R76, R341). -/
theorem Bus.poke_wsync_wsyncExtra : ((b.poke a v).wsyncExtra : Int) = (160 - b.tia.h) % 228 := by
  rw [Bus.poke_wsyncExtra, if_pos ⟨ha, hi⟩, Tia.catchUp_wsyncClocks, Tia.wsyncClocks_eq]

/-- Of the timing chip's registers only VBLANK calls the controllers (R343). -/
theorem Bus.poke_wsync_portCalls : (b.poke a v).portCalls = b.portCalls := by
  simp [Bus.poke_portCalls, ha, hi, tiaWriteCalls]

end

/-- Settles O38: the write leaves every clock where it was and the distance to the next line pending; the next cycle
is then O37's with that count. -/
theorem wsyncStall : Obligations.WsyncStall := by
  unfold Obligations.WsyncStall
  intro b a v ha hi h0 h1 w
  have hextra : (w.wsyncExtra : Int) = (160 - b.tia.h) % 228 := Bus.poke_wsync_wsyncExtra ha hi
  have hbeam : w.tia.h = b.tia.h := b.poke_tia_h a v
  obtain ⟨tsys, tpending, tcycles, tbeam, -, -, triot, taudio, -, -, -, -, -, tcalls⟩ :=
    tickMovesEveryClock w (hbeam ▸ h0) (hbeam ▸ h1)
  refine ⟨hextra, ?_, tpending, ?_, ?_, ?_, ?_, ?_⟩
  · rw [tbeam, hbeam]
    push_cast
    rw [hextra, beam_after_stall]
  · rw [tcycles, b.poke_cycles]
  · rw [tsys, b.poke_sysclk]
    omega
  · rw [triot, Bus.poke_riot_of_tia ha]
    push_cast
    omega
  · rw [taudio, b.poke_audio_residue, b.poke_cfg]
    push_cast
    rw [hextra, add_comm 3, ← add_assoc]
  · rw [tcalls, Bus.poke_wsync_portCalls ha hi]

end Sys2Proof.Machine
end

section
/-!
PROOFS. Effective addresses (spec/30_encoding.md R105 to R110).
-/

namespace Sys2Proof.Machine

section
variable (s : State)

/-! ### Fetching a 16-bit operand and adding an index -/

/-- A fetched 16-bit operand is the byte at `pc` and, above it, the one after (R107). -/
@[simp] theorem State.fetchWord_fst :
    s.fetchWord.1 = wordOf (s.fetch.2.bus.tick.peek (s.cpu.pc + 1)).1 s.fetch.1 := rfl

/-- Fetching a 16-bit operand is two timed reads (R107). -/
@[simp] theorem State.fetchWord_bus : s.fetchWord.2.bus = (s.fetch.2.bus.tick.peek (s.cpu.pc + 1)).2 := rfl

/-- Adding an index costs an idle cycle, except in a read that stays on the page (R108, R110). -/
@[simp] theorem State.index_bus (cls : AccessClass) (base : Word) (idx : Byte) :
    (s.index cls base idx).2.bus =
      if cls = .read ∧ page (base + zext16 idx) = page base then s.bus else s.bus.tick := by
  simp only [State.index]
  split <;> rfl

/-- Forming an address by indexing, as one pair: the sum modulo 65536, and the idle cycle of R108 and R110. -/
theorem State.index_eq (cls : AccessClass) (base : Word) (idx : Byte) :
    s.index cls base idx =
      (base + zext16 idx,
        { cpu := s.cpu
          bus := if cls = .read ∧ page (base + zext16 idx) = page base then s.bus else s.bus.tick }) :=
  Prod.ext (s.index_fst cls base idx) (State.eq_of (s.index_cpu cls base idx) (s.index_bus cls base idx))

/-- Fetching a 16-bit operand, as one pair (R107). -/
theorem State.fetchWord_eq :
    s.fetchWord =
      (wordOf (s.fetch.2.bus.tick.peek (s.cpu.pc + 1)).1 s.fetch.1,
        { cpu := { s.cpu with pc := s.cpu.pc + 2 }, bus := (s.fetch.2.bus.tick.peek (s.cpu.pc + 1)).2 }) :=
  Prod.ext s.fetchWord_fst (State.eq_of s.fetchWord_cpu s.fetchWord_bus)

/-! ### The modes that index a 16-bit address -/

/-- Absolute indexed indexes the fetched address (R108). -/
theorem State.effAddr_absIndexed (cls : AccessClass) {m : Mem} {idx : Byte}
    (h : (m = .abx ∧ idx = s.cpu.x) ∨ (m = .aby ∧ idx = s.cpu.y)) :
    s.effAddr m cls = s.fetchWord.2.index cls s.fetchWord.1 idx := by
  obtain ⟨rfl, rfl⟩ | ⟨rfl, rfl⟩ := h <;> rfl

/-- `(zp),Y` indexes the pointer read at the operand byte (R110). -/
theorem State.effAddr_izy (cls : AccessClass) :
    s.effAddr .izy cls =
      (s.fetch.2.zpPointer s.fetch.1).2.index cls (s.fetch.2.zpPointer s.fetch.1).1 s.cpu.y := rfl

end

/-- Settles O7: the zero-page modes and `(zp,X)` are a fetch with at most one idle cycle and a pointer read, by
definition; absolute is `fetchWord_eq`, and the two forms that index a 16-bit address are `index_eq` at it. -/
theorem effectiveAddresses : Obligations.EffectiveAddresses := by
  unfold Obligations.EffectiveAddresses
  intro cls s b1 b2 base c1 c2 q lo hi lo' hi' base'
  have hword : s.fetchWord = (base, { cpu := c2, bus := b2.2 }) := s.fetchWord_eq
  have hpointer : s.fetch.2.zpPointer s.fetch.1 = (base', { cpu := c1, bus := hi'.2 }) := rfl
  refine ⟨rfl, rfl, rfl, hword, ?_, rfl, ?_⟩
  · intro m idx hm
    rw [s.effAddr_absIndexed cls hm, hword, State.index_eq]
  · rw [s.effAddr_izy cls, hpointer, State.index_eq]

end Sys2Proof.Machine
end

section
/-!
PROOFS. Loads, stores and transfers (spec/40_load_store_transfer.md R130 to R141).
-/

namespace Sys2Proof.Machine

/-- An instruction answers the state made of the two halves of its result. -/
theorem next_of_halves {s : State} {c : Cpu} {b : Bus} (hc : s.cpu = c) (hb : s.bus = b) :
    (.next s : Host.Outcome State Fault Refusal) = .next { cpu := c, bus := b } :=
  congrArg Host.Outcome.next (State.eq_of hc hb)

/-- Reading an operand and setting `N Z` from the byte read moves the program counter and writes the two flags
(R8, R104, R111). -/
theorem State.setNZ_readSrc_cpu (s : State) (o : Src) :
    ((s.readSrc o).2.setNZ (s.readSrc o).1).cpu =
      { s.cpu with
        pc := s.cpu.pc + operandLength o.format, n := (s.readSrc o).1.getLsbD 7, z := (s.readSrc o).1 == 0 } := by
  rw [State.setNZ_cpu, State.readSrc_cpu]
  rfl

/-- Settles O9: the operand read and `SetNZ` are the same in the three loads, and the register's write commutes with
`SetNZ`. -/
theorem loads : Obligations.Loads := by
  unfold Obligations.Loads
  refine ⟨by decide, by decide, by decide, ?_⟩
  intro o s v c
  have hflags : ((s.readSrc o).2.setNZ v).cpu = c := s.setNZ_readSrc_cpu o
  exact ⟨next_of_halves (congrArg (fun c : Cpu => { c with a := v }) hflags) rfl,
    next_of_halves (congrArg (fun c : Cpu => { c with x := v }) hflags) rfl,
    next_of_halves (congrArg (fun c : Cpu => { c with y := v }) hflags) rfl⟩

/-- Settles O10: each store is the model's one store operation with its register as the byte. -/
theorem stores : Obligations.Stores := by
  unfold Obligations.Stores
  refine ⟨by decide, by decide, by decide, ?_⟩
  intro m s ea b c
  have hstore (v : Byte) :
      (.next (s.store m v) : Host.Outcome State Fault Refusal) = .next { cpu := c, bus := b.tick.poke ea v } :=
    next_of_halves (s.store_cpu m v) (s.store_bus m v)
  exact ⟨hstore s.cpu.a, hstore s.cpu.x, hstore s.cpu.y⟩

/-- Settles O11: a transfer is an idle cycle, the copy and, except for TXS, `SetNZ`; each touches its own fields by
definition. -/
theorem transfers : Obligations.Transfers := by
  unfold Obligations.Transfers
  refine ⟨by decide, ?_⟩
  intro s nz
  exact ⟨rfl, rfl, rfl, rfl, rfl, rfl⟩

end Sys2Proof.Machine
end

section
/-!
PROOFS. Arithmetic, compare, increment and decrement instructions (spec/41_arithmetic.md R150 to R164).
-/

namespace Sys2Proof.Machine

/-! ### Flags of a result given as a number -/

/-- `N` of a number's low byte is its bit 7 (R8). -/
@[simp] theorem negFlag_ofNat (n : Nat) : negFlag (BitVec.ofNat 8 n) = n.testBit 7 := by
  rw [negFlag, BitVec.getLsbD_ofNat]
  exact Bool.true_and _

/-- `Z` of a number's low byte (R8). -/
@[simp] theorem zeroFlag_ofNat (n : Nat) : zeroFlag (BitVec.ofNat 8 n) = decide (n % 256 = 0) := by
  rw [zeroFlag, Bool.beq_eq_decide_eq, decide_eq_decide]
  exact BitVec.toNat_inj.symm

/-- `Z` of a difference is equality (R154). -/
@[simp] theorem zeroFlag_sub (r v : Byte) : zeroFlag (r - v) = decide (r = v) := by
  rw [zeroFlag, Bool.beq_eq_decide_eq, decide_eq_decide]
  exact sub_eq_zero

/-- `N` of a difference is bit 7 of the difference mod 256 (R154). -/
@[simp] theorem negFlag_sub (r v : Byte) : negFlag (r - v) = ((r.toNat + 256 - v.toNat) % 256).testBit 7 := by
  have hsub : (r - v).toNat = (r.toNat + 256 - v.toNat) % 256 := by bv_omega
  rw [← hsub]
  rfl

/-- Masking with `0x80` keeps the sign bit. -/
theorem and_0x80_ne_zero (b : Byte) : (b &&& 0x80 != 0) = b.msb := by
  revert b
  decide

/-- An addition overflows when its result's sign differs from both operands' signs (R150). -/
theorem addOverflow_eq_msb (x y r : Byte) : addOverflow x y r = ((x.msb ^^ r.msb) && (y.msb ^^ r.msb)) := by
  rw [addOverflow, and_0x80_ne_zero, BitVec.msb_and, BitVec.msb_xor, BitVec.msb_xor]

/-- `addOverflow` as the proposition R150 writes. -/
theorem addOverflow_eq_decide (x y r : Byte) :
    addOverflow x y r = decide ((x ^^^ r) &&& (y ^^^ r) &&& 0x80 ≠ 0) := by
  rw [addOverflow, bne, Bool.beq_eq_decide_eq, decide_not]

/-! ### The complement of an operand -/

/-- The byte R152 adds is the complement of the operand. -/
theorem xor_ff_eq_not (v : Byte) : v ^^^ 0xFF = ~~~v := BitVec.xor_allOnes

/-- The signed value of a byte's complement. -/
theorem Byte.toInt_not (v : Byte) : (~~~v).toInt = -1 - v.toInt := by
  have hv : v.toNat < 256 := v.isLt
  simp only [BitVec.toInt_eq_toNat_cond, BitVec.toNat_not]
  omega

/-! ### Binary mode -/

theorem bitNat_le_one (b : Bool) : bitNat b ≤ 1 := by cases b <;> decide

theorem bitNat_decide (p : Prop) [Decidable p] : bitNat (decide p) = if p then 1 else 0 := by
  simp only [bitNat, decide_eq_true_eq]

section
variable (a v : Byte) (c : Bool)

/-- The accumulator and the carry together are the unsigned sum (R150). -/
theorem adcBinary_sum :
    a.toNat + v.toNat + bitNat c = (adcBinary a v c).value.toNat + 256 * bitNat (adcBinary a v c).c := by
  have hc : bitNat c ≤ 1 := bitNat_le_one c
  simp only [adcBinary, BitVec.toNat_ofNat, bitNat_decide]
  split <;> omega

/-- `V` says that the signed sum is outside -128..127 (R150). -/
theorem adcBinary_v_iff :
    (adcBinary a v c).v = true ↔
      a.toInt + v.toInt + bitNat c < -128 ∨ 127 < a.toInt + v.toInt + bitNat c := by
  have hc : bitNat c ≤ 1 := bitNat_le_one c
  simp only [adcBinary, addOverflow_eq_msb, BitVec.msb_eq_decide, BitVec.toInt_eq_toNat_cond, BitVec.toNat_ofNat,
    Bool.and_eq_true, bne_iff_ne, ne_eq, decide_eq_decide]
  omega

/-- SBC in binary mode is ADC of the complement (R152). -/
theorem sbcBinary_eq_adcBinary_not : sbcBinary a v c = adcBinary a (~~~v) c := by
  rw [← xor_ff_eq_not]
  rfl

/-- The accumulator and the borrow together are the unsigned difference (R152). -/
theorem sbcBinary_diff :
    (a.toNat : Int) - v.toNat - (1 - bitNat c) =
      (sbcBinary a v c).value.toNat - 256 * (1 - bitNat (sbcBinary a v c).c) := by
  have hsum := adcBinary_sum a (~~~v) c
  rw [sbcBinary_eq_adcBinary_not]
  rw [BitVec.toNat_not] at hsum
  omega

/-- `V` says that the signed difference is outside -128..127 (R152). -/
theorem sbcBinary_v_iff :
    (sbcBinary a v c).v = true ↔
      a.toInt - v.toInt - (1 - bitNat c) < -128 ∨ 127 < a.toInt - v.toInt - (1 - bitNat c) := by
  rw [sbcBinary_eq_adcBinary_not, adcBinary_v_iff, Byte.toInt_not]
  omega

/-- The accumulator of an addition, mod 256 (R150). -/
theorem adcBinary_value : (adcBinary a v c).value = a + v + BitVec.ofNat 8 (bitNat c) := by
  simp only [adcBinary, BitVec.ofNat_add, BitVec.ofNat_toNat, BitVec.setWidth_eq]

/-- The accumulator of a subtraction, mod 256 (R152). -/
theorem sbcBinary_value : (sbcBinary a v c).value = a - v - 1 + BitVec.ofNat 8 (bitNat c) := by
  rw [sbcBinary_eq_adcBinary_not, adcBinary_value, BitVec.not_eq_neg_add]
  bv_omega

/-- ADC of an operand is SBC of its complement (R164). -/
theorem adcBinary_eq_sbcBinary_xor : adcBinary a v c = sbcBinary a (v ^^^ 0xFF) c := by
  rw [sbcBinary_eq_adcBinary_not, xor_ff_eq_not, BitVec.not_not]

end

/-! ### Decimal mode -/

/-- A byte holds a two-digit BCD number. -/
theorem toNat_ofNat_bcd {h l : Nat} (hh : h < 10) (hl : l < 10) : (BitVec.ofNat 8 (16 * h + l)).toNat = 16 * h + l := by
  rw [BitVec.toNat_ofNat]
  omega

/-- The low digit of a BCD number. -/
theorem bcd_mod {h l : Nat} (hl : l < 10) : (16 * h + l) % 16 = l := by omega

/-- The high digit of a BCD number, in its place. -/
theorem bcd_div_mul {h l : Nat} (hl : l < 10) : (16 * h + l) / 16 * 16 = 16 * h := by omega

/-- A sum of two digits and a carry is a digit and a carry. -/
theorem exists_carry_digit {x : Nat} (hx : x < 20) : ∃ k d, (k = 0 ∨ k = 1) ∧ d < 10 ∧ x = 10 * k + d :=
  ⟨x / 10, x % 10, by omega, by omega, by omega⟩

/-- A difference of two digits and a borrow is a digit and a borrow, the borrow counted as -1. -/
theorem exists_borrow_digit {x : Int} (h0 : -10 ≤ x) (h1 : x < 10) :
    ∃ k d : Int, (k = 0 ∨ k = -1) ∧ (0 ≤ d ∧ d < 10) ∧ x = 10 * k + d :=
  ⟨x / 10, x % 10, by omega, by omega, by omega⟩

/-- The correction of the low digit's sum makes its decimal carry a carry into bit 4 (R151). -/
theorem lowDigit_add {k d : Nat} (hk : k = 0 ∨ k = 1) (hd : d < 10) :
    (if 10 ≤ 10 * k + d then (10 * k + d + 6) % 16 + 16 else 10 * k + d) = 16 * k + d := by
  split <;> omega

/-- The correction of the whole sum makes the high digit's decimal carry a carry out of the byte (R151). -/
theorem highDigit_add {m h d : Nat} (hm : m = 0 ∨ m = 1) (hh : h < 10) (hd : d < 10) :
    (if 160 ≤ 16 * (10 * m + h) + d then 16 * (10 * m + h) + d + 96 else 16 * (10 * m + h) + d) =
      256 * m + (16 * h + d) := by
  split <;> omega

/-- The correction of the low digit's difference makes its decimal borrow a borrow from bit 4 (R153). -/
theorem lowDigit_sub {k d : Int} (hk : k = 0 ∨ k = -1) (hd : 0 ≤ d ∧ d < 10) :
    (if 10 * k + d < 0 then (10 * k + d - 6) % 16 - 16 else 10 * k + d) = 16 * k + d := by
  split <;> omega

/-- The correction of the whole difference makes the high digit's decimal borrow a borrow from beyond the byte
(R153). -/
theorem highDigit_sub {m h d : Int} (hm : m = 0 ∨ m = -1) (hh : 0 ≤ h ∧ h < 10) (hd : 0 ≤ d ∧ d < 10) :
    (if 16 * (10 * m + h) + d < 0 then 16 * (10 * m + h) + d - 96 else 16 * (10 * m + h) + d) =
      256 * m + (16 * h + d) := by
  split <;> omega

section
variable {h1 l1 h2 l2 : Nat} (hh1 : h1 < 10) (hl1 : l1 < 10) (hh2 : h2 < 10) (hl2 : l2 < 10) (c : Bool)
include hh1 hl1 hh2 hl2

/-- Decimal ADC adds two-digit decimal numbers: each correction turns a digit's decimal carry into a binary one
(R151, R164). -/
theorem adcDecimal_of_bcd :
    let r := adcDecimal (BitVec.ofNat 8 (16 * h1 + l1)) (BitVec.ofNat 8 (16 * h2 + l2)) c
    let sum := (10 * h1 + l1) + (10 * h2 + l2) + bitNat c
    r.value = BitVec.ofNat 8 (16 * (sum % 100 / 10) + sum % 10) ∧ r.c = decide (100 ≤ sum) := by
  intro r sum
  have hc : bitNat c ≤ 1 := bitNat_le_one c
  obtain ⟨k, d, hk, hd, hlow⟩ := exists_carry_digit (x := l1 + l2 + bitNat c) (by omega)
  obtain ⟨m, h, hm, hh, hhigh⟩ := exists_carry_digit (x := h1 + h2 + k) (by omega)
  have hsum : sum = 100 * m + (10 * h + d) := by omega
  have ht : 16 * h1 + 16 * h2 + (16 * k + d) = 16 * (10 * m + h) + d := by omega
  obtain ⟨hvalue, hcarry⟩ :
      r.value = BitVec.ofNat 8 (256 * m + (16 * h + d)) ∧ r.c = decide (256 ≤ 256 * m + (16 * h + d)) := by
    simp only [r, adcDecimal, toNat_ofNat_bcd, bcd_mod, bcd_div_mul, hh1, hl1, hh2, hl2, hlow, lowDigit_add hk hd, ht,
      highDigit_add hm hh hd, and_self]
  obtain ⟨htens, hones⟩ : sum % 100 / 10 = h ∧ sum % 10 = d := by omega
  rw [hvalue, hcarry, htens, hones, decide_eq_decide]
  constructor
  · apply BitVec.eq_of_toNat_eq
    rw [BitVec.toNat_ofNat, BitVec.toNat_ofNat, Nat.mul_add_mod]
  · omega

/-- Decimal SBC subtracts two-digit decimal numbers: each correction turns a digit's decimal borrow into a binary one
(R153, R164). -/
theorem sbcDecimal_of_bcd :
    let r := sbcDecimal (BitVec.ofNat 8 (16 * h1 + l1)) (BitVec.ofNat 8 (16 * h2 + l2)) c
    let diff : Int := (10 * h1 + l1 : Nat) - (10 * h2 + l2 : Nat) - (1 - bitNat c)
    r.value = BitVec.ofInt 8 (16 * (diff % 100 / 10) + diff % 10) ∧ r.c = decide (0 ≤ diff) := by
  intro r diff
  have hc : bitNat c ≤ 1 := bitNat_le_one c
  obtain ⟨k, d, hk, hd, hlow⟩ := exists_borrow_digit (x := l1 - l2 + bitNat c - 1) (by omega) (by omega)
  obtain ⟨m, h, hm, hh, hhigh⟩ := exists_borrow_digit (x := h1 - h2 + k) (by omega) (by omega)
  have hdiff : diff = 100 * m + (10 * h + d) := by omega
  have ht : ((16 * h1 : Nat) : Int) - (16 * h2 : Nat) + (16 * k + d) = 16 * (10 * m + h) + d := by omega
  have hvalue : r.value = BitVec.ofInt 8 (256 * m + (16 * h + d)) := by
    simp only [r, sbcDecimal, toNat_ofNat_bcd, bcd_mod, bcd_div_mul, hh1, hl1, hh2, hl2, hlow, lowDigit_sub hk hd, ht,
      highDigit_sub hm hh hd]
  have hcarry : r.c = decide (256 ≤ 16 * h1 + l1 + (2 ^ 8 - 1 - (16 * h2 + l2)) + bitNat c) := by
    simp only [r, sbcDecimal, sbcBinary, xor_ff_eq_not, BitVec.toNat_not, toNat_ofNat_bcd, hh1, hl1, hh2, hl2]
  obtain ⟨htens, hones⟩ : diff % 100 / 10 = h ∧ diff % 10 = d := by omega
  rw [hvalue, hcarry, htens, hones, decide_eq_decide]
  constructor
  · apply BitVec.eq_of_toNat_eq
    rw [BitVec.toNat_ofInt, BitVec.toNat_ofInt]
    exact congrArg Int.toNat (Int.mul_add_emod_self_left 256 m _)
  · omega

end

/-- Settles O16: in binary mode the accumulators are sums and differences mod 256; in decimal mode the digits of the
result are those of the decimal sum or difference. -/
theorem arithmeticLaws : Obligations.ArithmeticLaws := by
  unfold Obligations.ArithmeticLaws
  constructor
  · intro a b
    simp only [adcResult, sbcResult, Bool.false_eq_true, if_false, sbcBinary_value, adcBinary_value, bitNat, if_true]
    refine ⟨by bv_omega, by bv_omega, by bv_omega, adcBinary_eq_sbcBinary_xor a b⟩
  · intro h1 l1 h2 l2 c hh1 hl1 hh2 hl2 a v sum diff
    obtain ⟨hadc, hadcC⟩ := adcDecimal_of_bcd hh1 hl1 hh2 hl2 c
    obtain ⟨hsbc, hsbcC⟩ := sbcDecimal_of_bcd hh1 hl1 hh2 hl2 c
    exact ⟨hadc, hadcC, hsbc, hsbcC⟩

/-! ### The instructions -/

/-- Reading an operand and writing an arithmetic result moves the program counter and writes the accumulator and the
four flags (R150 to R153). -/
theorem State.next_setAlu_readSrc (s : State) (o : Src) (r : AluResult) :
    (.next ((s.readSrc o).2.setAlu r) : Host.Outcome State Fault Refusal) =
      .next
        { cpu :=
            { s.cpu with
              pc := s.cpu.pc + operandLength o.format, a := r.value, c := r.c, v := r.v, n := r.n, z := r.z }
          bus := (s.readSrc o).2.bus } :=
  next_of_halves (by rw [State.setAlu_cpu, State.readSrc_cpu]) rfl

/-- ADC writes the result of the mode that `D` selects (R150, R151). -/
theorem exec_adc (o : Src) (s : State) :
    exec (.adc o) s = .next ((s.readSrc o).2.setAlu (adcResult s.cpu.d s.cpu.a (s.readSrc o).1 s.cpu.c)) := by
  change execAdc o s = _
  rw [execAdc, State.readSrc_cpu]

/-- SBC writes the result of the mode that `D` selects (R152, R153). -/
theorem exec_sbc (o : Src) (s : State) :
    exec (.sbc o) s = .next ((s.readSrc o).2.setAlu (sbcResult s.cpu.d s.cpu.a (s.readSrc o).1 s.cpu.c)) := by
  change execSbc o s = _
  rw [execSbc, State.readSrc_cpu]

/-- Settles O12: the result is `adcBinary`'s, whose value and carry are the unsigned sum and whose `V` is the signed
overflow. -/
theorem adcBinary_holds : Obligations.AdcBinary := by
  unfold Obligations.AdcBinary
  refine ⟨by decide, ?_⟩
  intro o s hd
  let r := adcBinary s.cpu.a (s.readSrc o).1 s.cpu.c
  refine ⟨r.value, r.c, r.v, ?_, adcBinary_sum _ _ _, adcBinary_v_iff _ _ _⟩
  rw [exec_adc, hd]
  exact s.next_setAlu_readSrc o r

/-- Settles O13: the result is `sbcBinary`'s, whose value and carry are the unsigned difference and whose `V` is the
signed overflow. -/
theorem sbcBinary_holds : Obligations.SbcBinary := by
  unfold Obligations.SbcBinary
  refine ⟨by decide, ?_⟩
  intro o s hd
  let r := sbcBinary s.cpu.a (s.readSrc o).1 s.cpu.c
  refine ⟨r.value, r.c, r.v, ?_, sbcBinary_diff _ _ _, sbcBinary_v_iff _ _ _⟩
  rw [exec_sbc, hd]
  exact s.next_setAlu_readSrc o r

/-- Settles O14: the result is `adcDecimal`'s, with its digits and flags written as the rule writes them. -/
theorem adcDecimal_holds : Obligations.AdcDecimal := by
  unfold Obligations.AdcDecimal
  refine ⟨by decide, ?_⟩
  intro o s hd
  simp only [exec_adc, hd, State.next_setAlu_readSrc, adcResult, if_true, adcDecimal, negFlag_ofNat, zeroFlag_ofNat,
    addOverflow_eq_decide, Nat.div_mul_self_eq_mod_sub_self]

/-- Settles O15: the flags are the binary subtraction's, the accumulator is `sbcDecimal`'s. -/
theorem sbcDecimal_holds : Obligations.SbcDecimal := by
  unfold Obligations.SbcDecimal
  refine ⟨by decide, ?_⟩
  intro o s hd
  simp only [exec_sbc, hd, State.next_setAlu_readSrc, sbcResult, if_true, sbcDecimal, sbcBinary, negFlag_ofNat,
    zeroFlag_ofNat, addOverflow_eq_decide, Nat.div_mul_self_eq_mod_sub_self, Int.natCast_mod, Nat.cast_ofNat]

/-- A comparison after an operand read moves the program counter and writes three flags (R154 to R156). -/
theorem State.next_compare_readSrc (s : State) (o : Src) (r : Byte) :
    (.next ((s.readSrc o).2.compare r (s.readSrc o).1) : Host.Outcome State Fault Refusal) =
      .next
        { cpu :=
            { s.cpu with
              pc := s.cpu.pc + operandLength o.format, c := decide ((s.readSrc o).1.toNat ≤ r.toNat),
              z := decide (r = (s.readSrc o).1), n := ((r.toNat + 256 - (s.readSrc o).1.toNat) % 256).testBit 7 }
          bus := (s.readSrc o).2.bus } :=
  next_of_halves (by rw [State.compare_cpu, State.readSrc_cpu, zeroFlag_sub, negFlag_sub]) rfl

/-- Settles O17: the three instructions are one comparison, each with its own register, which the operand read leaves
as it was. -/
theorem compares : Obligations.Compares := by
  unfold Obligations.Compares
  refine ⟨by decide, by decide, by decide, ?_⟩
  intro o s v result
  have hregister (f : Cpu → Byte) (hf : f (s.readSrc o).2.cpu = f s.cpu) :
      (.next ((s.readSrc o).2.compare (f (s.readSrc o).2.cpu) v) : Host.Outcome State Fault Refusal) =
        result (f s.cpu) := by
    rw [hf]
    exact s.next_compare_readSrc o _
  exact ⟨hregister Cpu.a (by rw [State.readSrc_cpu]), hregister Cpu.x (by rw [State.readSrc_cpu]),
    hregister Cpu.y (by rw [State.readSrc_cpu])⟩

/-- One more, mod 256 (R157). -/
theorem Byte.add_one_eq_ofNat (v : Byte) : v + 1 = BitVec.ofNat 8 (v.toNat + 1) := by bv_omega

/-- One less, mod 256 (R160). -/
theorem Byte.sub_one_eq_ofNat (v : Byte) : v - 1 = BitVec.ofNat 8 (v.toNat + 255) := by bv_omega

/-- Writing back the result of a read-modify-write and setting `N Z` from it (R111, R157, R160). -/
theorem State.next_setNZ_rmw (s : State) (m : Mem) (w : Byte) :
    (.next (((s.rmwRead m).2.2.memWrite (s.rmwRead m).1 w).setNZ w) : Host.Outcome State Fault Refusal) =
      .next
        { cpu := { s.cpu with pc := s.cpu.pc + operandLength m.format, n := w.getLsbD 7, z := w == 0 }
          bus := ((s.effAddr m .rmw).2.bus.tick.peek (s.effAddr m .rmw).1).2.tick.tick.poke (s.effAddr m .rmw).1 w } :=
  next_of_halves (by rw [State.setNZ_cpu, State.memWrite_cpu, State.rmwRead_cpu]; rfl) rfl

/-- Settles O18: INC and DEC are one read-modify-write with the byte one more or one less; the register forms are an
idle cycle and `SetNZ`. -/
theorem incrementsAndDecrements : Obligations.IncrementsAndDecrements := by
  unfold Obligations.IncrementsAndDecrements
  refine ⟨by decide, by decide, by decide, ?_, ?_⟩
  · intro m s ea r result
    rw [← Byte.add_one_eq_ofNat, ← Byte.sub_one_eq_ofNat]
    exact ⟨s.next_setNZ_rmw m _, s.next_setNZ_rmw m _⟩
  · intro s x y
    rw [← Byte.add_one_eq_ofNat, ← Byte.sub_one_eq_ofNat, ← Byte.add_one_eq_ofNat, ← Byte.sub_one_eq_ofNat]
    exact ⟨rfl, rfl, rfl, rfl⟩

end Sys2Proof.Machine
end

section
/-!
PROOFS. Logic, bit test, shift and rotate instructions (spec/42_logic_shift.md R170 to R178).
-/

namespace Sys2Proof.Machine

/-! ### Logic and BIT -/

/-- A logic instruction combines the operand with the accumulator, which the operand read leaves as it was, writes the
accumulator and sets `N Z` (R111, R170 to R172). -/
theorem State.next_logic_readSrc (s : State) (o : Src) (op : Byte → Byte → Byte) :
    let w := op s.cpu.a (s.readSrc o).1
    (.next (((s.readSrc o).2.setA (op (s.readSrc o).2.cpu.a (s.readSrc o).1)).setNZ
        (op (s.readSrc o).2.cpu.a (s.readSrc o).1)) : Host.Outcome State Fault Refusal) =
      .next
        { cpu := { s.cpu with pc := s.cpu.pc + operandLength o.format, a := w, n := w.getLsbD 7, z := w == 0 }
          bus := (s.readSrc o).2.bus } :=
  next_of_halves (by rw [State.setNZ_cpu, State.setA_cpu, State.readSrc_cpu]; rfl) rfl

/-- Settles O19: AND, ORA and EOR are one operation with its own function of the accumulator and the operand; BIT
writes its three flags after the operand read. -/
theorem logicAndBit : Obligations.LogicAndBit := by
  unfold Obligations.LogicAndBit
  refine ⟨by decide, by decide, by decide, by decide, ?_, ?_⟩
  · intro o s v result
    exact ⟨s.next_logic_readSrc o (· &&& ·), s.next_logic_readSrc o (· ||| ·), s.next_logic_readSrc o (· ^^^ ·)⟩
  · intro m s v
    exact next_of_halves (by rw [State.setV_cpu, State.setNZFlags_cpu, State.readSrc_cpu]; rfl) rfl

/-! ### The shifts as arithmetic on the byte and the carry -/

/-- The bit that leaves on the left (R174, R176). -/
theorem Byte.getLsbD_seven (v : Byte) : v.getLsbD 7 = decide (128 ≤ v.toNat) := v.msb_eq_decide

/-- The bit that leaves on the right (R175, R177). -/
theorem Byte.getLsbD_zero (v : Byte) : v.getLsbD 0 = decide (v.toNat % 2 = 1) := Nat.testBit_zero v.toNat

/-- Shifting left doubles the byte, mod 256 (R174). -/
theorem Byte.shiftLeft_one (v : Byte) : v <<< 1 = BitVec.ofNat 8 (2 * v.toNat) := by bv_omega

/-- Shifting right halves the byte (R175). -/
theorem Byte.shiftRight_one (v : Byte) : v >>> 1 = BitVec.ofNat 8 (v.toNat / 2) := by bv_omega

/-- The shift left doubles the byte; the carry is the bit worth 128 (R174). -/
theorem aslBits_eq (v : Byte) (c : Bool) :
    aslBits v c = (BitVec.ofNat 8 (2 * v.toNat), decide (128 ≤ v.toNat)) := by
  rw [aslBits, Byte.shiftLeft_one, Byte.getLsbD_seven]

/-- The shift right halves the byte; the carry is the remainder (R175). -/
theorem lsrBits_eq (v : Byte) (c : Bool) :
    lsrBits v c = (BitVec.ofNat 8 (v.toNat / 2), decide (v.toNat % 2 = 1)) := by
  rw [lsrBits, Byte.shiftRight_one, Byte.getLsbD_zero]

/-- The carry enters at bit 0, which the shift left clear, so that it is added (R176). -/
theorem rolBits_eq (v : Byte) (c : Bool) :
    rolBits v c = (BitVec.ofNat 8 (2 * v.toNat + bitNat c), decide (128 ≤ v.toNat)) := by
  have hc : bitNat c < 2 ^ 1 := Nat.lt_succ_of_le (bitNat_le_one c)
  have hshift : (v <<< 1).toNat = 2 ^ 1 * (v.toNat % 128) := by bv_omega
  have hcarry : ((BitVec.ofBool c).setWidth 8).toNat = bitNat c := by cases c <;> rfl
  have hvalue : v <<< 1 ||| (BitVec.ofBool c).setWidth 8 = BitVec.ofNat 8 (2 * v.toNat + bitNat c) := by
    apply BitVec.eq_of_toNat_eq
    rw [BitVec.toNat_or, hshift, hcarry, ← Nat.two_pow_add_eq_or_of_lt hc, BitVec.toNat_ofNat]
    omega
  rw [rolBits, hvalue, Byte.getLsbD_seven]

/-- The carry enters at bit 7, which the shift left clear, so that it is added (R177). -/
theorem rorBits_eq (v : Byte) (c : Bool) :
    rorBits v c = (BitVec.ofNat 8 (v.toNat / 2 + 128 * bitNat c), decide (v.toNat % 2 = 1)) := by
  have hc : bitNat c ≤ 1 := bitNat_le_one c
  have hshift : (v >>> 1).toNat = v.toNat / 2 := by bv_omega
  have hlt : v.toNat / 2 < 2 ^ 7 := by omega
  have hcarry : ((BitVec.ofBool c).setWidth 8 <<< 7).toNat = 2 ^ 7 * bitNat c := by cases c <;> rfl
  have hvalue : v >>> 1 ||| (BitVec.ofBool c).setWidth 8 <<< 7 = BitVec.ofNat 8 (v.toNat / 2 + 128 * bitNat c) := by
    apply BitVec.eq_of_toNat_eq
    rw [BitVec.toNat_or, hshift, hcarry, Nat.or_comm, ← Nat.two_pow_add_eq_or_of_lt hlt, BitVec.toNat_ofNat]
    omega
  rw [rorBits, hvalue, Byte.getLsbD_zero]

/-! ### The two forms of a shift -/

section
variable (s : State) {f : Byte → Bool → Byte × Bool} {w : Nat} {k : Bool}

/-- The accumulator form, for a shift whose result is the low byte of a number (R174 to R178). -/
theorem State.next_shift_acc (hf : f s.cpu.a s.cpu.c = (BitVec.ofNat 8 w, k)) :
    (.next (s.shift f .acc) : Host.Outcome State Fault Refusal) =
      .next
        { cpu := { s.cpu with a := BitVec.ofNat 8 w, c := k, n := w.testBit 7, z := decide (w % 256 = 0) }
          bus := s.bus.tick } :=
  next_of_halves (by simp [State.shift, hf]) rfl

/-- The read-modify-write form, for a shift whose result is the low byte of a number (R174 to R178). -/
theorem State.next_shift_mem (m : Mem)
    (hf : f ((s.effAddr m .rmw).2.bus.tick.peek (s.effAddr m .rmw).1).1 s.cpu.c = (BitVec.ofNat 8 w, k)) :
    (.next (s.shift f (.mem m)) : Host.Outcome State Fault Refusal) =
      .next
        { cpu :=
            { s.cpu with
              pc := s.cpu.pc + operandLength m.format, c := k, n := w.testBit 7, z := decide (w % 256 = 0) }
          bus :=
            ((s.effAddr m .rmw).2.bus.tick.peek (s.effAddr m .rmw).1).2.tick.tick.poke (s.effAddr m .rmw).1
              (BitVec.ofNat 8 w) } :=
  next_of_halves (by simp [State.shift, hf]) (by simp [State.shift, hf])

end

/-- Settles O20: each instruction is the common shift of its form with the function that its arithmetic equation
describes. -/
theorem shiftsAndRotates : Obligations.ShiftsAndRotates := by
  unfold Obligations.ShiftsAndRotates
  refine ⟨by decide, by decide, by decide, by decide, ?_⟩
  intro s c acc a
  refine ⟨s.next_shift_acc (aslBits_eq _ _), s.next_shift_acc (lsrBits_eq _ _), s.next_shift_acc (rolBits_eq _ _),
    s.next_shift_acc (rorBits_eq _ _), ?_⟩
  intro m ea r mem v
  exact ⟨s.next_shift_mem m (aslBits_eq _ _), s.next_shift_mem m (lsrBits_eq _ _), s.next_shift_mem m (rolBits_eq _ _),
    s.next_shift_mem m (rorBits_eq _ _)⟩

end Sys2Proof.Machine
end

section
/-!
PROOFS. Jumps, subroutine calls, returns, the software interrupt and branches (spec/43_control_flow.md R190 to R204).
-/

namespace Sys2Proof.Machine

/-! ### Distances on the stack -/

/-- Two pulls (R21). -/
theorem Byte.add_one_add_one (b : Byte) : b + 1 + 1 = b + 2 := by bv_omega

/-- A pull and the pull of a 16-bit value (R21). -/
theorem Byte.add_one_add_two (b : Byte) : b + 1 + 2 = b + 3 := by bv_omega

/-- The push of a 16-bit value and a push (R21). -/
theorem Byte.sub_two_sub_one (b : Byte) : b - 2 - 1 = b - 3 := by bv_omega

section
variable (s : State)

/-! ### 16-bit values on the stack, and the trap-like transfer made of them -/

/-- Pushing a 16-bit value writes the high byte at `S` and the low byte below it (R21, R192). -/
theorem State.pushWord_eq (w : Word) :
    s.pushWord w =
      { cpu := { s.cpu with s := s.cpu.s - 2 }
        bus := (s.push (page w)).bus.tick.poke (stackAddr (s.cpu.s - 1)) (lowByte w) } :=
  State.eq_of (s.pushWord_cpu w) rfl

/-- Pulling a 16-bit value reads the low byte one above `S` and the high byte two above it (R21, R193). -/
theorem State.pullWord_eq :
    s.pullWord =
      (wordOf (s.pull.2.bus.tick.peek (stackAddr (s.cpu.s + 2))).1 s.pull.1,
        { cpu := { s.cpu with s := s.cpu.s + 2 }, bus := (s.pull.2.bus.tick.peek (stackAddr (s.cpu.s + 2))).2 }) := by
  rw [← Byte.add_one_add_one]
  exact Prod.ext rfl (State.eq_of rfl rfl)

/-- The transfer pushes `pc` and the status byte as it was, three bytes in all, sets `I` and reads the vector
(R254). -/
theorem State.enterTrap_eq :
    let pushed := (s.pushWord s.cpu.pc).bus.tick.poke (stackAddr (s.cpu.s - 2)) (s.cpu.packP true)
    let lo := pushed.tick.peek 0xFFFE
    let hi := lo.2.tick.peek 0xFFFF
    s.enterTrap = { cpu := { s.cpu with pc := wordOf hi.1 lo.1, s := s.cpu.s - 3, i := true }, bus := hi.2 } := by
  dsimp only [State.enterTrap]
  rw [s.pushWord_eq, ← Byte.sub_two_sub_one]
  rfl

/-- The return pulls the flags one above `S` and the address from the two bytes above them (R255). -/
theorem State.returnFromTrap_eq :
    let p := s.pull.1
    let lo := s.pull.2.bus.tick.peek (stackAddr (s.cpu.s + 2))
    let hi := lo.2.tick.peek (stackAddr (s.cpu.s + 3))
    s.returnFromTrap =
      { cpu :=
          { s.cpu with
            pc := wordOf hi.1 lo.1, s := s.cpu.s + 3, n := p.getLsbD 7, v := p.getLsbD 6, d := p.getLsbD 3,
            i := p.getLsbD 2, z := p.getLsbD 1, c := p.getLsbD 0 }
        bus := hi.2 } := by
  dsimp only [State.returnFromTrap]
  rw [State.pullWord_eq, ← Byte.add_one_add_one s.cpu.s, ← Byte.add_one_add_two s.cpu.s]
  rfl

end

/-! ### Jumps -/

/-- Settles O21: the operand word is `fetchWord`'s, and the pointer's second address is the operand's page with the
low byte one more. -/
theorem jumps : Obligations.Jumps := by
  unfold Obligations.Jumps
  refine ⟨by decide, ?_⟩
  intro s lo hi tl th
  have hword : s.fetchWord = (wordOf hi.1 lo.1, { cpu := { s.cpu with pc := s.cpu.pc + 2 }, bus := hi.2 }) :=
    s.fetchWord_eq
  constructor
  · change execJmp .abs s = _
    rw [execJmp, hword]
    rfl
  · change execJmp .ind s = _
    rw [execJmp, hword, page_wordOf, lowByte_wordOf]
    rfl

/-! ### Subroutines -/

/-- Settles O22: JSR is `pushWord_eq` between the two operand reads, RTS is `pullWord_eq` between idle cycles. -/
theorem subroutineCallAndReturn : Obligations.SubroutineCallAndReturn := by
  unfold Obligations.SubroutineCallAndReturn
  refine ⟨by decide, ?_⟩
  intro s lo ret p1 p2 hi l h
  constructor
  · change execJsr s = _
    dsimp only [execJsr]
    rw [State.pushWord_eq]
    rfl
  · change execRts s = _
    rw [execRts, State.pullWord_eq]
    rfl

/-! ### The software interrupt and the return from it -/

/-- Settles O23: BRK skips its padding byte and enters the trap of `enterTrap_eq`, RTI is `returnFromTrap_eq` after two
idle cycles. -/
theorem brkAndRti : Obligations.BrkAndRti := by
  unfold Obligations.BrkAndRti
  refine ⟨by decide, ?_⟩
  intro s ret p1 p2 p3 lo hi p l h
  constructor
  · change Host.Outcome.next (s.idle.setPc ret).enterTrap = _
    rw [State.enterTrap_eq]
    rfl
  · change Host.Outcome.next s.idle.idle.returnFromTrap = _
    rw [State.returnFromTrap_eq]
    rfl

/-! ### Branches -/

/-- The signed offset added to a program counter, mod 65536, as an integer sum (R196). -/
theorem add_sext16_eq_ofInt (w : Word) (v : Byte) : w + sext16 v = BitVec.ofInt 16 (w.toInt + v.toInt) := by
  rw [BitVec.ofInt_add, BitVec.ofInt_toInt]
  rfl

/-- A branch reads its offset; taken, it goes to the target after one idle cycle, or two when the target is on another
page (R196). -/
theorem State.branch_eq (s : State) (taken : Bool) :
    let next := s.cpu.pc + 1
    let target := BitVec.ofInt 16 (next.toInt + s.fetch.1.toInt)
    s.branch taken =
      if taken then
        { cpu := { s.cpu with pc := target }
          bus := if page target = page next then s.fetch.2.bus.tick else s.fetch.2.bus.tick.tick }
      else { cpu := { s.cpu with pc := next }, bus := s.fetch.2.bus } := by
  intro next target
  cases taken with
  | false => rfl
  | true =>
    have htarget : next + sext16 s.fetch.1 = target := add_sext16_eq_ofInt next s.fetch.1
    change (if page (next + sext16 s.fetch.1) = page next then s.fetch.2.idle else s.fetch.2.idle.idle).setPc
      (next + sext16 s.fetch.1) = _
    rw [htarget]
    split <;> rfl

/-- Settles O24: the eight instructions are one branch, each with its own condition. -/
theorem branches : Obligations.Branches := by
  unfold Obligations.Branches
  refine ⟨by decide, ?_⟩
  intro s off next target branch
  have hbranch (taken : Bool) : Host.Outcome.next (s.branch taken) = branch taken :=
    congrArg Host.Outcome.next (s.branch_eq taken)
  exact ⟨hbranch _, hbranch _, hbranch _, hbranch _, hbranch _, hbranch _, hbranch _, hbranch _⟩

end Sys2Proof.Machine
end

section
/-!
PROOFS. Stack instructions, flag instructions, NOP and the unimplemented opcodes (spec/44_stack_flags_misc.md R220 to
R233).
-/

namespace Sys2Proof.Machine

/-! ### The stack page -/

/-- The stack address is in page 1 (R21): the sum does not wrap. -/
theorem stackAddr_toNat (sp : Byte) : (stackAddr sp).toNat = 0x100 + sp.toNat := by
  unfold stackAddr zext16
  bv_omega

/-- A bit of a stack address is one of `0x0100 + S` (R21). -/
theorem stackAddr_getLsbD (sp : Byte) (i : Nat) :
    (stackAddr sp).getLsbD i = decide ((0x100 + sp.toNat) / 2 ^ i % 2 = 1) := by
  rw [BitVec.getLsbD, stackAddr_toNat, Nat.testBit_eq_decide_div_mod_eq]

/-- Page 1 is outside the cartridge window and has bit 9 clear, so bit 7 of `S` alone chooses between RAM and the timing
chip (R21, R62). -/
theorem chipOf_stackAddr (sp : Byte) : chipOf (stackAddr sp) = if 0x80 ≤ sp.toNat then .ram else .tia := by
  have hlt := sp.isLt
  have h12 : (stackAddr sp).getLsbD 12 = false := by
    rw [stackAddr_getLsbD, decide_eq_false_iff_not]
    omega
  have h9 : (stackAddr sp).getLsbD 9 = false := by
    rw [stackAddr_getLsbD, decide_eq_false_iff_not]
    omega
  have h7 : (stackAddr sp).getLsbD 7 = decide (0x80 ≤ sp.toNat) := by
    rw [stackAddr_getLsbD, decide_eq_decide]
    omega
  rw [chipOf, h12, h9, h7]
  by_cases hsp : 0x80 ≤ sp.toNat <;> simp [hsp]

/-- The upper half of the stack page is RAM from its first byte (R21, R62). -/
theorem ramIndex_stackAddr {sp : Byte} (h : 0x80 ≤ sp.toNat) : ramIndex (stackAddr sp) = sp.toNat - 0x80 := by
  have hlt := sp.isLt
  rw [ramIndex, stackAddr_toNat]
  omega

/-- A push into the stack page selects the timing-chip register of `S` (R21, R62). -/
theorem tiaWriteIndex_stackAddr (sp : Byte) : tiaWriteIndex (stackAddr sp) = sp.toNat % 64 := by
  rw [tiaWriteIndex, stackAddr_toNat]
  omega

/-- Settles O26: `chipOf_stackAddr` splits the page, the stack pointer wraps as a byte does, and each instruction is its
idle cycles and one push or pull, by definition. -/
theorem stackInstructions : Obligations.StackInstructions := by
  unfold Obligations.StackInstructions
  refine ⟨by decide, ?page, ?instructions⟩
  case page =>
    intro sp
    refine ⟨stackAddr_toNat sp, ?upper, ?lower, ?pushWraps, ?pullWraps⟩
    case upper =>
      intro h
      exact ⟨by rw [chipOf_stackAddr, if_pos h], ramIndex_stackAddr h⟩
    case lower =>
      intro h
      exact ⟨by rw [chipOf_stackAddr, if_neg (Nat.not_le.mpr h)], tiaWriteIndex_stackAddr sp⟩
    case pushWraps =>
      intro s v h
      rw [State.push_cpu, h]
      rfl
    case pullWraps =>
      intro s h
      rw [State.pull_cpu, h]
      rfl
  case instructions =>
    intro s p down up
    exact ⟨rfl, rfl, rfl, rfl⟩

/-! ### Flags -/

/-- Settles O27: each instruction is one idle cycle and the write of one flag, or none, by definition. -/
theorem flagInstructionsAndNop : Obligations.FlagInstructionsAndNop := by
  unfold Obligations.FlagInstructionsAndNop
  refine ⟨by decide, ?_⟩
  intro s
  exact ⟨rfl, rfl, rfl, rfl, rfl, rfl, rfl, rfl⟩

/-! ### Unimplemented opcodes -/

/-- The opcode map has no instruction for a byte of the list (R112, R120). -/
theorem decodeOpcode_of_unimplemented {op : Byte} (h : unimplementedOpcodes.contains op.toNat = true) :
    decodeOpcode op = .unimpl op := by
  have hall : ∀ n ∈ unimplementedOpcodes, decodeOpcode (BitVec.ofNat 8 n) = .unimpl (BitVec.ofNat 8 n) := by decide
  have hop := hall op.toNat (List.contains_iff_mem.mp h)
  rwa [BitVec.ofNat_toNat, BitVec.setWidth_eq] at hop

/-- An unimplemented opcode does nothing after its fetch (R233). -/
theorem exec_unimpl (op : Byte) (s : State) : exec (.unimpl op) s = .next s := rfl

/-- The step of an unimplemented opcode is its fetch (R233). -/
theorem step_of_unimplemented {s : State} (h : unimplementedOpcodes.contains s.fetch.1.toNat = true) :
    step s = .next s.fetch.2 := by
  rw [step, decodeOpcode_of_unimplemented h, exec_unimpl]

/-- Settles O28: the step is the fetch, one cycle and one read, and neither changes RAM, a device register or a
fixture. -/
theorem unimplementedOpcodes_holds : Obligations.UnimplementedOpcodes := by
  unfold Obligations.UnimplementedOpcodes
  refine ⟨exec_unimpl, ?_⟩
  intro s hop
  have hlength : (decodeOpcode s.fetch.1).length = 1 := by
    rw [decodeOpcode_of_unimplemented hop]
    rfl
  have hcycles : s.fetch.2.bus.cycles = s.bus.cycles + 1 := by rw [State.fetch_bus, Bus.peek_cycles, Bus.tick_cycles]
  have htrash : s.fetch.2.bus.busTrash = s.fetch.1 := by rw [State.fetch_bus, Bus.peek_busTrash, State.fetch_fst]
  have hram : s.fetch.2.bus.ram = s.bus.ram := by rw [State.fetch_bus, Bus.peek_ram, Bus.tick_ram]
  exact ⟨hlength, s.fetch.2, step_of_unimplemented hop, s.fetch_cpu, hcycles, htrash, hram,
    (Bus.SameRegisters.refl s.bus).tick.peek s.cpu.pc, (Bus.SameFixtures.refl s.bus).tick.peek s.cpu.pc⟩

end Sys2Proof.Machine
end

section
/-!
PROOFS. No instruction stops the processor (spec/60_exceptions.md R250), and the processor cycles that its reads,
writes and idle cycles add up to (spec/30_encoding.md R108, R110, R111, R113; spec/43_control_flow.md R196).
-/

namespace Sys2Proof.Machine

section
variable (s : State)

/-! ### The cycles of the shared operations -/

theorem State.fetch_cycles : s.fetch.2.bus.cycles = s.bus.cycles + 1 := by simp

theorem State.fetchWord_cycles : s.fetchWord.2.bus.cycles = s.bus.cycles + 2 := by simp

@[simp] theorem State.readWord_cycles (a a' : Word) :
    (s.readWord a a').2.bus.cycles = s.bus.cycles + 2 := by simp [State.readWord]

@[simp] theorem State.zpPointer_cycles (q : Byte) : (s.zpPointer q).2.bus.cycles = s.bus.cycles + 2 :=
  s.readWord_cycles _ _

@[simp] theorem State.pushWord_cycles (w : Word) : (s.pushWord w).bus.cycles = s.bus.cycles + 2 := by
  simp [State.pushWord]

@[simp] theorem State.pullWord_cycles : s.pullWord.2.bus.cycles = s.bus.cycles + 2 := by simp [State.pullWord]

/-- The trap-like transfer is three pushes and the two reads of the vector (R254). -/
@[simp] theorem State.enterTrap_cycles : s.enterTrap.bus.cycles = s.bus.cycles + 5 := by
  simp [State.enterTrap, State.jumpVector]

/-- The return from it is three pulls (R255). -/
@[simp] theorem State.returnFromTrap_cycles : s.returnFromTrap.bus.cycles = s.bus.cycles + 3 := by
  simp [State.returnFromTrap]

/-- A read pays for the index when the sum leaves the page (R108, R110). -/
theorem State.index_read_cycles (base : Word) (idx : Byte) :
    (s.index .read base idx).2.bus.cycles = s.bus.cycles + crossing base idx := by
  simp only [State.index_bus, true_and, crossing]
  split <;> rfl

/-! ### The cycles of the operand accesses -/

/-- The address of a read takes what the read of that form takes without its access and the opcode fetch (R111). -/
theorem State.effAddr_read_cycles (m : Mem) :
    (s.effAddr m .read).2.bus.cycles + 2 = s.bus.cycles + (Src.mem m).baseCycles + m.crossingCycles s := by
  cases m
  case abx | aby =>
    simp only [State.effAddr, State.index_read_cycles, State.fetchWord_cycles, State.fetchWord_cpu, Src.baseCycles,
      Mem.crossingCycles]
    omega
  case izy =>
    simp only [State.effAddr, State.index_read_cycles, State.zpPointer_cycles, State.zpPointer_cpu, State.fetch_cpu,
      State.fetch_cycles, Src.baseCycles, Mem.crossingCycles]
    omega
  all_goals simp [State.effAddr, Src.baseCycles, Mem.crossingCycles]

/-- Reading a source operand, with the opcode fetch, takes the cycles of R113 and `+p` (R111). -/
theorem State.readSrc_cycles (o : Src) :
    (s.readSrc o).2.bus.cycles + 1 = s.bus.cycles + o.baseCycles + o.crossingCycles s := by
  cases o with
  | imm => exact congrArg (· + 1) s.fetch_cycles
  | mem m =>
    rw [State.readSrc, State.memRead_bus, Bus.peek_cycles, Bus.tick_cycles]
    exact s.effAddr_read_cycles m

/-- The address of a store or of a read-modify-write takes what the store of that form takes without its write and
the opcode fetch (R111). -/
theorem State.effAddr_cycles_of_ne_read {cls : AccessClass} (h : cls ≠ .read) (m : Mem) :
    (s.effAddr m cls).2.bus.cycles + 2 = s.bus.cycles + storeCycles m := by
  cases m <;> simp [State.effAddr, storeCycles, h]

/-- Storing, with the opcode fetch, takes the cycles of the write class (R111, R113). -/
theorem State.store_cycles (m : Mem) (v : Byte) : (s.store m v).bus.cycles + 1 = s.bus.cycles + storeCycles m := by
  rw [State.store_bus, Bus.poke_cycles, Bus.tick_cycles]
  exact s.effAddr_cycles_of_ne_read (by decide) m

/-- A read-modify-write is a store with a read and an idle cycle before its write (R111). -/
theorem rmwCycles_eq (m : Mem) : rmwCycles m = storeCycles m + 2 := by cases m <;> rfl

/-- A read-modify-write, with the opcode fetch, takes the cycles of its class, whatever it writes (R111, R113). -/
theorem State.memWrite_rmwRead_cycles (m : Mem) (v : Byte) :
    ((s.rmwRead m).2.2.memWrite (s.rmwRead m).1 v).bus.cycles + 1 = s.bus.cycles + rmwCycles m := by
  have haddr := s.effAddr_cycles_of_ne_read (cls := .rmw) (by decide) m
  rw [State.memWrite_bus, Bus.poke_cycles, Bus.tick_cycles, State.rmwRead_bus, Bus.tick_cycles, Bus.peek_cycles,
    Bus.tick_cycles, rmwCycles_eq]
  omega

/-- A shift, with the opcode fetch, takes the cycles R113 gives its form: the same for all four. -/
theorem State.shift_cycles (f : Byte → Bool → Byte × Bool) (l : ShiftLoc) :
    (s.shift f l).bus.cycles + 1 = s.bus.cycles + (Instr.asl l).baseCycles := by
  cases l with
  | acc => rfl
  | mem m => exact s.memWrite_rmwRead_cycles m _

/-- A branch, with the opcode fetch, takes two cycles and `+t+p` (R113, R196). -/
theorem State.branch_cycles (taken : Bool) :
    (s.branch taken).bus.cycles + 1 = s.bus.cycles + 2 + branchCycles taken s := by
  rw [State.branch_eq]
  cases taken with
  | false => simp [branchCycles]
  | true =>
    simp only [if_true, branchCycles, targetCrossing, add_sext16_eq_ofInt]
    split <;> simp

end

/-! ### Every instruction answers a next state -/

/-- An instruction answers a next state, after the cycles of R113 with `+p` and `+t+p` (R250; the one more is the opcode
fetch, which comes before). -/
theorem exec_next_cycles (i : Instr) (s : State) :
    ∃ t, exec i s = .next t ∧ t.bus.cycles + 1 = s.bus.cycles + i.baseCycles + i.extraCycles s := by
  cases i
  case adc o | and o | cmp o | cpx o | cpy o | eor o | lda o | ldx o | ldy o | ora o | sbc o =>
    exact ⟨_, rfl, s.readSrc_cycles o⟩
  case bit m => exact ⟨_, rfl, s.readSrc_cycles (.mem m)⟩
  case sta m | stx m | sty m => exact ⟨_, rfl, s.store_cycles m _⟩
  case inc m | dec m => exact ⟨_, rfl, s.memWrite_rmwRead_cycles m _⟩
  case asl l | lsr l | rol l | ror l =>
    refine ⟨_, rfl, ?_⟩
    cases l <;> exact s.shift_cycles _ _
  case bcc | bcs | beq | bmi | bne | bpl | bvc | bvs => exact ⟨_, rfl, s.branch_cycles _⟩
  case clc | cld | cli | clv | sec | sed | sei | dex | dey | inx | iny | tax | tay | tsx | txa | txs | tya | nop |
      unimpl =>
    exact ⟨_, rfl, rfl⟩
  case pha | php | pla | plp | rts | rti | brk | jsr =>
    exact ⟨_, rfl, by simp [Instr.baseCycles, Instr.extraCycles, Instr.condition]⟩
  case jmp t =>
    cases t <;> exact ⟨_, rfl, by simp [Instr.baseCycles, Instr.extraCycles, Instr.condition]⟩

/-! ### The bounds of R113 -/

/-- An index adds at most one cycle (R108, R110). -/
theorem crossing_le_one (base : Word) (idx : Byte) : crossing base idx ≤ 1 := by
  unfold crossing
  split <;> decide

/-- A taken branch adds at most two cycles (R196). -/
theorem branchCycles_le_two (taken : Bool) (s : State) : branchCycles taken s ≤ 2 := by
  unfold branchCycles targetCrossing
  split
  · split <;> decide
  · decide

/-- Reads take at most six cycles: the form that takes six without a crossing, `(zp,X)`, has none (R113). -/
theorem baseCycles_add_crossingCycles_le_six (o : Src) (s : State) : o.baseCycles + o.crossingCycles s ≤ 6 := by
  cases o with
  | imm => simp [Src.baseCycles, Src.crossingCycles]
  | mem m =>
    cases m
    case abx | aby => exact (Nat.add_le_add_left (crossing_le_one _ _) 4).trans (by decide)
    case izy => exact Nat.add_le_add_left (crossing_le_one _ _) 5
    all_goals simp [Src.baseCycles, Src.crossingCycles, Mem.crossingCycles]

/-- Only reads and branches take extra cycles, and they stay within seven (R113). -/
theorem baseCycles_add_extraCycles_le_seven {i : Instr} (h : i.baseCycles ≤ 7) (s : State) :
    i.baseCycles + i.extraCycles s ≤ 7 := by
  cases i
  case adc o | and o | cmp o | cpx o | cpy o | eor o | lda o | ldx o | ldy o | ora o | sbc o =>
    exact (baseCycles_add_crossingCycles_le_six o s).trans (by decide)
  case bit m => exact (baseCycles_add_crossingCycles_le_six (.mem m) s).trans (by decide)
  case bcc | bcs | beq | bmi | bne | bpl | bvc | bvs =>
    exact (Nat.add_le_add_left (branchCycles_le_two _ s) 2).trans (by decide)
  all_goals exact h

/-- The number R113 gives an instruction of the opcode map is 1 to 7: the map has no read-modify-write through a pointer
(R112). -/
theorem baseCycles_decodeOpcode (op : Byte) :
    1 ≤ (decodeOpcode op).baseCycles ∧ (decodeOpcode op).baseCycles ≤ 7 := by
  revert op
  decide

/-- Settles O5: the cycles of a step are those of `exec_next_cycles` for the instruction decoded, and the opcode map
bounds them. -/
theorem everyStepCompletes : Obligations.EveryStepCompletes := by
  unfold Obligations.EveryStepCompletes
  constructor
  · intro i s
    obtain ⟨t, hnext, -⟩ := exec_next_cycles i s
    exact ⟨t, hnext⟩
  · intro s
    obtain ⟨t, hnext, hcycles⟩ := exec_next_cycles (decodeOpcode s.fetch.1) s.fetch.2
    obtain ⟨hmin, hbase⟩ := baseCycles_decodeOpcode s.fetch.1
    have hmax := baseCycles_add_extraCycles_le_seven hbase s.fetch.2
    rw [s.fetch_cycles] at hcycles
    exact ⟨t, hnext, by omega, by omega⟩

end Sys2Proof.Machine
end

section
/-!
PROOFS. The interval timer from a load to a read of INTIM (spec/61_riot.md R271, R272, R276 to R279, R281).
-/

namespace Sys2Proof.Machine

/-! ### The shift a timer address selects -/

/-- The shift is named by the low two bits of the index, as R271's table lists them (R272). -/
theorem bits_prescaleOf (idx : BitVec 5) : (prescaleOf idx).bits = [0, 3, 6, 10].getD (idx.toNat % 4) 0 := by
  revert idx
  decide

/-! ### What the operations do to the timer -/

section
variable (r : Riot)

@[simp] theorem Riot.clock_timer (n : Nat) : (r.clock n).timer = r.timer := rfl
@[simp] theorem Riot.clock_shift (n : Nat) : (r.clock n).shift = r.shift := rfl
@[simp] theorem Riot.clock_timerIrq (n : Nat) : (r.clock n).timerIrq = r.timerIrq := rfl

/-- A load of the timer: the count is the byte scaled by the selected prescale, the timer flag is clear and no clock is
left over (R278). -/
theorem Riot.write_timerLoad {idx : BitVec 5} (h2 : idx.getLsbD 2 = true) (h4 : idx.getLsbD 4 = true) (v : Byte) :
    r.write idx v =
      { r.catchUp with
        shift := prescaleOf idx
        timer := (v.toNat * 2 ^ (prescaleOf idx).bits : Nat)
        timerIrq := false
        residue := 0 } := by
  simp only [Riot.write, h2, h4, if_true]

/-- A read of INTIM answers the visible countdown and clears the timer flag (R281). -/
theorem Riot.read_intim (inp : Lines) : r.read 0x04 inp = (r.catchUp.visible, { r.catchUp with timerIrq := false }) :=
  rfl

end

/-- While the elapsed ticks have not passed the count, a catch-up only subtracts them (R277). -/
theorem Riot.catchUp_of_nonneg {r : Riot} (h : 0 ≤ r.timer - (r.residue / 3 : Nat)) :
    r.catchUp = { r with residue := r.residue % 3, timer := r.timer - (r.residue / 3 : Nat) } :=
  if_neg (not_lt.mpr h)

/-- Once they have passed it, the catch-up wraps the count to 8 bits, drops the prescale and sets the flag (R277). -/
theorem Riot.catchUp_of_neg {r : Riot} (h : r.timer - (r.residue / 3 : Nat) < 0) :
    r.catchUp =
      { r with
        residue := r.residue % 3
        timer := (r.timer - (r.residue / 3 : Nat)) % 256
        shift := .shift0
        timerIrq := true } :=
  if_pos h

/-! ### The byte a read shows -/

/-- The wrap to 8 bits does not change the byte that is shown. -/
theorem byte_ofInt_emod (t : Int) : BitVec.ofInt 8 (t % 256) = BitVec.ofInt 8 t := by
  apply BitVec.eq_of_toInt_eq
  rw [BitVec.toInt_ofInt, BitVec.toInt_ofInt]
  exact Int.emod_bmod t 256

theorem Riot.visible_catchUp_of_nonneg {r : Riot} (h : 0 ≤ r.timer - (r.residue / 3 : Nat)) :
    r.catchUp.visible = BitVec.ofInt 8 ((r.timer - (r.residue / 3 : Nat)) / (2 ^ r.shift.bits : Nat)) := by
  rw [Riot.catchUp_of_nonneg h, Riot.visible]

theorem Riot.visible_catchUp_of_neg {r : Riot} (h : r.timer - (r.residue / 3 : Nat) < 0) :
    r.catchUp.visible = BitVec.ofInt 8 (r.timer - (r.residue / 3 : Nat)) := by
  rw [Riot.catchUp_of_neg h, Riot.visible, Prescale.bits, pow_zero, Nat.cast_one, Int.ediv_one, byte_ofInt_emod]

/-! ### From the load to the read -/

/-- `c` processor cycles after a load of the timer with `n` counts, `c` ticks have elapsed: three system clocks make a
tick, and the load left none over (R276 to R278). -/
theorem Riot.write_clock_elapsed (r : Riot) {idx : BitVec 5} (h2 : idx.getLsbD 2 = true) (h4 : idx.getLsbD 4 = true)
    (v : Byte) (c : Nat) :
    ((r.write idx v).clock (3 * c)).timer - (((r.write idx v).clock (3 * c)).residue / 3 : Nat) =
      (v.toNat * 2 ^ (prescaleOf idx).bits : Nat) - (c : Int) := by
  rw [Riot.clock_timer, Riot.clock_residue, r.write_timerLoad h2 h4]
  simp only [Nat.zero_add, Nat.mul_div_cancel_left c (by decide : 0 < 3)]

/-- Settles O45: the cycles since the load are the ticks the catch-up takes off, and the two clauses are its two
branches. -/
theorem timerCountsDown : Obligations.TimerCountsDown := by
  unfold Obligations.TimerCountsDown
  intro r idx v c inp h2 h4
  have hload := r.write_timerLoad h2 h4 v
  have hticks := r.write_clock_elapsed h2 h4 v c
  have hshift : ((r.write idx v).clock (3 * c)).shift = prescaleOf idx := by rw [Riot.clock_shift, hload]
  have hflag : (r.write idx v).timerIrq = false := by rw [hload]
  simp only [← bits_prescaleOf idx, ← hticks, Riot.read_intim]
  refine ⟨hflag, trivial, ?_, ?_⟩
  · intro hcount
    refine ⟨?_, ?_⟩
    · rw [Riot.visible_catchUp_of_nonneg hcount, hshift]
    · rw [Riot.catchUp_of_nonneg hcount]
      exact ((r.write idx v).clock_timerIrq (3 * c)).trans hflag
  · intro hcount
    refine ⟨Riot.visible_catchUp_of_neg hcount, ?_, ?_⟩ <;> rw [Riot.catchUp_of_neg hcount]

end Sys2Proof.Machine
end

section
/-!
PROOFS. The register file of the timing chip (spec/62_tia_video.md R308 to R323, R328, R343): the writes that place or
move the objects, and those that store a field.
-/

namespace Sys2Proof.Machine

/-! ### Positions taken from the beam and moved by HMOVE -/

/-- The position a player takes, in the arithmetic of the beam (R315). -/
theorem Tia.respPlayer_eq (t : Tia) : (t.respPlayer : Int) = if t.h < 0 then 3 else (t.h + 5) % 160 := by
  rw [Tia.respPlayer]
  split
  · rfl
  · exact Int.toNat_of_nonneg (Int.emod_nonneg _ (by decide))

/-- The position a missile or the ball takes, in the arithmetic of the beam (R315). -/
theorem Tia.respMissile_eq (t : Tia) : (t.respMissile : Int) = if t.h < 0 then 2 else (t.h + 4) % 160 := by
  rw [Tia.respMissile]
  split
  · rfl
  · exact Int.toNat_of_nonneg (Int.emod_nonneg _ (by decide))

/-- A moved position as an integer: the signed offset is taken off, round the line (R323). -/
theorem moved_eq (pos : Nat) (hm : BitVec 4) : (moved pos hm : Int) = (pos - hm.toInt) % 160 :=
  Int.toNat_of_nonneg (Int.emod_nonneg _ (by decide))

/-! ### HMOVE blanking -/

section
variable {t : Tia} {x : Nat}

/-- After HMOVE the first eight pixels of the line are blanked (R323, R329). -/
theorem Tia.blanked_hmove (hx : x < 8) : t.hmove.blanked x = true := decide_eq_true hx

/-- A blanked pixel carries no object (R321). -/
theorem Tia.presence_of_blanked (h : t.blanked x = true) : t.presence x = 0 := if_pos h

/-- A blanked pixel has no colour, whatever its mask (R339). -/
theorem Tia.colourAt_of_blanked (h : t.blanked x = true) (m : BitVec 6) : t.colourAt x m = none := by
  rw [Tia.colourAt, h, Bool.or_true, if_pos rfl]

end

/-! ### The writes that place, move and latch -/

section
variable (t : Tia) (v : Byte)

theorem Tia.write_resp0 : t.write 0x10 v = { t with p0 := { t.p0 with pos := t.respPlayer } } := rfl
theorem Tia.write_resp1 : t.write 0x11 v = { t with p1 := { t.p1 with pos := t.respPlayer } } := rfl
theorem Tia.write_resm0 : t.write 0x12 v = { t with p0 := { t.p0 with mpos := t.respMissile } } := rfl
theorem Tia.write_resm1 : t.write 0x13 v = { t with p1 := { t.p1 with mpos := t.respMissile } } := rfl
theorem Tia.write_resbl : t.write 0x14 v = { t with posBL := t.respMissile } := rfl
theorem Tia.write_hmove : t.write 0x2A v = t.hmove := rfl

/-- HMCLR clears the five offsets and touches no position (R318). -/
theorem Tia.write_hmclr : t.write 0x2B v =
    { t with p0 := { t.p0 with hm := 0, mhm := 0 }, p1 := { t.p1 with hm := 0, mhm := 0 }, hmBL := 0 } := rfl

/-- GRP0 latches the other player's delayed copy (R316). -/
theorem Tia.write_grp0 : t.write 0x1B v =
    { t with p0 := { t.p0 with grpNew := v }, p1 := { t.p1 with grpOld := t.p1.grpNew } } := rfl

/-- GRP1 latches the other player's delayed copy and the ball's (R317). -/
theorem Tia.write_grp1 : t.write 0x1C v =
    { t with
      p0 := { t.p0 with grpOld := t.p0.grpNew }
      p1 := { t.p1 with grpNew := v }
      enablOld := t.enablNew } := rfl

theorem Tia.write_enam0 : t.write 0x1D v = { t with p0 := { t.p0 with enam := v.getLsbD 1 } } := rfl
theorem Tia.write_enam1 : t.write 0x1E v = { t with p1 := { t.p1 with enam := v.getLsbD 1 } } := rfl
theorem Tia.write_enabl : t.write 0x1F v = { t with enablNew := v.getLsbD 1 } := rfl

end

/-- Settles O43: each write's equation says which fields it stores; what is left is the arithmetic of the positions
and the blanking that HMOVE starts. -/
theorem objectRegisters : Obligations.ObjectRegisters := by
  unfold Obligations.ObjectRegisters
  intro t v _ _
  have hplayer := t.respPlayer_eq
  have hmissile := t.respMissile_eq
  have hblank : ∀ x, x < 8 → t.hmove.presence x = 0 ∧ ∀ k, t.hmove.colourAt x k = none := fun x hx =>
    ⟨Tia.presence_of_blanked (Tia.blanked_hmove hx), Tia.colourAt_of_blanked (Tia.blanked_hmove hx)⟩
  simp only [Tia.write_resp0, Tia.write_resp1, Tia.write_resm0, Tia.write_resm1, Tia.write_resbl, Tia.write_hmove,
    Tia.write_hmclr, Tia.write_grp0, Tia.write_grp1, Tia.write_enam0, Tia.write_enam1, Tia.write_enabl, and_self,
    and_true]
  exact ⟨hplayer, hplayer, hmissile, hmissile, hmissile, moved_eq _ _, moved_eq _ _, moved_eq _ _, moved_eq _ _,
    moved_eq _ _, rfl, rfl, rfl, rfl, rfl, hblank⟩

/-! ### The fields of a written byte as numbers -/

/-- NUSIZ's copies and stretch (R310). -/
theorem Byte.toNat_lowThree (v : Byte) : (v.extractLsb' 0 3).toNat = v.toNat % 8 := by
  rw [BitVec.extractLsb'_toNat, Nat.shiftRight_zero]

/-- The width of a missile or the ball (R310, R313). -/
theorem Byte.toNat_bitsFourFive (v : Byte) : (v.extractLsb' 4 2).toNat = v.toNat / 16 % 4 := by
  rw [BitVec.extractLsb'_toNat, Nat.shiftRight_eq_div_pow]

/-- A colour code (R311). -/
theorem Byte.toNat_topSeven (v : Byte) : (v.extractLsb' 1 7).toNat = v.toNat / 2 := by
  rw [BitVec.extractLsb'_toNat, Nat.shiftRight_eq_div_pow]
  exact Nat.mod_eq_of_lt (by omega)

/-- A motion offset (R318). -/
theorem Byte.toNat_highNibble (v : Byte) : (v.extractLsb' 4 4).toNat = v.toNat / 16 := by
  rw [BitVec.extractLsb'_toNat, Nat.shiftRight_eq_div_pow]
  exact Nat.mod_eq_of_lt (by omega)

/-! ### Bits of a field and of a reversed byte -/

theorem getLsbD_reverseByte (v : Byte) {j : Nat} (hj : j < 8) : (reverseByte v).getLsbD j = v.getLsbD (7 - j) := by
  refine (BitVec.getLsbD_ofBoolListLE ..).trans ?_
  interval_cases j <;> rfl

/-- A field that ends at the last bit shows the bits from its start on, those beyond the width included. -/
theorem getLsbD_extractLsb'_of_top {w s n : Nat} (x : BitVec w) (h : s + n = w) (j : Nat) :
    (x.extractLsb' s n).getLsbD j = x.getLsbD (s + j) := by
  rw [BitVec.getLsbD_extractLsb']
  by_cases hj : j < n
  · rw [decide_eq_true hj, Bool.true_and]
  · rw [decide_eq_false hj, Bool.false_and, BitVec.getLsbD_of_ge x _ (by omega)]

/-- A field that starts at bit 0 shows its bits in place. -/
theorem getLsbD_extractLsb'_zero_of_lt {w n j : Nat} (x : BitVec w) (hj : j < n) :
    (x.extractLsb' 0 n).getLsbD j = x.getLsbD j := by
  rw [BitVec.getLsbD_extractLsb', decide_eq_true hj, Bool.true_and, Nat.zero_add]

/-! ### The playfield -/

section
variable (t : Tia) (v : Byte) (j : Nat)

/-- PF0: the byte's upper nibble starts the pattern (R314). -/
theorem Tia.getLsbD_write_pf0 :
    (t.write 0x0D v).pf.getLsbD j = if j < 4 then v.getLsbD (4 + j) else t.pf.getLsbD j := by
  refine (BitVec.getLsbD_append (x := t.pf.extractLsb' 4 16) (y := v.extractLsb' 4 4)).trans ?_
  split
  · rw [getLsbD_extractLsb'_of_top v rfl]
  · rw [getLsbD_extractLsb'_of_top t.pf rfl, Nat.add_sub_cancel' (by omega)]

/-- PF1: the byte in the opposite order, after PF0's four bits (R314). -/
theorem Tia.getLsbD_write_pf1 :
    (t.write 0x0E v).pf.getLsbD j =
      if j < 4 then t.pf.getLsbD j else if j < 12 then v.getLsbD (7 - (j - 4)) else t.pf.getLsbD j := by
  refine (BitVec.getLsbD_append (x := t.pf.extractLsb' 12 8 ++ reverseByte v) (y := t.pf.extractLsb' 0 4)).trans ?_
  split
  · rw [getLsbD_extractLsb'_zero_of_lt _ ‹_›]
  · rw [BitVec.getLsbD_append]
    split
    · rw [if_pos (by omega), getLsbD_reverseByte v ‹_›]
    · rw [if_neg (by omega), getLsbD_extractLsb'_of_top t.pf rfl]
      congr 1
      omega

/-- PF2: the byte ends the pattern (R314). -/
theorem Tia.getLsbD_write_pf2 :
    (t.write 0x0F v).pf.getLsbD j = if j < 12 then t.pf.getLsbD j else v.getLsbD (j - 12) := by
  refine (BitVec.getLsbD_append (x := v) (y := t.pf.extractLsb' 0 12)).trans ?_
  split
  · rw [getLsbD_extractLsb'_zero_of_lt _ ‹_›]
  · rfl

end

section
variable (t : Tia) {x : Nat}

/-- The left half shows one bit of the pattern per four pixels (R328). -/
theorem Tia.playfieldOn_left (hx : x < 80) : t.playfieldOn x = t.pf.getLsbD (x / 4) := if_pos (by omega)

/-- The right half is the left half again, mirrored under reflection (R328). -/
theorem Tia.playfieldOn_right (hx : x < 80) :
    t.playfieldOn (80 + x) = if t.pfReflect then t.playfieldOn (79 - x) else t.playfieldOn x := by
  have hmirror : 39 - (80 + x) / 4 = (79 - x) / 4 := by omega
  have hrepeat : (80 + x) / 4 - 20 = x / 4 := by omega
  rw [t.playfieldOn_left hx, t.playfieldOn_left (by omega : 79 - x < 80), ← hmirror, ← hrepeat]
  exact if_neg (by omega)

end

/-! ### Sync, the missile lock, and the indices without an effect -/

theorem stretch_eq (nusiz : BitVec 3) : stretch nusiz = if nusiz = 5 then 2 else if nusiz = 7 then 4 else 1 := by
  revert nusiz
  decide

/-- The lock's falling edge puts the missile at the middle of the player's first copy (R322). -/
theorem PlayerUnit.writeResmp_mpos (v : Byte) (p : PlayerUnit) :
    (p.writeResmp v).mpos =
      if p.resmp = true ∧ v.getLsbD 1 = false then
        (p.pos + 4 * (if p.nusiz = 5 then 2 else if p.nusiz = 7 then 4 else 1)) % 160
      else p.mpos := by
  simp only [PlayerUnit.writeResmp, stretch_eq, Bool.and_eq_true, Bool.not_eq_true']

section
variable (t : Tia) (v : Byte)

/-- The rising edge of VSYNC resets the line count (R309). -/
theorem Tia.write_vsync_scanline :
    (t.write 0x00 v).scanline = if t.vsync = false ∧ v.getLsbD 1 = true then 0 else t.scanline := by
  simp only [Tia.write, Bool.and_eq_true, Bool.not_eq_true']

/-- RSYNC and the indices above CXCLR's have no effect (R308). -/
theorem Tia.write_of_no_effect {i : Nat} (hi : i = 0x03 ∨ 0x2D ≤ i) : t.write i v = t := by
  obtain rfl | hi := hi
  · rfl
  · obtain ⟨k, rfl⟩ := Nat.exists_eq_add_of_le' hi
    rfl

end

/-- Settles O42: a field is read off the write that stores it; the playfield, the two edges and the indices without an
effect have their lemmas above. -/
theorem playfieldAndControlRegisters : Obligations.PlayfieldAndControlRegisters := by
  unfold Obligations.PlayfieldAndControlRegisters
  intro t v
  have hpf0 := t.getLsbD_write_pf0 v
  have hpf1 := t.getLsbD_write_pf1 v
  have hpf2 := t.getLsbD_write_pf2 v
  have hlow := Byte.toNat_lowThree v
  have hsize := Byte.toNat_bitsFourFive v
  have hcolour := Byte.toNat_topSeven v
  have hmotion := Byte.toNat_highNibble v
  refine ⟨?_, ?_, ?_, ?_, ?_, ?_, fun _ => t.playfieldOn_left, fun _ => t.playfieldOn_right,
    rfl, t.write_vsync_scanline v, rfl, rfl, rfl,
    hlow, hsize, hlow, hsize, hcolour, hcolour, hcolour, hcolour, rfl, rfl, rfl, hsize, rfl, rfl,
    hmotion, hmotion, hmotion, hmotion, hmotion, rfl, rfl, rfl, rfl, rfl,
    ⟨t.p0.writeResmp_mpos v, t.p1.writeResmp_mpos v⟩, fun _ => t.write_of_no_effect v⟩
  · intro j hj
    rw [hpf0, if_pos hj]
  · intro j hj
    rw [hpf0, if_neg (by omega)]
  · intro j hj
    rw [hpf1, if_neg (by omega), if_pos (by omega), Nat.add_sub_cancel_left]
  · rintro j (hj | hj)
    · rw [hpf1, if_pos hj]
    · rw [hpf1, if_neg (by omega), if_neg (by omega)]
  · intro j hj
    rw [hpf2, if_neg (by omega), Nat.add_sub_cancel_left]
  · intro j hj
    rw [hpf2, if_pos hj]

end Sys2Proof.Machine
end

section
/-!
PROOFS. The audio half of the timing chip (spec/63_tia_audio.md R371 to R375): the clock in two parts, the register
writes, the phase step and the level.
-/

namespace Sys2Proof.Machine

/-! ### The clock is additive (R373) -/

/-- The full periods left in the remainder and the full periods before it are those of the whole. -/
theorem div_add_mod_add_div {p : Nat} (hp : 0 < p) (t n : Nat) : t / p + (t % p + n) / p = (t + n) / p := by
  calc t / p + (t % p + n) / p
      = (t % p + n + p * (t / p)) / p := by rw [Nat.add_mul_div_left _ _ hp, Nat.add_comm]
    _ = (t + n) / p := by rw [Nat.add_right_comm, Nat.mod_add_div]

section
variable (cfg : Config) (au : Audio) (r j k m n : Nat)

/-- Ticks in a row are the ticks of both parts, one after the other. -/
theorem Audio.ticks_add : au.ticks cfg (j + k) = (au.ticks cfg j).ticks cfg k := by
  induction j generalizing au with
  | zero => rw [Nat.zero_add, Audio.ticks]
  | succ j ih => rw [Nat.succ_add, Audio.ticks, ih, Audio.ticks]

/-- A tick neither reads nor changes the residue. -/
theorem Audio.ticks_withResidue :
    Audio.ticks cfg k { au with residue := r } = { au.ticks cfg k with residue := r } := by
  induction k generalizing au with
  | zero => rfl
  | succ k ih => exact ih (au.tick cfg)

/-- Clocks handed over in two parts act as in one. -/
theorem Audio.clock_clock (hp : 0 < cfg.audioTickPeriod) :
    (au.clock cfg m).clock cfg n = au.clock cfg (m + n) := by
  simp only [Audio.clock, Audio.ticks_withResidue, ← Audio.ticks_add, div_add_mod_add_div hp, Nat.mod_add_mod,
    Nat.add_assoc]

end

/-! ### Register writes (R371, R372) -/

/-- A field that starts at bit 0 holds the byte modulo its size. -/
theorem Byte.toNat_lowBits (v : Byte) (n : Nat) : (v.extractLsb' 0 n).toNat = v.toNat % 2 ^ n := by
  rw [BitVec.extractLsb'_toNat, Nat.shiftRight_zero]

/-- The indices beside the six write no audio register. -/
theorem Audio.write_of_no_register (cfg : Config) (au : Audio) (v : Byte) {i : Nat} (hi : i < 0x15 ∨ 0x1A < i) :
    au.write cfg i v = au := by
  unfold Audio.write
  split
  case h_7 => rfl
  all_goals omega

/-! ### The phase step and the level (R374, R375) -/

section
variable {cfg : Config} {c : Channel}

/-- The divider counts while it stays below the channel's period. -/
theorem Channel.tick_of_lt (h : c.divCount + 1 < (c.audf.toNat + 1) * (c.wave cfg).extra) :
    c.tick cfg = { c with divCount := c.divCount + 1 } :=
  if_neg (Nat.not_le_of_lt h)

/-- A full divider starts again and the phase goes one entry round the table. -/
theorem Channel.tick_of_le (h : (c.audf.toNat + 1) * (c.wave cfg).extra ≤ c.divCount + 1) :
    c.tick cfg = { c with divCount := 0, phase := (c.phase + 1) % (c.wave cfg).len } :=
  if_pos h

theorem Channel.level_eq_or (cfg : Config) (c : Channel) : c.level cfg = c.audv ∨ c.level cfg = 0 :=
  ite_eq_or_eq ..

/-- The table's entry at the phase opens or closes the volume. -/
theorem Channel.level_of_bit {b : Bool} (h : (c.wave cfg).bits[c.phase]? = some b) :
    c.level cfg = if b then c.audv else 0 := by
  rw [Channel.level, List.getD_eq_getElem?_getD, h, Option.getD_some]

end

/-- Settles O47: the clock's law is `Audio.clock_clock` with the residue and sample lemmas, each audio register is one
branch of the write, and a tick and a level follow the two cases of their definitions. -/
theorem audioHalf : Obligations.AudioHalf := by
  unfold Obligations.AudioHalf
  refine ⟨?clock, fun b a v => b.poke_audio a v, ?writes, ?channel⟩
  case clock =>
    intro cfg au m n hp
    exact ⟨au.clock_clock cfg m n hp, au.clock_samples_length cfg n, au.clock_residue cfg n⟩
  case writes =>
    intro cfg au v
    exact ⟨rfl, rfl, rfl, rfl, rfl, rfl, fun _ => au.write_of_no_register cfg v⟩
  case channel =>
    intro cfg c v _
    have hfive := Byte.toNat_lowBits v 5
    have hfour := Byte.toNat_lowBits v 4
    exact ⟨hfive, hfour, hfour, rfl, rfl, ⟨Channel.tick_of_lt, Channel.tick_of_le⟩, c.level_eq_or cfg,
      Channel.level_of_bit, Channel.level_of_bit⟩

end Sys2Proof.Machine
end

section
/-!
PROOFS. Encoding and decoding (spec/30_encoding.md R100, R112, R113, R115, R120): the opcode map and the list of
opcodes by mnemonic invert each other, and so do the images built from them.
-/

namespace Sys2Proof.Machine

/-! ### The two tables of opcodes -/

/-- The rows of the opcode table are the instructions with an opcode byte (R113, R120). -/
theorem wellFormed_iff_isSome_opcodeOf (i : Instr) : i.wellFormed = true ↔ (opcodeOf i).isSome = true := by
  cases i
  case adc o => exact (Laws.OpcodeRow.adc o).1
  case and o => exact (Laws.OpcodeRow.and o).1
  case asl l => exact (Laws.OpcodeRow.asl l).1
  case bit m => exact (Laws.OpcodeRow.bit m).1
  case cmp o => exact (Laws.OpcodeRow.cmp o).1
  case cpx o => exact (Laws.OpcodeRow.cpx o).1
  case cpy o => exact (Laws.OpcodeRow.cpy o).1
  case dec m => exact (Laws.OpcodeRow.dec m).1
  case eor o => exact (Laws.OpcodeRow.eor o).1
  case inc m => exact (Laws.OpcodeRow.inc m).1
  case jmp t => exact (Laws.OpcodeRow.jmp t).1
  case lda o => exact (Laws.OpcodeRow.lda o).1
  case ldx o => exact (Laws.OpcodeRow.ldx o).1
  case ldy o => exact (Laws.OpcodeRow.ldy o).1
  case lsr l => exact (Laws.OpcodeRow.lsr l).1
  case ora o => exact (Laws.OpcodeRow.ora o).1
  case rol l => exact (Laws.OpcodeRow.rol l).1
  case ror l => exact (Laws.OpcodeRow.ror l).1
  case sbc o => exact (Laws.OpcodeRow.sbc o).1
  case sta m => exact (Laws.OpcodeRow.sta m).1
  case stx m => exact (Laws.OpcodeRow.stx m).1
  case sty m => exact (Laws.OpcodeRow.sty m).1
  case unimpl op => exact (Laws.OpcodeRow.unimpl op).1
  all_goals decide

/-- Every cell of the opcode map stands in the list by mnemonic with its own byte (R112, R113). -/
theorem opcodeOf_decodeOpcode (op : Byte) : opcodeOf (decodeOpcode op) = some op := by
  revert op
  decide

/-- A row of the list by mnemonic stands in the opcode map at its byte (R112, R113). -/
theorem decodeOpcode_of_opcodeOf {i : Instr} {op : Byte} (h : opcodeOf i = some op) : decodeOpcode op = i := by
  cases i
  case adc o | and o | cmp o | cpx o | cpy o | eor o | lda o | ldx o | ldy o | ora o | sbc o =>
    rcases o with _ | m
    · cases h; rfl
    · cases m <;> cases h <;> rfl
  case asl l | lsr l | rol l | ror l =>
    rcases l with _ | m
    · cases h; rfl
    · cases m <;> cases h <;> rfl
  case bit m | dec m | inc m | sta m | stx m | sty m => cases m <;> cases h <;> rfl
  case jmp t => cases t <;> cases h <;> rfl
  case unimpl op' =>
    simp only [opcodeOf, Option.ite_none_right_eq_some, Option.some.injEq] at h
    obtain ⟨hlisted, rfl⟩ := h
    exact decodeOpcode_of_unimplemented hlisted
  all_goals cases h; rfl

/-- An instruction of the opcode map is a row of the table (R112, R113). -/
theorem wellFormed_decodeOpcode (op : Byte) : (decodeOpcode op).wellFormed = true := by
  rw [wellFormed_iff_isSome_opcodeOf, opcodeOf_decodeOpcode, Option.isSome_some]

/-! ### Images of whole instructions -/

/-- With the opcode byte and the right number of operand bytes the encoder answers the image (R100). -/
theorem encode_eq_some {i : Instr} {op : Byte} {operands : List Byte} (hop : opcodeOf i = some op)
    (hlen : operands.length = i.format.operandBytes) : encode i operands = some (op :: operands) := by
  rw [encode, if_pos hlen, hop, Option.map_some]

/-- The decoder splits the bytes after the opcode at its format's number of operand bytes (R100, R101). -/
theorem decode_cons_of_le {op : Byte} {tail : List Byte} (h : (decodeOpcode op).format.operandBytes ≤ tail.length) :
    decode (op :: tail) =
      .ok (decodeOpcode op, tail.take (decodeOpcode op).format.operandBytes,
        tail.drop (decodeOpcode op).format.operandBytes) :=
  if_neg (Nat.not_lt.mpr h)

/-- Settles O2: the opcode byte of R113 stands in the map of R112 at its instruction, and the operand bytes are as many
as the decoder takes. -/
theorem decodeInvertsEncode : Obligations.DecodeInvertsEncode := by
  unfold Obligations.DecodeInvertsEncode
  intro i operands rest hwf hlen
  obtain ⟨op, hop⟩ := Option.isSome_iff_exists.mp ((wellFormed_iff_isSome_opcodeOf i).mp hwf)
  obtain rfl := decodeOpcode_of_opcodeOf hop
  refine ⟨op :: operands, encode_eq_some hop hlen, ?_, ?_⟩
  · rw [List.length_cons, hlen, Instr.length, Nat.add_comm]
  · rw [List.cons_append, decode_cons_of_le (by rw [List.length_append]; omega), List.take_left' hlen,
      List.drop_left' hlen]

/-- Settles O3: what the decoder reads is a cell of the map with the bytes split after the operands; the list of R113
has that cell's byte. -/
theorem encodeInvertsDecode : Obligations.EncodeInvertsDecode := by
  unfold Obligations.EncodeInvertsDecode
  constructor
  · intro bytes i operands rest h
    cases bytes with
    | nil => cases h
    | cons op tail =>
      by_cases hle : (decodeOpcode op).format.operandBytes ≤ tail.length
      · rw [decode_cons_of_le hle] at h
        cases h
        exact ⟨wellFormed_decodeOpcode op, _, encode_eq_some (opcodeOf_decodeOpcode op) (List.length_take_of_le hle),
          by rw [List.cons_append, List.take_append_drop]⟩
      · rw [decode, if_pos (Nat.lt_of_not_le hle)] at h
        cases h
  · intro op tail h
    exact ⟨_, _, decode_cons_of_le h⟩

/-- Settles O1: each image is split after its opcode's operand bytes. -/
theorem specWordsDecode : Obligations.SpecWordsDecode := by
  unfold Obligations.SpecWordsDecode
  exact ⟨rfl, rfl, rfl, rfl, rfl, rfl, rfl, rfl, rfl, rfl⟩

end Sys2Proof.Machine
end

section
/-!
PROOFS. What every step keeps: the ranges of the state variables, the lockstep of the clocks, and the blindness of the
processor to what only the host sees (spec/10_state.md; spec/20_memory.md R74, R75; spec/62_tia_video.md R339).
-/

namespace Sys2Proof.Machine

/-! ### The invariants -/

/-- Settles O57: a step is made of cycles, reads and writes, and each of the three keeps `Bus.Ok`. -/
theorem stepKeepsWellFormed : Obligations.StepKeepsWellFormed := by
  unfold Obligations.StepKeepsWellFormed
  intro s t hok hstep
  exact step_bus_invariant (P := Bus.Ok) (fun _ => Bus.Ok.tick) (fun _ a h => h.peek a) (fun _ a v h => h.poke a v)
    hok hstep

/-- Settles O58: a step is made of cycles, reads and writes, and each of the three keeps `Bus.Lockstep`. -/
theorem stepKeepsLockstep : Obligations.StepKeepsLockstep := by
  unfold Obligations.StepKeepsLockstep
  intro s t hlock hstep
  exact step_bus_invariant (P := Bus.Lockstep) (fun _ => Bus.Lockstep.tick) (fun _ a h => h.peek a)
    (fun _ a v h => h.poke a v) hlock hstep

/-! ### What the host alone sees -/

/-- The timing chip with the picture and the host's records set to fixed values, as in `Bus.visible`. -/
def Tia.visible (t : Tia) : Tia :=
  { t with line := Vector.replicate 160 0, colour := Vector.replicate 160 none, lines := [], refreshes := 0 }

section
variable (t : Tia)

/-- Presence, colours and the range of a catch-up are computed from the registers (R306, R320). -/
theorem Tia.visible_catchUp : t.visible.catchUp.visible = t.catchUp.visible := by
  simp only [Tia.visible, Tia.catchUp]
  rfl

/-- Inside a line a clock only moves the beam (R301). -/
theorem Tia.clock1_of_ne (h : t.h + 1 ≠ 160) : t.clock1 = { t with h := t.h + 1 } := if_neg h

/-- At the right edge a clock finishes the line (R301, R340). -/
theorem Tia.clock1_of_eq (h : t.h + 1 = 160) :
    t.clock1 =
      let u := { t with h := t.h + 1 }.catchUp
      { u with
        lines := (u.scanline, u.colour) :: u.lines, h := -68, rendered := -68, scanline := u.scanline + 1
        hmoveBlank := false } :=
  if_pos h

theorem Tia.visible_clock1 : t.visible.clock1.visible = t.clock1.visible := by
  by_cases h : t.h + 1 = 160
  · rw [t.clock1_of_eq h, t.visible.clock1_of_eq h]
    simp only [Tia.visible, Tia.catchUp]
    rfl
  · rw [t.clock1_of_ne h, t.visible.clock1_of_ne h]
    rfl

theorem Tia.visible_write (i : Nat) (v : Byte) : (t.visible.write i v).visible = (t.write i v).visible := by
  unfold Tia.write
  split <;> simp only [Tia.visible] <;> rfl

end

section
variable {t t' : Tia} (h : t.visible = t'.visible)
include h

theorem Tia.visible_catchUp_congr : t.catchUp.visible = t'.catchUp.visible := by
  rw [← t.visible_catchUp, h, t'.visible_catchUp]

theorem Tia.visible_clock_congr (n : Nat) : (t.clock n).visible = (t'.clock n).visible := by
  induction n generalizing t t' with
  | zero => exact h
  | succ n ih => exact ih (by rw [← t.visible_clock1, h, t'.visible_clock1])

theorem Tia.visible_write_congr (i : Nat) (v : Byte) : (t.write i v).visible = (t'.write i v).visible := by
  rw [← t.visible_write, h, t'.visible_write]

/-- A read shows latches and inputs, neither of which is the host's (R304). -/
theorem Tia.readByte_congr (inp : Lines) (trash : Byte) (i : Nat) :
    t.readByte inp trash i = t'.readByte inp trash i := by
  have hread := congrArg (Tia.readByte · inp trash i) h
  exact hread

/-- The stall of a WSYNC write is computed from the beam (R341). -/
theorem Tia.wsyncClocks_congr : t.wsyncClocks = t'.wsyncClocks := by
  have hclocks := congrArg Tia.wsyncClocks h
  exact hclocks

end

/-- The two buses agree in everything but what only the host sees: `Bus.visible`, part by part. -/
structure Bus.Alike (b b' : Bus) : Prop where
  cfg : b.cfg = b'.cfg
  busTrash : b.busTrash = b'.busTrash
  ram : b.ram = b'.ram
  wsyncExtra : b.wsyncExtra = b'.wsyncExtra
  tia : b.tia.visible = b'.tia.visible
  riot : b.riot = b'.riot
  cart : b.cart = b'.cart
  inputs : b.inputs = b'.inputs
  left : b.inputs.left.remembers b.portCalls.left = b'.inputs.left.remembers b'.portCalls.left
  right : b.inputs.right.remembers b.portCalls.right = b'.inputs.right.remembers b'.portCalls.right

theorem Bus.alike_iff {b b' : Bus} : b.Alike b' ↔ b.visible = b'.visible := by
  constructor
  · intro h
    exact Bus.mk.injEq .. ▸ ⟨h.cfg, h.busTrash, h.ram, rfl, h.wsyncExtra, rfl, h.tia, rfl, h.riot, h.cart, h.inputs,
      congrArg₂ PortCalls.mk h.left h.right⟩
  · intro h
    obtain ⟨cfg, trash, ram, -, extra, -, tia, -, riot, cart, inputs, calls⟩ := Bus.mk.inj h
    obtain ⟨left, right⟩ := PortCalls.mk.inj calls
    exact ⟨cfg, trash, ram, extra, tia, riot, cart, inputs, left, right⟩

/-- More calls leave remembered histories alike. -/
theorem Controller.remembers_append_congr {c c' : Controller} {h h' : List PortCall} (hc : c = c')
    (e : c.remembers h = c'.remembers h') (cs : List PortCall) :
    c.remembers (cs ++ h) = c'.remembers (cs ++ h') := by
  rw [← c.remembers_append, e, ← c'.remembers_append, hc]

section
variable {b b' : Bus} (h : b.Alike b')
include h

/-- The controllers answer by what they remember (R286). -/
theorem Bus.Alike.lines : b.lines = b'.lines := by
  rw [← b.lines_visible, Bus.alike_iff.mp h, b'.lines_visible]

theorem Bus.Alike.left_after (cs : PortCalls) :
    b.inputs.left.remembers (cs.after b.portCalls).left = b'.inputs.left.remembers (cs.after b'.portCalls).left :=
  Controller.remembers_append_congr (congrArg Inputs.left h.inputs) h.left cs.left

theorem Bus.Alike.right_after (cs : PortCalls) :
    b.inputs.right.remembers (cs.after b.portCalls).right = b'.inputs.right.remembers (cs.after b'.portCalls).right :=
  Controller.remembers_append_congr (congrArg Inputs.right h.inputs) h.right cs.right

theorem Bus.Alike.tick : b.tick.Alike b'.tick := by
  have hn : 3 + b.wsyncExtra = 3 + b'.wsyncExtra := congrArg (3 + ·) h.wsyncExtra
  exact
    { cfg := h.cfg
      busTrash := h.busTrash
      ram := h.ram
      wsyncExtra := rfl
      tia := by rw [Bus.tick_tia, Bus.tick_tia, hn]; exact Tia.visible_clock_congr h.tia _
      riot := by rw [Bus.tick_riot, Bus.tick_riot, hn, h.riot]
      cart := h.cart
      inputs := h.inputs
      left := by rw [Bus.tick_portCalls, Bus.tick_portCalls, hn]; exact h.left_after _
      right := by rw [Bus.tick_portCalls, Bus.tick_portCalls, hn]; exact h.right_after _ }

/-- Each chip answers a read from what is alike (R64). -/
theorem Bus.Alike.peek_fst (a : Word) : (b.peek a).1 = (b'.peek a).1 := by
  cases hchip : chipOf a with
  | cart => rw [b.peek_cart_eq a hchip, b'.peek_cart_eq a hchip, h.cart, h.busTrash]
  | tia =>
    rw [b.peek_tia_eq a hchip, b'.peek_tia_eq a hchip, h.lines, h.busTrash]
    exact Tia.readByte_congr (Tia.visible_catchUp_congr h.tia) _ _ _
  | ram => rw [b.peek_ram_eq a hchip, b'.peek_ram_eq a hchip, h.ram]
  | riot => rw [b.peek_riot_eq a hchip, b'.peek_riot_eq a hchip, h.riot, h.lines]

theorem Bus.Alike.peek (a : Word) : (b.peek a).2.Alike (b'.peek a).2 where
  cfg := by rw [Bus.peek_cfg, Bus.peek_cfg, h.cfg]
  busTrash := by rw [Bus.peek_busTrash, Bus.peek_busTrash, h.peek_fst]
  ram := by rw [Bus.peek_ram, Bus.peek_ram, h.ram]
  wsyncExtra := by rw [Bus.peek_wsyncExtra, Bus.peek_wsyncExtra, h.wsyncExtra]
  tia := by
    rw [Bus.peek_tia, Bus.peek_tia]
    split
    · exact Tia.visible_catchUp_congr h.tia
    · exact h.tia
  riot := by rw [Bus.peek_riot, Bus.peek_riot, h.riot, h.lines]
  cart := by rw [Bus.peek_cart, Bus.peek_cart, h.cart, h.busTrash, h.peek_fst]
  inputs := by rw [Bus.peek_inputs, Bus.peek_inputs, h.inputs]
  left := by rw [Bus.peek_inputs, Bus.peek_inputs, Bus.peek_portCalls, Bus.peek_portCalls]; exact h.left_after _
  right := by rw [Bus.peek_inputs, Bus.peek_inputs, Bus.peek_portCalls, Bus.peek_portCalls]; exact h.right_after _

theorem Bus.Alike.poke (a : Word) (v : Byte) : (b.poke a v).Alike (b'.poke a v) where
  cfg := by rw [Bus.poke_cfg, Bus.poke_cfg, h.cfg]
  busTrash := by rw [Bus.poke_busTrash, Bus.poke_busTrash]
  ram := by rw [Bus.poke_ram, Bus.poke_ram, h.ram]
  wsyncExtra := by
    rw [Bus.poke_wsyncExtra, Bus.poke_wsyncExtra, h.wsyncExtra,
      Tia.wsyncClocks_congr (Tia.visible_catchUp_congr h.tia)]
  tia := by
    rw [Bus.poke_tia, Bus.poke_tia]
    split
    · exact Tia.visible_write_congr (Tia.visible_catchUp_congr h.tia) _ _
    · exact h.tia
  riot := by rw [Bus.poke_riot, Bus.poke_riot, h.riot]
  cart := by rw [Bus.poke_cart, Bus.poke_cart, h.cart]
  inputs := by rw [Bus.poke_inputs, Bus.poke_inputs, h.inputs]
  left := by
    rw [Bus.poke_inputs, Bus.poke_inputs, Bus.poke_portCalls, Bus.poke_portCalls, h.riot]; exact h.left_after _
  right := by
    rw [Bus.poke_inputs, Bus.poke_inputs, Bus.poke_portCalls, Bus.poke_portCalls, h.riot]; exact h.right_after _

end

theorem Bus.Alike.respects : Bus.Respects Bus.Alike where
  tick h := h.tick
  peek a h := ⟨h.peek_fst a, h.peek a⟩
  poke a v h := h.poke a v

/-- States are alike exactly when a program sees the same of them. -/
theorem State.sim_alike_iff {s s' : State} : State.Sim Bus.Alike s s' ↔ s.visible = s'.visible := by
  constructor
  · intro h
    exact State.eq_of h.cpu (Bus.alike_iff.mp h.bus)
  · intro h
    obtain ⟨hcpu, hbus⟩ := State.mk.inj h
    exact ⟨hcpu, Bus.alike_iff.mpr hbus⟩

/-- Settles O60: the three bus operations keep buses alike, and a step reaches the bus through nothing else. -/
theorem hostSideIsInvisible : Obligations.HostSideIsInvisible := by
  unfold Obligations.HostSideIsInvisible
  intro s s' t hvisible hstep
  obtain ⟨u, u', hu, hu', hsim⟩ := step_sim Bus.Alike.respects (State.sim_alike_iff.mpr hvisible)
  rw [hstep] at hu
  cases hu
  exact ⟨u', hu', State.sim_alike_iff.mp hsim⟩

end Sys2Proof.Machine
end

section
/-!
PROOFS. Power-on and reset (spec/70_reset_and_hazards.md R450 to R452; spec/10_state.md R40; spec/64_mappers.md R398,
R417).
-/

namespace Sys2Proof.Machine

/-! ### `reset()` -/

/-- `reset()` is two timed reads at the vector (R450). -/
theorem State.warmReset_eq (s : State) :
    let lo := s.bus.tick.peek 0xFFFC
    let hi := lo.2.tick.peek 0xFFFD
    s.warmReset = { cpu := { s.cpu with pc := wordOf hi.1 lo.1, i := true }, bus := hi.2 } := rfl

/-- Settles O54: the two reads of the vector take a cycle each and, like the two cycles, change neither RAM nor a
register nor a fixture. -/
theorem warmReset : Obligations.WarmReset := by
  unfold Obligations.WarmReset
  intro s lo hi
  have hbus : s.warmReset.bus = hi.2 := rfl
  have hcycles : hi.2.cycles = s.bus.cycles + 2 := by
    rw [Bus.peek_cycles, Bus.tick_cycles, Bus.peek_cycles, Bus.tick_cycles]
  have hram : hi.2.ram = s.bus.ram := by rw [Bus.peek_ram, Bus.tick_ram, Bus.peek_ram, Bus.tick_ram]
  rw [hbus]
  exact ⟨s.warmReset_eq, hcycles, hram, ((Bus.SameRegisters.refl s.bus).tick.peek 0xFFFC).tick.peek 0xFFFD,
    ((Bus.SameFixtures.refl s.bus).tick.peek 0xFFFC).tick.peek 0xFFFD⟩

/-! ### The chips after the six clocks of power-on -/

/-- While the beam stays inside its line, time only moves it (R301). -/
theorem Tia.clock_of_lt (n : Nat) (t : Tia) (h : t.h + n < 160) : t.clock n = { t with h := t.h + n } := by
  induction n generalizing t with
  | zero => simp [Tia.clock]
  | succ n ih =>
    rw [Tia.clock, t.clock1_of_ne (by omega), ih _ (by change t.h + 1 + n < 160; omega)]
    simp only [Tia.mk.injEq, and_true]
    push_cast
    omega

/-- Before its first period the audio half only counts (R373). -/
theorem Audio.clock_of_lt (cfg : Config) (n : Nat) (au : Audio) (h : au.residue + n < cfg.audioTickPeriod) :
    au.clock cfg n = { au with residue := au.residue + n } := by
  rw [Audio.clock, Nat.div_eq_of_lt h, Nat.mod_eq_of_lt h, Audio.ticks]

/-! ### The cartridge at the reset vector -/

/-- No hotspot of a scheme that is not an armed Activision trigger lies at the reset vector (R401 to R417). -/
theorem Mapper.access_vector (rom : Rom) (data : Byte) {a : Nat} (ha : a = 0x1FFC ∨ a = 0x1FFD) {m : Mapper}
    (hm : ∀ bank, m ≠ .activision bank true) : (m.access rom a data).2 = m := by
  cases m
  case activision bank armed =>
    cases armed
    · obtain rfl | rfl := ha <;> rfl
    · exact absurd rfl (hm bank)
  case std sz r k => obtain rfl | rfl := ha <;> cases sz <;> rfl
  case superChip sz k cram => obtain rfl | rfl := ha <;> cases sz <;> rfl
  all_goals obtain rfl | rfl := ha <;> rfl

theorem Cart.access_vector (data : Byte) {a : Nat} (ha : a = 0x1FFC ∨ a = 0x1FFD) {c : Cart}
    (hc : ∀ bank, c.mapper ≠ .activision bank true) : (c.access a data).2 = c := by
  rw [Cart.access, Mapper.access_vector c.rom data ha hc]

/-! ### What `reset()` leaves on the bus when no stall is pending -/

section
variable {s : State} (h : s.bus.wsyncExtra = 0)

theorem State.warmReset_bus : s.warmReset.bus = ((s.bus.tick.peek 0xFFFC#16).2.tick.peek 0xFFFD#16).2 := rfl

@[simp] theorem chipOf_resetVector_low : chipOf 0xFFFC#16 = .cart := by decide

@[simp] theorem chipOf_resetVector_high : chipOf 0xFFFD#16 = .cart := by decide

theorem State.warmReset_rom : s.warmReset.bus.cart.rom = s.bus.cart.rom := by simp [State.warmReset_bus]

/-- The vector reads find the cartridge at no hotspot (R450). -/
theorem State.warmReset_cart (hc : ∀ bank, s.bus.cart.mapper ≠ .activision bank true) :
    s.warmReset.bus.cart = s.bus.cart := by
  have hfirst : (s.bus.tick.peek 0xFFFC#16).2.tick.cart = s.bus.cart := by
    rw [Bus.tick_cart, Bus.peek_cart, if_pos chipOf_resetVector_low, Bus.tick_cart]
    exact Cart.access_vector _ (.inl rfl) hc
  rw [State.warmReset_bus, Bus.peek_cart, if_pos chipOf_resetVector_high, hfirst]
  exact Cart.access_vector _ (.inr rfl) hc

include h

theorem State.warmReset_sysclk : s.warmReset.bus.sysclk = s.bus.sysclk + 6 := by simp [State.warmReset_bus, h]

theorem State.warmReset_tia : s.warmReset.bus.tia = (s.bus.tia.clock 3).clock 3 := by
  simp [State.warmReset_bus, Bus.peek_tia, h]

theorem State.warmReset_riot : s.warmReset.bus.riot = (s.bus.riot.clock 3).clock 3 := by
  simp [State.warmReset_bus, Bus.peek_riot, h]

theorem State.warmReset_audio : s.warmReset.bus.audio = (s.bus.audio.clock s.bus.cfg 3).clock s.bus.cfg 3 := by
  simp [State.warmReset_bus, h]

theorem State.warmReset_portCalls :
    s.warmReset.bus.portCalls =
      { left := .clock 3 :: .clock 3 :: s.bus.portCalls.left
        right := .clock 3 :: .clock 3 :: s.bus.portCalls.right } := by
  simp [State.warmReset_bus, Bus.peek_portCalls, h, PortCalls.after, PortCalls.both, PortCalls.none]

end

/-! ### Power-on -/

section
variable (cfg : Config) (cart : Cart) (inp : Inputs) (dr : Draws)

theorem State.powerOn_tia : (State.powerOn cfg cart inp dr).bus.tia = { Tia.powerOn with h := -62 } := by
  refine (State.warmReset_tia rfl).trans ?_
  change Tia.powerOn.clock 6 = _
  rw [Tia.clock_of_lt 6 _ (by decide)]
  rfl

theorem State.powerOn_audio (hp : 6 < cfg.audioTickPeriod) :
    (State.powerOn cfg cart inp dr).bus.audio = { Audio.powerOn with residue := 6 } := by
  refine (State.warmReset_audio rfl).trans ?_
  change (Audio.powerOn.clock cfg 3).clock cfg 3 = _
  rw [Audio.clock_clock _ _ _ _ (Nat.zero_lt_of_lt hp), Audio.clock_of_lt cfg 6 Audio.powerOn hp]
  rfl

theorem State.powerOn_audio_programmed :
    (State.powerOn cfg cart inp dr).bus.audio.programmed = Audio.powerOn := by
  rw [State.powerOn, State.warmReset_audio rfl, Audio.clock_programmed, Audio.clock_programmed]
  rfl

end

/-- A power-on selector is its bits of the initial bank (R398). -/
theorem BitVec.ofNat_mod_two_pow (w n : Nat) : BitVec.ofNat w (n % 2 ^ w) = BitVec.ofNat w n := by
  apply BitVec.eq_of_toNat_eq
  rw [BitVec.toNat_ofNat, BitVec.toNat_ofNat, Nat.mod_mod]

theorem Mapper.powerOn_ne_armed (n slices : Nat) (mem mem256 : Memory) (sch : Scheme) (bank : Nat) :
    Mapper.powerOn n slices mem mem256 sch ≠ .activision bank true := by
  cases sch <;> simp [Mapper.powerOn]

theorem Cart.create_eq_some {cfg : Config} {sch : Scheme} {rom : Rom} {mem mem256 : Memory} {cart : Cart}
    (h : Cart.create cfg sch rom mem mem256 = some cart) :
    cart = { rom := rom, mapper := Mapper.powerOn cfg.mapperInitBank rom.slices mem mem256 sch } := by
  simp only [Cart.create, Option.ite_none_right_eq_some, Option.some.injEq] at h
  exact h.2.symm

/-- Settles O53: power-on is `reset()` from the created machine, whose chips count the two cycles' six clocks; the
vector reads find no hotspot, so that the cartridge stays as the registry made it. -/
theorem powerOnValues : Obligations.PowerOnValues := by
  unfold Obligations.PowerOnValues
  constructor
  · intro cfg cart inp dr b lo hi s unit silent
    have hbus : s.bus = hi.2 := rfl
    have hcfg : s.bus.cfg = cfg := by rw [hbus, Bus.peek_cfg, Bus.tick_cfg, Bus.peek_cfg]; rfl
    have hinputs : s.bus.inputs = inp := by rw [hbus, Bus.peek_inputs, Bus.tick_inputs, Bus.peek_inputs]; rfl
    have hcycles : s.bus.cycles = 2 := by
      rw [hbus, Bus.peek_cycles, Bus.tick_cycles, Bus.peek_cycles, Bus.tick_cycles]; rfl
    have hstall : s.bus.wsyncExtra = 0 := by rw [hbus, Bus.peek_wsyncExtra, Bus.tick_wsyncExtra]
    have hram : s.bus.ram = dr.ram := by rw [hbus, Bus.peek_ram, Bus.tick_ram, Bus.peek_ram]; rfl
    exact ⟨rfl, hcfg, hinputs, Bus.peek_busTrash _ _, State.warmReset_sysclk rfl, hcycles, hstall, hram,
      State.powerOn_tia cfg cart inp dr, State.warmReset_riot rfl, State.powerOn_audio_programmed cfg cart inp dr,
      State.powerOn_audio cfg cart inp dr, State.warmReset_portCalls rfl, State.warmReset_rom⟩
  · intro cfg sch rom mem mem256 cart inp dr hcreate first
    obtain rfl := Cart.create_eq_some hcreate
    refine ⟨State.warmReset_cart (Mapper.powerOn_ne_armed _ _ _ _ _), rfl, ?_⟩
    have hslot : BitVec.ofNat 3 (first 8) = BitVec.ofNat 3 cfg.mapperInitBank := BitVec.ofNat_mod_two_pow 3 _
    have hslice : BitVec.ofNat 5 (first 32) = BitVec.ofNat 5 cfg.mapperInitBank := BitVec.ofNat_mod_two_pow 5 _
    have hpage : BitVec.ofNat 2 (first 4) = BitVec.ofNat 2 cfg.mapperInitBank := BitVec.ofNat_mod_two_pow 2 _
    have hbank : BitVec.ofNat 4 (first 16) = BitVec.ofNat 4 cfg.mapperInitBank := BitVec.ofNat_mod_two_pow 4 _
    rw [hslot, hslice, hpage, hbank]
    cases sch <;> rfl

end Sys2Proof.Machine
end

section
/-!
PROOFS. The machine after power-on is well formed and in lockstep (spec/70_reset_and_hazards.md R450, R451;
spec/10_state.md R29 to R37).
-/

namespace Sys2Proof.Machine

/-- `reset()` is two reads, which keep the ranges (R450). -/
theorem State.Ok.warmReset {s : State} (h : s.Ok) : s.warmReset.Ok := (h.tick.peek 0xFFFC).tick.peek 0xFFFD

/-- `reset()` is two reads, which keep the lockstep (R450). -/
theorem State.Lockstep.warmReset {s : State} (h : s.Lockstep) : s.warmReset.Lockstep :=
  (h.tick.peek 0xFFFC).tick.peek 0xFFFD

theorem PlayerUnit.powerOn_ok : PlayerUnit.powerOn.Ok := ⟨by decide, by decide⟩

theorem Tia.powerOn_ok : Tia.powerOn.Ok :=
  { left := by decide
    cursor := by decide
    right := by decide
    p0 := PlayerUnit.powerOn_ok
    p1 := PlayerUnit.powerOn_ok
    ball := by decide }

theorem Channel.powerOn_ok {cfg : Config} (h : cfg.wf) : Channel.powerOn.Ok cfg := (h.2 0).1

theorem Audio.powerOn_ok {cfg : Config} (h : cfg.wf) : Audio.powerOn.Ok cfg :=
  ⟨Channel.powerOn_ok h, Channel.powerOn_ok h, h.1⟩

theorem Riot.powerOn_ok : Riot.powerOn.Ok := ⟨by decide, by decide⟩

section
variable {cfg : Config} {cart : Cart} {inp : Inputs} {dr : Draws}

theorem State.created_ok (hcfg : cfg.wf) (hcart : cart.wf) (hram : Memory.wfIn 128 dr.ram) :
    (State.created cfg cart inp dr).Ok :=
  { cfg := hcfg
    ram := hram
    stall := Nat.succ_pos _
    tia := Tia.powerOn_ok
    audio := Audio.powerOn_ok hcfg
    riot := Riot.powerOn_ok
    cart := hcart }

theorem State.created_lockstep : (State.created cfg cart inp dr).Lockstep :=
  { beam := rfl
    cycle := rfl
    stall := .inl rfl
    riot := rfl
    audio := (Nat.zero_mod _).symm
    elapsed := le_rfl
    left := rfl
    right := rfl }

end

/-- Settles O56: the created machine is well formed with its clocks at 0, and the two reads of `reset()` keep both. -/
theorem powerOnIsWellFormed : Obligations.PowerOnIsWellFormed := by
  unfold Obligations.PowerOnIsWellFormed
  intro cfg cart inp dr hcfg hcart hram
  exact ⟨(State.created_ok hcfg hcart hram).warmReset, State.created_lockstep.warmReset⟩

/-! ### The reset state -/

theorem length_lfsrBits (w t n st : Nat) : (lfsrBits w t n st).length = n := by
  induction n generalizing st with
  | zero => rfl
  | succ n ih => rw [lfsrBits, List.length_cons, ih]

theorem length_gatedBits (trig : Nat → Bool) (n t i : Nat) : (gatedBits trig n t i).length = n := by
  induction n generalizing t i with
  | zero => rfl
  | succ n ih => rw [gatedBits, List.length_cons, ih]

/-- Every default table has an entry and a positive divisor (R376). -/
theorem defaultConfig_wf : defaultConfig.wf := by
  refine ⟨by decide, fun k => ?_⟩
  fin_cases k <;>
    simp [defaultConfig, defaultWaves, Waveform.len, waveOne, waveDiv2, waveDiv31, waveP4, waveP5, waveP9, lfsrTable,
      waveD31P4, waveP5P4, length_lfsrBits, length_gatedBits]

theorem Memory.wfIn_nil (size : Nat) : Memory.wfIn size [] :=
  ⟨⟨List.Pairwise.nil, by simp⟩, by simp⟩

theorem Cart.blank_wf : Cart.blank.wf := ⟨rfl, Memory.wfIn_nil 4096, trivial⟩

/-- Settles O55: the reset state is power-on with the default values, by evaluation, so that O56 applies to it. -/
theorem resetIsWellFormed : Obligations.ResetIsWellFormed := by
  unfold Obligations.ResetIsWellFormed
  have hreset : State.reset = State.powerOn defaultConfig .blank .idle .zero := rfl
  obtain ⟨hok, hlock⟩ :=
    powerOnIsWellFormed defaultConfig .blank .idle .zero defaultConfig_wf Cart.blank_wf (Memory.wfIn_nil 128)
  exact ⟨hreset, hreset ▸ hok, hreset ▸ hlock⟩

end Sys2Proof.Machine
end

section
/-!
PROOFS. The cartridge (spec/64_mappers.md R394 to R418): the window, the standard schemes, and the selection and the
byte of the schemes without special registers.
-/

namespace Sys2Proof.Machine

/-! ### The window and a 4 KiB bank -/

theorem inWindow_of_le {a : Nat} (h : 4096 ≤ a) : inWindow a = true := decide_eq_true h

theorem inWindow_of_lt {a : Nat} (h : a < 4096) : inWindow a = false := decide_eq_false (Nat.not_le.mpr h)

/-- Inside the window a bank shows its byte, below it nothing is driven (R394). -/
theorem bankRead_eq (rom : Rom) (bank : Nat) {a : Nat} (ha : a < 8192) :
    bankRead rom bank a = if 4096 ≤ a then some (rom.read (bank * 4096 + (a - 4096))) else none := by
  by_cases h : 4096 ≤ a
  · rw [bankRead, inWindow_of_le h, if_pos rfl, if_pos h, show a % 4096 = a - 4096 by omega]
  · rw [bankRead, inWindow_of_lt (Nat.lt_of_not_le h), if_neg Bool.false_ne_true, if_neg h]

/-! ### The standard schemes -/

theorem StdSize.firstHotspot_eq (sz : StdSize) : [0x1FF8, 0x1FF6, 0x1FF4].getD (sz.banks / 4) 0 = sz.firstHotspot := by
  cases sz <;> rfl

section
variable (sz : StdSize) (reversed : Bool) (bank : Nat)

/-- Hotspot number `i` selects bank `i`, or the reversed bank (R401 to R404). -/
theorem StdSize.select_hotspot {i : Nat} (hi : i < sz.banks) :
    sz.select reversed (sz.firstHotspot + i) bank = if reversed then sz.banks - 1 - i else i := by
  rw [StdSize.select, if_pos ⟨Nat.le_add_right _ _, Nat.add_lt_add_left hi _⟩, Nat.add_sub_cancel_left]

/-- No other address selects (R401 to R404). -/
theorem StdSize.select_of_not_hotspot {a : Nat} (h : a < sz.firstHotspot ∨ sz.firstHotspot + sz.banks ≤ a) :
    sz.select reversed a bank = bank :=
  if_neg (by omega)

/-- A second access to one address selects nothing else (R396). -/
theorem StdSize.select_select (a : Nat) :
    sz.select reversed a (sz.select reversed a bank) = sz.select reversed a bank := by
  by_cases h : sz.firstHotspot ≤ a ∧ a < sz.firstHotspot + sz.banks
  · simp only [StdSize.select, if_pos h]
  · simp only [StdSize.select, if_neg h]

end

/-- Settles O48: an access is the selection and then the read of the selected bank. -/
theorem standardHotspots : Obligations.StandardHotspots := by
  unfold Obligations.StandardHotspots
  intro rom sz reversed bank a data data' ha first r
  have hfirst : first = sz.firstHotspot := sz.firstHotspot_eq
  have hr : r = (bankRead rom (sz.select reversed a bank) a, .std sz reversed (sz.select reversed a bank)) := rfl
  rw [hr, bankRead_eq _ _ ha, hfirst]
  refine ⟨?_, ?_, ?_, ?_, ?_, ?_⟩
  · rintro i hi rfl
    rw [sz.select_hotspot reversed bank hi]
  · intro h
    rw [sz.select_of_not_hotspot reversed bank h]
  · intro k hk hwindow
    obtain rfl : sz.select reversed a bank = k := (Mapper.std.inj hk).2.2
    exact if_pos hwindow
  · intro hlow
    exact if_neg (Nat.not_le.mpr hlow)
  · rw [← bankRead_eq _ _ ha]
    rfl
  · change Mapper.std sz reversed (sz.select reversed a (sz.select reversed a bank)) = _
    rw [sz.select_select]

/-! ### Selection by the low bits of the address -/

/-- In a range of hotspots that starts at a multiple of the number of choices, the low bits of the address are the
hotspot's number. -/
theorem hotspot_lowBits {w a lo hi : Nat} (hlo : 2 ^ w ∣ lo) (sel : BitVec w) :
    (if lo ≤ a ∧ a ≤ hi then BitVec.ofNat w a else sel) =
      if lo ≤ a ∧ a < hi + 1 then BitVec.ofNat w (a - lo) else sel := by
  by_cases h : lo ≤ a ∧ a ≤ hi
  · rw [if_pos h, if_pos ⟨h.1, Nat.lt_succ_of_le h.2⟩]
    apply BitVec.eq_of_toNat_eq
    rw [BitVec.toNat_ofNat, BitVec.toNat_ofNat]
    obtain ⟨k, rfl⟩ := hlo
    obtain ⟨j, rfl⟩ := Nat.exists_eq_add_of_le h.1
    rw [Nat.add_sub_cancel_left, Nat.mul_add_mod]
  · rw [if_neg h, if_neg (by omega)]

/-! ### The other schemes, apart from their RAM ports and the Pitfall-II registers -/

section
variable (rom : Rom) {a : Nat} (data : Byte)

/-- In its window Tigervision shows the selected slice below 6144 and the last one above (R407). -/
theorem accessTigervision_fst (bank : Nat) (hwindow : 4096 ≤ a) :
    (accessTigervision rom a data bank).1 =
      some (rom.read ((if a / 2048 % 2 = 0 then bank else rom.slices - 1) * 2048 + a % 2048)) := by
  simp only [accessTigervision, inWindow_of_le hwindow, if_true, if_neg (by omega : ¬ a ≤ 0x003F)]

/-- Activision's byte comes from the bank before the access (R411). -/
theorem accessActivision_eq (ha : a < 8192) (bank : Nat) (armed : Bool) :
    let d := if 4096 ≤ a then rom.read (bank * 4096 + (a - 4096)) else data
    accessActivision rom a data bank armed =
      (if 4096 ≤ a then some d else none,
        .activision (if armed then (if d.getLsbD 5 then 0 else 1) else bank) (decide (a = 0x01FE))) := by
  intro d
  simp only [accessActivision, bankRead_eq rom bank ha, d]
  split <;> rfl

/-- The slot of an address in the window (R406). -/
theorem parkerSlice_eq (s0 s1 s2 : BitVec 3) (ha : a < 8192) (hwindow : 4096 ≤ a) :
    parkerSlice s0 s1 s2 a =
      if a < 0x1400 then s0.toNat else if a < 0x1800 then s1.toNat else if a < 0x1C00 then s2.toNat else 7 := by
  have hslot : a / 1024 % 4 = if a < 0x1400 then 0 else if a < 0x1800 then 1 else if a < 0x1C00 then 2 else 3 := by
    split_ifs <;> omega
  rw [parkerSlice, hslot]
  split_ifs <;> rfl

theorem accessParker_eq (s0 s1 s2 : BitVec 3) (ha : a < 8192) :
    let n0 := if 0x1FE0 ≤ a ∧ a < 0x1FE8 then BitVec.ofNat 3 (a - 0x1FE0) else s0
    let n1 := if 0x1FE8 ≤ a ∧ a < 0x1FF0 then BitVec.ofNat 3 (a - 0x1FE8) else s1
    let n2 := if 0x1FF0 ≤ a ∧ a < 0x1FF8 then BitVec.ofNat 3 (a - 0x1FF0) else s2
    let slice := if a < 0x1400 then n0.toNat else if a < 0x1800 then n1.toNat else if a < 0x1C00 then n2.toNat else 7
    accessParker rom a s0 s1 s2 =
      (if 4096 ≤ a then some (rom.read (slice * 1024 + a % 1024)) else none, .parker n0 n1 n2) := by
  intro n0 n1 n2 slice
  simp only [accessParker, hotspot_lowBits (w := 3) (lo := 0x1FE0) (by decide),
    hotspot_lowBits (w := 3) (lo := 0x1FE8) (by decide), hotspot_lowBits (w := 3) (lo := 0x1FF0) (by decide)]
  by_cases h : 4096 ≤ a
  · rw [inWindow_of_le h, if_pos rfl, if_pos h, parkerSlice_eq _ _ _ ha h]
  · rw [inWindow_of_lt (Nat.lt_of_not_le h), if_neg Bool.false_ne_true, if_neg h]

theorem access_fixed2K_eq :
    Mapper.fixed2K.access rom a data = (if 4096 ≤ a then some (rom.read (a % 2048)) else none, .fixed2K) := by
  simp only [Mapper.access, inWindow, decide_eq_true_eq]

theorem accessUa_eq (ha : a < 8192) (bank : Nat) :
    let n := if a = 0x0220 then 0 else if a = 0x0240 then 1 else bank
    accessUa rom a bank =
      (if 4096 ≤ a then some (rom.read (n * 4096 + (a - 4096))) else none, .uaLimited n) := by
  intro n
  rw [← bankRead_eq rom n ha]
  rfl

theorem accessMegaboy_eq (ha : a < 8192) (bank : BitVec 4) :
    let n := if a = 0x1FF0 then bank + 1 else bank
    accessMegaboy rom a bank =
      (if 4096 ≤ a then some (rom.read (n.toNat * 4096 + (a - 4096))) else none, .megaboy n) := by
  intro n
  rw [← bankRead_eq rom n.toNat ha]
  rfl

/-- The three hotspots of CBS, one by one (R413). -/
theorem cbsSelect_eq (bank : Nat) :
    cbsSelect a bank = if a = 0x1FF8 then 0 else if a = 0x1FF9 then 1 else if a = 0x1FFA then 2 else bank := by
  unfold cbsSelect
  split_ifs <;> omega

/-- The two hotspots of an 8K scheme, one by one (R401). -/
theorem StdSize.select_f8 (bank : Nat) :
    StdSize.f8.select false a bank = if a = 0x1FF8 then 0 else if a = 0x1FF9 then 1 else bank := by
  have hfirst : StdSize.f8.firstHotspot = 0x1FF8 := rfl
  have hbanks : StdSize.f8.banks = 2 := rfl
  simp only [StdSize.select, hfirst, hbanks, Bool.false_eq_true, if_false]
  split_ifs <;> omega

/-- Outside its RAM ports CBS is a bank of the image (R413). -/
theorem accessCbs_of_not_port (ha : a < 8192) (hport : a < 0x1000 ∨ 0x1200 ≤ a) (bank : Nat) (cram : Memory) :
    accessCbs rom a data bank cram = (bankRead rom (cbsSelect a bank) a, .cbs (cbsSelect a bank) cram) := by
  unfold accessCbs
  obtain hlow | hhigh := hport
  · simp [inWindow_of_lt hlow]
  · simp only [decide_eq_false (by omega : ¬ a % 4096 < 0x100), decide_eq_false (by omega : ¬ a % 4096 < 0x200),
      Bool.and_false, if_neg Bool.false_ne_true]

/-- Outside its RAM ports a super-chip scheme is a standard one (R405). -/
theorem accessSuperChip_of_not_port (ha : a < 8192) (hport : a < 0x1000 ∨ 0x1100 ≤ a) (sz : StdSize) (bank : Nat)
    (cram : Memory) :
    accessSuperChip rom a data sz bank cram =
      (bankRead rom (sz.select false a bank) a, .superChip sz (sz.select false a bank) cram) := by
  unfold accessSuperChip
  obtain hlow | hhigh := hport
  · simp [inWindow_of_lt hlow]
  · simp only [decide_eq_false (by omega : ¬ a % 4096 < 0x080), decide_eq_false (by omega : ¬ a % 4096 < 0x100),
      Bool.and_false, if_neg Bool.false_ne_true]

/-- Outside its registers Pitfall II is an 8K scheme (R418). -/
theorem accessPitfall2_of_not_register (ha : a < 8192) (hport : a < 0x1000 ∨ 0x1080 ≤ a) (d : Dpc) :
    accessPitfall2 rom a data d =
      (bankRead rom (StdSize.f8.select false a d.bank) a,
        .pitfall2 { d with bank := StdSize.f8.select false a d.bank }) := by
  unfold accessPitfall2 bankRead
  obtain hlow | hhigh := hport
  · simp [inWindow_of_lt hlow]
  · have hread : ¬ a % 4096 < 0x040 := by omega
    have hwrite : ¬ a % 4096 < 0x080 := by omega
    rw [inWindow_of_le (by omega : 4096 ≤ a), if_pos rfl]
    simp only [Bool.not_true, if_neg Bool.false_ne_true, if_neg hread, if_neg hwrite]

end

end Sys2Proof.Machine
end

section
/-!
PROOFS. The cartridge (spec/64_mappers.md R408, R412, R418 to R424): extended Tigervision, M-Network, the Pitfall-II
registers, and what every scheme that is not a standard one selects.
-/

namespace Sys2Proof.Machine

section
variable (rom : Rom) {a : Nat} (data : Byte)

/-- What an access does under extended Tigervision: the two registers, and then the slots of the window (R408). -/
theorem accessTigervisionRam_cases (ram : Bool) (bank : Nat) (k : BitVec 5) (cram : Memory) :
    let r := accessTigervisionRam rom a data ram bank k cram
    (a = 0x003F → r = (none, .tigervisionRam false (data.toNat % rom.slices) k cram)) ∧
    (a = 0x003E → r = (none, .tigervisionRam true bank (data.extractLsb' 0 5) cram)) ∧
    (a < 4096 → a ≠ 0x003F → a ≠ 0x003E → r = (none, .tigervisionRam ram bank k cram)) ∧
    (4096 ≤ a → a / 2048 % 2 = 1 →
      r = (some (rom.read ((rom.slices - 1) * 2048 + a % 2048)), .tigervisionRam ram bank k cram)) ∧
    (4096 ≤ a → a / 2048 % 2 = 0 → ram = false →
      r = (some (rom.read (bank * 2048 + a % 2048)), .tigervisionRam ram bank k cram)) ∧
    (4096 ≤ a → a / 2048 % 2 = 0 → ram = true → a / 1024 % 2 = 0 →
      r = (some (cram.read (k.toNat * 1024 + a % 1024)), .tigervisionRam ram bank k cram)) ∧
    (4096 ≤ a → a / 2048 % 2 = 0 → ram = true → a / 1024 % 2 = 1 →
      r = (none, .tigervisionRam ram bank k (cram.write (k.toNat * 1024 + a % 1024) data))) := by
  intro r
  simp only [r, accessTigervisionRam]
  refine ⟨?_, ?_, ?_, ?_, ?_, ?_, ?_⟩
  · intro h
    rw [if_pos h]
  · intro h
    rw [if_neg (by omega), if_pos h]
  · intro hlow h1 h2
    rw [if_neg h1, if_neg h2, inWindow_of_lt hlow, Bool.not_false, if_pos rfl]
  all_goals
    intro hwindow hslot
    rw [if_neg (by omega), if_neg (by omega), inWindow_of_le hwindow, Bool.not_true, if_neg Bool.false_ne_true]
  · rw [if_pos hslot]
  · rintro rfl
    rw [if_neg (by omega), Bool.not_false, if_pos rfl]
  · rintro rfl hread
    rw [if_neg (by omega), Bool.not_true, if_neg Bool.false_ne_true, if_pos hread]
  · rintro rfl hwrite
    rw [if_neg (by omega), Bool.not_true, if_neg Bool.false_ne_true, if_neg (by omega)]

/-- What an access below the hotspots does under M-Network (R412). -/
theorem accessMNetwork_cases (hselect : a < 0x1FE0) (low : BitVec 3) (page : BitVec 2) (big small : Memory) :
    let r := accessMNetwork rom a data low page big small
    (a < 4096 → r = (none, .mNetwork low page big small)) ∧
    (4096 ≤ a → a % 4096 < 0x0800 → low.toNat < 7 →
      r = (some (rom.read (low.toNat * 2048 + a % 4096)), .mNetwork low page big small)) ∧
    (4096 ≤ a → a % 4096 < 0x0400 → low.toNat = 7 →
      r = (none, .mNetwork low page (big.write (a % 4096) data) small)) ∧
    (0x1400 ≤ a → a % 4096 < 0x0800 → low.toNat = 7 →
      r = (some (big.read (a % 4096 - 0x0400)), .mNetwork low page big small)) ∧
    (0x1800 ≤ a → a % 4096 < 0x0900 →
      r = (none, .mNetwork low page big (small.write (page.toNat * 256 + (a % 4096 - 0x0800)) data))) ∧
    (0x1900 ≤ a → a % 4096 < 0x0A00 →
      r = (some (small.read (page.toNat * 256 + (a % 4096 - 0x0900))), .mNetwork low page big small)) := by
  intro r
  have hlow : ¬ (0x1FE0 ≤ a ∧ a ≤ 0x1FE7) := by omega
  have hpage : ¬ (0x1FE8 ≤ a ∧ a ≤ 0x1FEB) := by omega
  simp only [r, accessMNetwork, if_neg hlow, if_neg hpage]
  refine ⟨?_, ?_, ?_, ?_, ?_, ?_⟩
  case refine_1 =>
    intro h
    rw [inWindow_of_lt h, Bool.not_false, if_pos rfl]
  all_goals
    intro hwindow
    rw [inWindow_of_le (by omega), Bool.not_true, if_neg Bool.false_ne_true]
  · intro ho hbank
    rw [if_pos ho, if_pos hbank]
  · intro ho hbank
    rw [if_pos (by omega), if_neg (by omega), if_pos ho]
  · intro ho hbank
    rw [if_pos ho, if_neg (by omega), if_neg (by omega)]
  · intro ho
    rw [if_neg (by omega), if_pos ho]
  · intro ho
    rw [if_neg (by omega), if_neg (by omega), if_pos ho]

/-- The upper part of M-Network's window is fixed, and its hotspots select the low bank and the page (R412). -/
theorem accessMNetwork_upper (ha : a < 8192) (hwindow : 0x1A00 ≤ a) (low : BitVec 3) (page : BitVec 2)
    (big small : Memory) :
    accessMNetwork rom a data low page big small =
      (some (rom.read (7 * 2048 + (a % 4096 - 0x0800))),
        .mNetwork (if 0x1FE0 ≤ a ∧ a < 0x1FE8 then BitVec.ofNat 3 (a - 0x1FE0) else low)
          (if 0x1FE8 ≤ a ∧ a < 0x1FEC then BitVec.ofNat 2 (a - 0x1FE8) else page) big small) := by
  simp only [accessMNetwork, hotspot_lowBits (w := 3) (lo := 0x1FE0) (by decide),
    hotspot_lowBits (w := 2) (lo := 0x1FE8) (by decide)]
  rw [inWindow_of_le (by omega), Bool.not_true, if_neg Bool.false_ne_true, if_neg (by omega), if_neg (by omega),
    if_neg (by omega)]

end

/-! ### The Pitfall-II registers -/

/-- An entry of a written vector. -/
theorem Vector.getElem_set_val {α : Type} {n : Nat} (xs : Vector α n) (i j : Fin n) (x : α) :
    (xs.set i.val x)[j.val] = if j = i then x else xs[j.val] := by
  simp only [Vector.getElem_set, Fin.ext_iff, eq_comm (a := i.val)]

section
variable (i : Fin 8) (f : Nat)

/-- Register `8 * f + i` belongs to fetcher `i` (R418). -/
theorem fetcherOf_register : fetcherOf (8 * f + i.val) = i :=
  Fin.ext ((Nat.mul_add_mod 8 f i.val).trans (Nat.mod_eq_of_lt i.isLt))

/-- Register `8 * f + i` is function `f` of its fetcher (R418). -/
theorem function_register : (8 * f + i.val) / 8 = f := by omega

variable {f} (rom : Rom) (d : Dpc) (hf : f < 8)
include hf

/-- An access to a read register is `DpcRead` (R418, R424). -/
theorem access_pitfall2_read (data : Byte) :
    (Mapper.pitfall2 d).access rom (0x1000 + 8 * f + i.val) data =
      (some (d.read rom i f).1, .pitfall2 (d.read rom i f).2) := by
  have hi := i.isLt
  have hbank : StdSize.f8.select false (0x1000 + 8 * f + i.val) d.bank = d.bank :=
    StdSize.select_of_not_hotspot _ _ _ (.inl (by change _ < 0x1FF8; omega))
  have ho : (0x1000 + 8 * f + i.val) % 4096 = 8 * f + i.val := by omega
  simp only [Mapper.access, accessPitfall2, hbank, ho, fetcherOf_register, function_register, Nat.mod_eq_of_lt hf]
  rw [inWindow_of_le (by omega), Bool.not_true, if_neg Bool.false_ne_true, if_pos (by omega)]

/-- An access to a write register is `DpcWrite` (R418, R419). -/
theorem access_pitfall2_write (v : Byte) :
    (Mapper.pitfall2 d).access rom (0x1040 + 8 * f + i.val) v = (none, .pitfall2 (d.write i f v)) := by
  have hi := i.isLt
  have hbank : StdSize.f8.select false (0x1040 + 8 * f + i.val) d.bank = d.bank :=
    StdSize.select_of_not_hotspot _ _ _ (.inl (by change _ < 0x1FF8; omega))
  have ho : (0x1040 + 8 * f + i.val) % 4096 = 8 * (8 + f) + i.val := by omega
  have hfunction : (8 + f) % 8 = f := by omega
  simp only [Mapper.access, accessPitfall2, hbank, ho, fetcherOf_register, function_register, hfunction]
  rw [inWindow_of_le (by omega), Bool.not_true, if_neg Bool.false_ne_true, if_neg (by omega), if_pos (by omega)]

end

/-! ### What a Pitfall-II access does to the fetchers -/

/-- A counter with its low byte replaced (R419). -/
theorem toNat_setLow (c : BitVec 11) (v : Byte) :
    (c.extractLsb' 8 3 ++ v : BitVec 11).toNat = c.toNat / 256 * 256 + v.toNat := by
  have hc := c.isLt
  rw [BitVec.toNat_append, ← Nat.shiftLeft_add_eq_or_of_lt v.isLt, BitVec.extractLsb'_toNat, Nat.shiftLeft_eq,
    Nat.shiftRight_eq_div_pow]
  omega

/-- A counter with its high three bits replaced (R419). -/
theorem toNat_setHigh (c : BitVec 11) (v : Byte) :
    (v.extractLsb' 0 3 ++ c.extractLsb' 0 8 : BitVec 11).toNat = v.toNat % 8 * 256 + c.toNat % 256 := by
  rw [BitVec.toNat_append, ← Nat.shiftLeft_add_eq_or_of_lt (BitVec.isLt _), BitVec.extractLsb'_toNat,
    BitVec.extractLsb'_toNat, Nat.shiftLeft_eq, Nat.shiftRight_zero, Nat.shiftRight_zero]

/-- A counter one lower, mod 2048 (R424). -/
theorem toNat_countDown (c : BitVec 11) : (c - 1).toNat = (c.toNat + 2047) % 2048 := by bv_omega

section
variable (rom : Rom) (d : Dpc) (i : Fin 8) {f : Nat} (v : Byte)

/-- What a write register does to each part of the state (R419). -/
theorem Dpc.write_parts (hf : f < 8) :
    (d.write i f v).bank = d.bank ∧ (d.write i f v).lfsr = (if f = 6 then 1 else d.lfsr) ∧
      (∀ j : Fin 8,
        (d.write i f v).top[j] = (if f = 0 ∧ j = i then v else d.top[j]) ∧
        (d.write i f v).bot[j] = (if f = 1 ∧ j = i then v else d.bot[j]) ∧
        (d.write i f v).flag[j] = (if f = 0 ∧ j = i then false else d.flag[j]) ∧
        (d.write i f v).ctr[j].toNat =
          (if f = 2 ∧ j = i then d.ctr[j].toNat / 256 * 256 + v.toNat
          else if f = 3 ∧ j = i then v.toNat % 8 * 256 + d.ctr[j].toNat % 256
          else d.ctr[j].toNat)) ∧
      ∀ k : Fin 3, (d.write i f v).music[k] = (if f = 3 ∧ i.val = 5 + k.val then v.getLsbD 4 else d.music[k]) := by
  have hlow (j : Fin 8) : (if j = i then d.ctr[i.val].extractLsb' 8 3 ++ v else d.ctr[j.val]).toNat =
      if j = i then d.ctr[j.val].toNat / 256 * 256 + v.toNat else d.ctr[j.val].toNat := by
    split
    · rw [toNat_setLow, ‹j = i›]
    · rfl
  have hhigh (j : Fin 8) :
      (if j = i then v.extractLsb' 0 3 ++ d.ctr[i.val].extractLsb' 0 8 else d.ctr[j.val]).toNat =
        if j = i then v.toNat % 8 * 256 + d.ctr[j.val].toNat % 256 else d.ctr[j.val].toNat := by
    split
    · rw [toNat_setHigh, ‹j = i›]
    · rfl
  interval_cases f <;> simp [Dpc.write, Vector.getElem_set_val, Dpc.musicSet, hlow, hhigh]

/-- What a read register does to the state, whatever its function (R420, R421, R424). -/
theorem Dpc.read_parts (f : Nat) :
    let d' := (d.read rom i f).2
    d'.lfsr = lfsrStep d.lfsr ∧ d'.flag[i] = d.flagNow i ∧ d'.ctr[i].toNat = (d.ctr[i].toNat + 2047) % 2048 ∧
      d'.bank = d.bank ∧ d'.top = d.top ∧ d'.bot = d.bot ∧
      ∀ j : Fin 8, j ≠ i → d'.ctr[j] = d.ctr[j] ∧ d'.flag[j] = d.flag[j] := by
  intro d'
  have hctr (j : Fin 8) : d'.ctr[j] = if j = i then d.ctr[i] - 1 else d.ctr[j] := Vector.getElem_set_val _ i j _
  have hflag (j : Fin 8) : d'.flag[j] = if j = i then d.flagNow i else d.flag[j] := Vector.getElem_set_val _ i j _
  refine ⟨rfl, ?_, ?_, rfl, rfl, rfl, ?_⟩
  · rw [hflag, if_pos rfl]
  · rw [hctr, if_pos rfl, toNat_countDown]
  · intro j hj
    rw [hctr, hflag, if_neg hj, if_neg hj]
    exact ⟨rfl, rfl⟩

end

/-- A byte masked by a flag (R417). -/
theorem and_flagByte (b : Byte) (f : Bool) : b &&& flagByte f = if f then b else 0 := by
  cases f
  · exact BitVec.and_zero
  · exact BitVec.and_allOnes

/-- The byte a read register shows: that of its function, with the shift register and the flag moved (R424). -/
theorem Dpc.read_values (rom : Rom) (d : Dpc) (i : Fin 8) :
    let shown := rom.read (8192 + (2047 - d.ctr[i].toNat))
    (d.read rom i 1).1 = shown ∧
    (d.read rom i 2).1 = (if d.flagNow i then shown else 0) ∧
    (d.read rom i 7).1 = (if d.flagNow i then 0xFF else 0x00) ∧
    (d.read rom i 0).1 = (if i.val < 4 then lfsrStep d.lfsr else 0) ∧
    ∀ f, 3 ≤ f → f ≤ 6 → (d.read rom i f).1 = 0 := by
  intro shown
  have hflag : (d.flag.set i (d.flagNow i))[i] = d.flagNow i := by
    rw [Fin.getElem_fin, Vector.getElem_set_val, if_pos rfl]
  refine ⟨rfl, ?_, ?_, rfl, ?_⟩
  · rw [← and_flagByte, ← hflag]
    rfl
  · rw [← hflag]
    rfl
  · intro f h3 h6
    interval_cases f <;> rfl

/-- Settles O51: an access to a read register is `DpcRead`, whose parts and byte are the two lemmas above. -/
theorem pitfallReads : Obligations.PitfallReads := by
  unfold Obligations.PitfallReads
  intro rom d i data low flag shown r
  have hr {f : Nat} (hf : f < 8) : r f = (some (d.read rom i f).1, .pitfall2 (d.read rom i f).2) :=
    access_pitfall2_read i rom d hf data
  obtain ⟨hdata, hmasked, hflag, hlfsr, hzero⟩ := d.read_values rom i
  refine ⟨?_, ?_, ?_, ?_, ?_, ?_⟩
  · rw [hr (by decide), hdata]
  · rw [hr (by decide), hmasked]
    rfl
  · rw [hr (by decide), hflag]
    rfl
  · rw [hr (by decide), hlfsr]
  · intro f h3 h6
    rw [hr (by omega), hzero f h3 h6]
  · intro f hf
    rw [hr hf]
    exact ⟨_, rfl, d.read_parts rom i f⟩

/-- The low five bits of a byte as a number (R408). -/
theorem Byte.lowFive_eq_ofNat (v : Byte) : v.extractLsb' 0 5 = BitVec.ofNat 5 (v.toNat % 32) := by
  apply BitVec.eq_of_toNat_eq
  rw [BitVec.extractLsb'_toNat, Nat.shiftRight_zero, BitVec.toNat_ofNat, Nat.mod_mod]

/-- Settles O50: each scheme's access is the lemma about it above. -/
theorem unusualSwitching : Obligations.UnusualSwitching := by
  unfold Obligations.UnusualSwitching
  refine ⟨?byData, ?byAddress, ?parker, ?tigervisionRam, ?mNetwork, ?dpcWrites⟩
  case byData =>
    intro rom bank a data armed k ha r f d
    have hf : f = _ := accessActivision_eq rom data ha bank armed
    refine ⟨rfl, ?_, ?_, by rw [hf], by rw [hf], rfl, ?_⟩
    · intro hwindow hslot
      refine (accessTigervision_fst rom data bank hwindow).trans ?_
      rw [if_pos (by omega), show a % 2048 = a - 4096 by omega]
    · intro hslot
      refine (accessTigervision_fst rom data bank (by omega)).trans ?_
      rw [if_neg (by omega), show a % 2048 = a - 6144 by omega]
    · intro hne
      exact congrArg Mapper.megaboy (if_neg hne)
  case byAddress =>
    intro rom bank a data ha window byte
    have hbyte (n : Nat) : bankRead rom n a = byte n := bankRead_eq rom n ha
    refine ⟨access_fixed2K_eq rom data, congrArg (·, Mapper.fixed4K) (hbyte 0), accessUa_eq rom ha bank, ?_, ?_,
      accessMegaboy_eq rom ha, ?_⟩
    · intro cram hport n
      have hn : cbsSelect a bank = n := cbsSelect_eq bank
      rw [← hbyte, ← hn]
      exact accessCbs_of_not_port rom data ha hport bank cram
    · intro sz cram hport first n
      have hn : sz.select false a bank = n := by
        simp only [n, first, sz.firstHotspot_eq]
        rfl
      rw [← hbyte, ← hn]
      exact accessSuperChip_of_not_port rom data ha hport sz bank cram
    · intro d hport n
      have hn : StdSize.f8.select false a d.bank = n := StdSize.select_f8 d.bank
      rw [← hbyte, ← hn]
      exact accessPitfall2_of_not_register rom data ha hport d
  case parker =>
    intro rom a data s0 s1 s2 ha
    exact accessParker_eq rom s0 s1 s2 ha
  case tigervisionRam =>
    intro rom bank a data ram k cram ha r
    obtain ⟨hrom, hram, hlow, hupper, hslot, -, -⟩ := accessTigervisionRam_cases rom (a := a) data ram bank k cram
    refine ⟨hrom, ?_, hlow, ?_, ?_⟩
    · intro h
      rw [← Byte.lowFive_eq_ofNat]
      exact hram h
    · intro hwindow hlt hmode
      refine (hslot hwindow (by omega) hmode).trans ?_
      rw [show a % 2048 = a - 4096 by omega]
    · intro hge
      refine (hupper (by omega) (by omega)).trans ?_
      rw [show a % 2048 = a - 6144 by omega]
  case mNetwork =>
    intro rom a data low page big small ha low' page' r
    refine ⟨?_, ?_, ?_⟩
    · intro hlt
      obtain ⟨hlow, -⟩ := accessMNetwork_cases rom data (by omega : a < 0x1FE0) low page big small
      exact hlow hlt
    · intro hwindow hlt hbank
      obtain ⟨-, hslice, -⟩ := accessMNetwork_cases rom data (by omega : a < 0x1FE0) low page big small
      refine (hslice hwindow (by omega) hbank).trans ?_
      rw [show a % 4096 = a - 4096 by omega]
    · intro hupper
      refine (accessMNetwork_upper rom data ha hupper low page big small).trans ?_
      rw [show a % 4096 - 0x0800 = a - 0x1800 by omega]
  case dpcWrites =>
    intro rom d i f v hf
    exact ⟨d.write i f v, access_pitfall2_write i rom d hf v, d.write_parts i v hf⟩

end Sys2Proof.Machine
end

section
/-!
PROOFS. Cartridge RAM (spec/64_mappers.md R397, R405, R408, R412, R413): the write port, the read port and the bytes
behind them.
-/

namespace Sys2Proof.Machine

/-! ### Cartridge RAM -/

/-- A read after a write (R68). -/
theorem Memory.read_write {m : Memory} (h : m.wf) (a k : Nat) (v : Byte) :
    (m.write a v).read k = if a = k then v else m.read k := by
  by_cases hk : a = k
  · rw [if_pos hk, ← hk, Memory.read_write_same h]
  · rw [if_neg hk, Memory.read_write_other h (Ne.symm hk)]

/-- Byte `i` of page `p` and byte `j` of page `q` are one byte exactly when both numbers agree. -/
theorem paged_eq_iff {n p q i j : Nat} (hi : i < n) (hj : j < n) : p * n + i = q * n + j ↔ p = q ∧ i = j := by
  constructor
  · intro h
    have hpage := congrArg (· / n) h
    have hbyte := congrArg (· % n) h
    simp only [Nat.mul_comm _ n, Nat.mul_add_div (Nat.zero_lt_of_lt hi), Nat.div_eq_of_lt hi, Nat.div_eq_of_lt hj,
      Nat.mul_add_mod, Nat.mod_eq_of_lt hi, Nat.mod_eq_of_lt hj, Nat.add_zero] at hpage hbyte
    exact ⟨hpage, hbyte⟩
  · rintro ⟨rfl, rfl⟩
    rfl

section
variable (rom : Rom) (data : Byte) {i : Nat}

/-- The RAM ports of the super-chip schemes hold no hotspot. -/
theorem StdSize.select_port (sz : StdSize) (bank : Nat) (hi : i < 0x100) : sz.select false (0x1000 + i) bank = bank :=
  sz.select_of_not_hotspot _ _ (.inl (by cases sz <;> simp only [StdSize.firstHotspot] <;> omega))

theorem access_superChip_writePort (sz : StdSize) (bank : Nat) (cram : Memory) (hi : i < 128) :
    (Mapper.superChip sz bank cram).access rom (0x1000 + i) data = (none, .superChip sz bank (cram.write i data)) := by
  have ho : (0x1000 + i) % 4096 = i := by omega
  simp only [Mapper.access, accessSuperChip, sz.select_port bank (by omega : i < 0x100), ho,
    inWindow_of_le (Nat.le_add_right 4096 i), decide_eq_true hi, Bool.and_self, if_true]

theorem access_superChip_readPort (sz : StdSize) (bank : Nat) (cram : Memory) (hi : i < 128) :
    (Mapper.superChip sz bank cram).access rom (0x1080 + i) data = (some (cram.read i), .superChip sz bank cram) := by
  have ha : 0x1080 + i = 0x1000 + (0x80 + i) := by omega
  have ho : (0x1000 + (0x80 + i)) % 4096 = 0x80 + i := by omega
  simp only [Mapper.access, accessSuperChip, ha, sz.select_port bank (by omega : 0x80 + i < 0x100), ho,
    inWindow_of_le (Nat.le_add_right 4096 _), decide_eq_false (by omega : ¬ 0x80 + i < 0x80),
    decide_eq_true (by omega : 0x80 + i < 0x100), Bool.and_false, Bool.and_true, if_true, Bool.false_eq_true, if_false,
    Nat.add_sub_cancel_left]

theorem access_cbs_writePort (bank : Nat) (cram : Memory) (hi : i < 256) :
    (Mapper.cbs bank cram).access rom (0x1000 + i) data = (none, .cbs bank (cram.write i data)) := by
  have ho : (0x1000 + i) % 4096 = i := by omega
  have hselect : cbsSelect (0x1000 + i) bank = bank := if_neg (by omega)
  simp only [Mapper.access, accessCbs, hselect, ho, inWindow_of_le (Nat.le_add_right 4096 i), decide_eq_true hi,
    Bool.and_self, if_true]

theorem access_cbs_readPort (bank : Nat) (cram : Memory) (hi : i < 256) :
    (Mapper.cbs bank cram).access rom (0x1100 + i) data = (some (cram.read i), .cbs bank cram) := by
  have ho : (0x1100 + i) % 4096 = 0x100 + i := by omega
  have hselect : cbsSelect (0x1100 + i) bank = bank := if_neg (by omega)
  simp only [Mapper.access, accessCbs, hselect, ho, inWindow_of_le (by omega : 4096 ≤ 0x1100 + i),
    decide_eq_false (by omega : ¬ 0x100 + i < 0x100), decide_eq_true (by omega : 0x100 + i < 0x200), Bool.and_false,
    Bool.and_true, if_true, Bool.false_eq_true, if_false, Nat.add_sub_cancel_left]

end

/-- Settles O49: each port's access is its lemma above, and a read after a write is that of the memory behind both. -/
theorem cartridgeRamPorts : Obligations.CartridgeRamPorts := by
  unfold Obligations.CartridgeRamPorts
  refine ⟨?fixedSize, ?tigervisionRam, ?mNetwork⟩
  case fixedSize =>
    intro rom cram data data' i j bank sz hwf
    refine ⟨?_, ?_⟩
    · intro hi hj
      refine ⟨access_superChip_writePort rom data sz bank cram hi,
        access_superChip_readPort rom data' sz bank cram hj, ?_⟩
      rw [access_superChip_readPort rom data' sz bank _ hj, Memory.read_write hwf]
    · intro hi hj
      refine ⟨access_cbs_writePort rom data bank cram hi, access_cbs_readPort rom data' bank cram hj, ?_⟩
      rw [access_cbs_readPort rom data' bank _ hj, Memory.read_write hwf]
  case tigervisionRam =>
    intro rom cram data data' i j bank k l hwf hi hj at'
    have hread (k : BitVec 5) (m : Memory) :
        (at' k m).access rom (0x1000 + j) data' = (some (m.read (k.toNat * 1024 + j)), at' k m) := by
      obtain ⟨-, -, -, -, -, hread, -⟩ := accessTigervisionRam_cases rom (a := 0x1000 + j) data' true bank k m
      refine (hread (by omega) (by omega) rfl (by omega)).trans ?_
      rw [show (0x1000 + j) % 1024 = j by omega]
    refine ⟨?_, hread k cram, ?_⟩
    · obtain ⟨-, -, -, -, -, -, hwrite⟩ := accessTigervisionRam_cases rom (a := 0x1400 + i) data true bank k cram
      refine (hwrite (by omega) (by omega) rfl (by omega)).trans ?_
      rw [show (0x1400 + i) % 1024 = i by omega]
    · rw [hread, Memory.read_write hwf]
      simp only [paged_eq_iff hi hj, BitVec.toNat_inj]
  case mNetwork =>
    intro rom big small data data' i j low page other hbig hsmall
    refine ⟨?_, ?_⟩
    · intro hi hj
      have hread (m : Memory) : (Mapper.mNetwork 7 page m small).access rom (0x1400 + j) data' =
          (some (m.read j), .mNetwork 7 page m small) := by
        obtain ⟨-, -, -, hread, -⟩ :=
          accessMNetwork_cases rom data' (by omega : 0x1400 + j < 0x1FE0) 7 page m small
        refine (hread (by omega) (by omega) rfl).trans ?_
        rw [show (0x1400 + j) % 4096 - 0x0400 = j by omega]
      refine ⟨?_, hread big, ?_⟩
      · obtain ⟨-, -, hwrite, -⟩ := accessMNetwork_cases rom data (by omega : 0x1000 + i < 0x1FE0) 7 page big small
        refine (hwrite (by omega) (by omega) rfl).trans ?_
        rw [show (0x1000 + i) % 4096 = i by omega]
      · rw [hread, Memory.read_write hbig]
    · intro hi hj
      have hread (p : BitVec 2) (m : Memory) : (Mapper.mNetwork low p big m).access rom (0x1900 + j) data' =
          (some (m.read (p.toNat * 256 + j)), .mNetwork low p big m) := by
        obtain ⟨-, -, -, -, -, hread⟩ := accessMNetwork_cases rom data' (by omega : 0x1900 + j < 0x1FE0) low p big m
        refine (hread (by omega) (by omega)).trans ?_
        rw [show (0x1900 + j) % 4096 - 0x0900 = j by omega]
      refine ⟨?_, hread page small, ?_⟩
      · obtain ⟨-, -, -, -, hwrite, -⟩ :=
          accessMNetwork_cases rom data (by omega : 0x1800 + i < 0x1FE0) low page big small
        refine (hwrite (by omega) (by omega)).trans ?_
        rw [show (0x1800 + i) % 4096 - 0x0800 = i by omega]
      · rw [hread, Memory.read_write hsmall]
        simp only [paged_eq_iff hi hj, BitVec.toNat_inj]

end Sys2Proof.Machine
end

section
/-!
PROOFS. The cartridge's read without side effects (spec/64_mappers.md R391, R394, R395).
-/

namespace Sys2Proof.Machine

/-! ### The read without side effects -/

section
variable (rom : Rom) (data : Byte) {a : Nat}

/-- Below the window the cartridge drives nothing (R390). -/
theorem Mapper.access_of_not_inWindow (h : inWindow a = false) (m : Mapper) : (m.access rom a data).1 = none := by
  cases m <;>
    simp [Mapper.access, accessStd, accessSuperChip, accessParker, accessTigervision, accessTigervisionRam,
      accessActivision, accessMNetwork, accessCbs, accessMegaboy, accessUa, accessPitfall2, bankRead, h]
  case tigervisionRam => split_ifs <;> rfl

variable (h : inWindow a = true) {v : Byte}
include h

theorem superChip_shows {sz : StdSize} {bank : Nat} {cram : Memory}
    (hv : (accessSuperChip rom a data sz bank cram).1 = some v) :
    (accessSuperChip rom a data sz bank cram).2.view rom a = some v := by
  simp only [accessSuperChip, bankRead, h, Bool.true_and, decide_eq_true_eq, if_true] at hv ⊢
  split_ifs at hv ⊢ with hwrite hread
  · have ho : a % 4096 % 0x080 = a % 4096 - 0x080 := by omega
    simpa only [Mapper.view, h, Bool.not_true, Bool.false_eq_true, if_false, if_pos hread, ho] using hv
  · simpa only [Mapper.view, h, Bool.not_true, Bool.false_eq_true, if_false, if_neg hread] using hv

theorem cbs_shows {bank : Nat} {cram : Memory} (hv : (accessCbs rom a data bank cram).1 = some v) :
    (accessCbs rom a data bank cram).2.view rom a = some v := by
  simp only [accessCbs, bankRead, h, Bool.true_and, decide_eq_true_eq, if_true] at hv ⊢
  split_ifs at hv ⊢ with hwrite hread
  · have ho : a % 4096 % 0x100 = a % 4096 - 0x100 := by omega
    simpa only [Mapper.view, h, Bool.not_true, Bool.false_eq_true, if_false, if_pos hread, ho] using hv
  · simpa only [Mapper.view, h, Bool.not_true, Bool.false_eq_true, if_false, if_neg hread] using hv

theorem tigervisionRam_shows {ram : Bool} {bank : Nat} {k : BitVec 5} {cram : Memory}
    (hv : (accessTigervisionRam rom a data ram bank k cram).1 = some v) :
    (accessTigervisionRam rom a data ram bank k cram).2.view rom a = some v := by
  simp only [accessTigervisionRam, h, Bool.not_true, Bool.false_eq_true, if_false] at hv ⊢
  split_ifs at hv ⊢ with h1 h2 hupper hrom hread <;>
    simpa only [Mapper.view, h, Bool.not_true, Bool.false_eq_true, if_false, if_pos, *] using hv

theorem mNetwork_shows {low : BitVec 3} {page : BitVec 2} {big small : Memory}
    (hv : (accessMNetwork rom a data low page big small).1 = some v) :
    (accessMNetwork rom a data low page big small).2.view rom a = some v := by
  simp only [accessMNetwork, h, Bool.not_true, Bool.false_eq_true, if_false] at hv ⊢
  generalize (if 0x1FE0 ≤ a ∧ a ≤ 0x1FE7 then BitVec.ofNat 3 a else low) = low' at hv ⊢
  generalize (if 0x1FE8 ≤ a ∧ a ≤ 0x1FEB then BitVec.ofNat 2 a else page) = page' at hv ⊢
  split_ifs at hv ⊢ with hlower hbank hwrite hpageWrite hpageRead
  · simpa only [Mapper.view, h, Bool.not_true, Bool.false_eq_true, if_false, if_pos hlower, if_pos hbank] using hv
  · have ho : a % 4096 % 0x0400 = a % 4096 - 0x0400 := by omega
    simpa only [Mapper.view, h, Bool.not_true, Bool.false_eq_true, if_false, if_pos hlower, if_neg hbank, ho] using hv
  · have ho : a % 4096 % 0x0100 = a % 4096 - 0x0900 := by omega
    simpa only [Mapper.view, h, Bool.not_true, Bool.false_eq_true, if_false, if_neg hlower, if_pos hpageRead, ho]
      using hv
  · simpa only [Mapper.view, h, Bool.not_true, Bool.false_eq_true, if_false, if_neg hlower, if_neg hpageRead] using hv

end

/-- Settles O52: below the window nothing is driven; in it a scheme without RAM shows what it returned by definition,
and the ports of the others are compared with the view one by one. -/
theorem accessShowsMappedByte : Obligations.AccessShowsMappedByte := by
  unfold Obligations.AccessShowsMappedByte
  intro rom m a data v ha hscheme harmed hv
  cases h : inWindow a with
  | false =>
    rw [Mapper.access_of_not_inWindow rom data h] at hv
    cases hv
  | true =>
    cases m
    case superChip sz bank cram => exact superChip_shows rom data h hv
    case cbs bank cram => exact cbs_shows rom data h hv
    case tigervisionRam ram bank k cram => exact tigervisionRam_shows rom data h hv
    case mNetwork low page big small => exact mNetwork_shows rom data h hv
    case activision bank armed =>
      cases armed
      · simpa [Mapper.access, accessActivision, bankRead, Mapper.view, h] using hv
      · exact absurd rfl (harmed bank)
    case pitfall2 d => exact absurd rfl hscheme
    all_goals
      simpa [Mapper.access, accessStd, accessParker, accessTigervision, accessMegaboy, accessUa, bankRead, Mapper.view, h]
        using hv

end Sys2Proof.Machine
end

section
/-!
PROOFS. Rendering, presence and collisions of the timing chip (spec/62_tia_video.md R304, R306, R320 to R328, R335 to
R337, R345, R351), and its read registers.
-/

namespace Sys2Proof.Machine

/-! ### The catch-up (R306, R336) -/

section
variable (t : Tia)

theorem Tia.undrawn_iff (x : Nat) : t.undrawn x = true ↔ max t.rendered 0 ≤ (x : Int) ∧ (x : Int) < t.h :=
  decide_eq_true_iff

theorem covers_iff (m : BitVec 6) (k : Fin 15) : covers m k = true ↔ m &&& collisionPairs[k] = collisionPairs[k] :=
  beq_iff_eq

/-- After a catch-up no pixel left of the beam is undrawn (R306). -/
theorem Tia.undrawn_catchUp (x : Nat) : t.catchUp.undrawn x = false := by
  refine decide_eq_false ?_
  rw [Tia.catchUp_rendered, Tia.catchUp_h]
  omega

/-- A catch-up with nothing undrawn and the cursor at the beam or right of it does nothing (R306). -/
theorem Tia.catchUp_of_drawn (hdrawn : ∀ x, t.undrawn x = false) (hcursor : t.h ≤ t.rendered) : t.catchUp = t := by
  have hmeets : ((List.range 160).any fun _ => false) = false := List.any_eq_false.mpr fun _ _ => Bool.false_ne_true
  simp only [Tia.catchUp, hdrawn, Bool.false_and, hmeets, Bool.or_false, Bool.false_eq_true, if_false,
    max_eq_left hcursor, Fin.getElem_fin, Vector.ofFn_getElem]

end

/-- Settles O39: the line, the latches and the cursor are given by definition; after the first catch-up nothing is
undrawn. -/
theorem catchUp : Obligations.CatchUp := by
  unfold Obligations.CatchUp
  intro t
  refine ⟨?_, ?_, t.catchUp_rendered, t.catchUp_h, t.catchUp_programmed, ?_⟩
  · intro x
    simp only [t.catchUp_line, t.undrawn_iff]
  · intro k
    simp only [t.catchUp_cx, Bool.or_eq_true, List.any_eq_true, List.mem_range, Bool.and_eq_true, t.undrawn_iff,
      covers_iff, and_assoc]
  · exact t.catchUp.catchUp_of_drawn t.undrawn_catchUp (le_max_right _ _)

/-! ### The latches (R337) -/

theorem Tia.clock1_cx_sticky (t : Tia) (k : Fin 15) (h : t.cx[k] = true) : t.clock1.cx[k] = true := by
  simp only [Tia.clock1]
  split
  · exact Tia.catchUp_cx_sticky { t with h := t.h + 1 } k h
  · exact h

/-- No passing of time clears a latch (R337). -/
theorem Tia.clock_cx_sticky (n : Nat) (t : Tia) (k : Fin 15) (h : t.cx[k] = true) : (t.clock n).cx[k] = true := by
  induction n generalizing t with
  | zero => exact h
  | succ n ih => exact ih t.clock1 (t.clock1_cx_sticky k h)

/-- Settles O41: only CXCLR's write touches the latches, time and reads bring at most catch-ups, and an instruction
that stores nothing is made of those. -/
theorem collisionLatchesAreSticky : Obligations.CollisionLatchesAreSticky := by
  unfold Obligations.CollisionLatchesAreSticky
  refine ⟨?_, fun t i v h => t.write_cx i v h, fun t n k h => t.clock_cx_sticky n k h, ?_⟩
  · intro t v k
    exact Vector.getElem_replicate k.isLt
  · intro i s t k hdest hpush hexec hset
    refine exec_bus_invariant_reads (P := fun b => b.tia.cx[k] = true) ?_ ?_ hdest hpush hset hexec
    · intro b hb
      exact b.tia.clock_cx_sticky _ k hb
    · intro b a hb
      rw [Bus.peek_tia]
      split
      · exact b.tia.catchUp_cx_sticky k hb
      · exact hb

/-! ### The read registers (R304, R345) -/

section
variable (t : Tia) (inp : Lines) (trash : Byte) {i : Nat} (hi : i < 14)
include hi

theorem Tia.readByte_of_register :
    t.readByte inp trash i =
      BitVec.ofBool (t.readBits inp i).1 ++ BitVec.ofBool (t.readBits inp i).2 ++ trash.extractLsb' 0 6 :=
  if_neg (by omega)

theorem Tia.readByte_seven : (t.readByte inp trash i).getLsbD 7 = (t.readBits inp i).1 := by
  rw [t.readByte_of_register inp trash hi, BitVec.getLsbD_append, if_neg (by decide), BitVec.getLsbD_append,
    if_neg (by decide), BitVec.getLsbD_ofBool]
  rfl

theorem Tia.readByte_six : (t.readByte inp trash i).getLsbD 6 = (t.readBits inp i).2 := by
  rw [t.readByte_of_register inp trash hi, BitVec.getLsbD_append, if_neg (by decide), BitVec.getLsbD_append,
    if_pos (by decide), BitVec.getLsbD_ofBool]
  rfl

end

/-- Settles O40: bits 7 and 6 are the register's pair of `readBits`, the others the open bus. -/
theorem timingChipReads : Obligations.TimingChipReads := by
  unfold Obligations.TimingChipReads
  intro t inp trash i
  have hseven {i : Nat} (hi : i < 14) := t.readByte_seven inp trash hi
  have hsix {i : Nat} (hi : i < 14) := t.readByte_six inp trash hi
  refine ⟨t.readByte_of_no_register inp trash, fun j => t.getLsbD_readByte_of_undriven inp trash i, ?_,
    hseven (by decide), hseven (by decide), hsix (by decide), ?_, hseven (by decide), hseven (by decide),
    hseven (by decide), hseven (by decide), hseven (by decide), hseven (by decide)⟩
  · intro k
    rw [hseven (by omega), hsix (by omega)]
    fin_cases k <;> exact ⟨rfl, rfl⟩
  · rintro k (rfl | ⟨hlow, hhigh⟩)
    · exact hsix (by decide)
    · rw [hsix hhigh]
      interval_cases k <;> rfl

/-! ### Presence (R320, R321, R325 to R328) -/

/-- The copies of NUSIZ as R325 tables them. -/
theorem copies_eq (nusiz : BitVec 3) :
    copies nusiz = [[0], [0, 16], [0, 32], [0, 16, 32], [0, 64], [0], [0, 32, 64], [0]].getD nusiz.toNat [] := by
  revert nusiz
  decide

theorem copies_le {nusiz : BitVec 3} {o : Nat} (h : o ∈ copies nusiz) : o ≤ 64 := by
  revert nusiz o
  decide

/-- The offset of a pixel from a copy, with a turn of the line added so that nothing is negative (R321). -/
theorem pixelOffset_eq {x pos o : Nat} (hpos : pos < 160) (ho : o ≤ 64) :
    pixelOffset x pos o = (x + 320 - pos - o) % 160 := by
  unfold pixelOffset
  omega

section
variable {p : PlayerUnit} (x : Nat)

theorem PlayerUnit.playerOn_iff (hpos : p.pos < 160) :
    p.playerOn x = true ↔
      ∃ o ∈ copies p.nusiz, (x + 320 - p.pos - o) % 160 < 8 * stretch p.nusiz ∧
        (let g := if p.vdelp then p.grpOld else p.grpNew
         let j := (x + 320 - p.pos - o) % 160 / stretch p.nusiz
         (if p.refp then g.getLsbD j else g.getLsbD (7 - j)) = true) := by
  simp only [PlayerUnit.playerOn, List.any_eq_true, Bool.and_eq_true, decide_eq_true_eq]
  refine exists_congr fun o => and_congr_right fun ho => ?_
  rw [pixelOffset_eq hpos (copies_le ho)]

theorem PlayerUnit.missileOn_iff (hpos : p.mpos < 160) :
    p.missileOn x = true ↔
      p.enam = true ∧ p.resmp = false ∧
        ∃ o ∈ copies p.nusiz, (x + 320 - p.mpos - o) % 160 < 2 ^ p.mSize.toNat := by
  simp only [PlayerUnit.missileOn, Bool.and_eq_true, Bool.not_eq_true', List.any_eq_true, decide_eq_true_eq, and_assoc]
  refine and_congr_right fun _ => and_congr_right fun _ => exists_congr fun o => and_congr_right fun ho => ?_
  rw [pixelOffset_eq hpos (copies_le ho)]

theorem Tia.ballOn_iff (t : Tia) (hpos : t.posBL < 160) :
    t.ballOn x = true ↔
      (if t.vdelbl then t.enablOld else t.enablNew) = true ∧ (x + 320 - t.posBL - 0) % 160 < 2 ^ t.blSize.toNat := by
  rw [Tia.ballOn, Bool.and_eq_true, decide_eq_true_eq, pixelOffset_eq hpos (Nat.zero_le _)]

end

/-- Outside the blanking the mask shows the six objects (R320). -/
theorem Tia.presence_of_not_blanked {t : Tia} {x : Nat} (h : t.blanked x = false) :
    t.presence x =
      BitVec.ofBoolListLE [t.p0.playerOn x, t.p0.missileOn x, t.p1.playerOn x, t.p1.missileOn x, t.ballOn x,
        t.playfieldOn x] := by
  rw [Tia.presence, h, if_neg Bool.false_ne_true]

theorem Tia.blanked_eq_false_iff (t : Tia) (x : Nat) : t.blanked x = false ↔ t.hmoveBlank = false ∨ 8 ≤ x := by
  rw [Tia.blanked, Bool.and_eq_false_iff, decide_eq_false_iff_not, Nat.not_lt]

/-- Bit 0 of the mask is player 0's (R320). -/
theorem Tia.presence_p0 {t : Tia} {x : Nat} (h : t.blanked x = false) :
    (t.presence x).getLsbD 0 = t.p0.playerOn x := by
  rw [Tia.presence_of_not_blanked h]
  exact BitVec.getLsbD_ofBoolListLE

/-- A solid player of one copy is present from its position on, over its stretched width (R351). -/
theorem PlayerUnit.playerOn_solid_iff {p : PlayerUnit} (x : Nat) (hpos : p.pos < 160) (hnew : p.vdelp = false)
    (hsolid : p.grpNew = 0xFF) (hcopies : copies p.nusiz = [0]) :
    p.playerOn x = true ↔ (x + 160 - p.pos) % 160 < 8 * stretch p.nusiz := by
  have hbit : ∀ j < 8, (0xFF : Byte).getLsbD j = true := by decide
  have hoffset : (x + 320 - p.pos - 0) % 160 = (x + 160 - p.pos) % 160 := by omega
  rw [PlayerUnit.playerOn_iff x hpos, hcopies]
  simp only [List.mem_singleton, exists_eq_left, hnew, hsolid, hoffset, Bool.false_eq_true, if_false]
  refine and_iff_left_of_imp fun hlt => ?_
  have hj : (x + 160 - p.pos) % 160 / stretch p.nusiz < 8 := Nat.div_lt_of_lt_mul (by rwa [Nat.mul_comm])
  rw [hbit _ hj, hbit _ (Nat.lt_succ_of_le (Nat.sub_le 7 _)), ite_self]

/-- Settles O44: a bit of the mask is its object's, and each object's rule is its lemma above. -/
theorem objectPresence : Obligations.ObjectPresence := by
  unfold Obligations.ObjectPresence
  constructor
  · intro t x hx hp0 hm0 hp1 hm1 hbl copies' stretch' offset player missile
    have hcopies (p : PlayerUnit) : copies' p = copies p.nusiz := (copies_eq p.nusiz).symm
    have hstretch (p : PlayerUnit) : stretch' p = stretch p.nusiz := (stretch_eq p.nusiz).symm
    refine ⟨?_, ?_⟩
    · intro hblank hlt
      exact Tia.presence_of_blanked (by rw [Tia.blanked, hblank, decide_eq_true hlt, Bool.and_self])
    · intro hclear
      rw [Tia.presence_of_not_blanked ((t.blanked_eq_false_iff x).mpr hclear)]
      simp only [player, missile, hcopies, hstretch, offset, ← PlayerUnit.playerOn_iff x hp0,
        ← PlayerUnit.playerOn_iff x hp1, ← PlayerUnit.missileOn_iff x hm0, ← PlayerUnit.missileOn_iff x hm1,
        ← t.ballOn_iff x hbl, BitVec.getLsbD_ofBoolListLE]
      exact ⟨Iff.rfl, Iff.rfl, Iff.rfl, Iff.rfl, Iff.rfl, Iff.rfl⟩
  · intro t x hx hpos hblank hnew hsolid hnusiz width
    have hcopies : copies t.p0.nusiz = [0] := by
      obtain h | h | h := hnusiz <;> rw [h] <;> rfl
    have hwidth : width = 8 * stretch t.p0.nusiz := by
      obtain h | h | h := hnusiz <;> simp only [width, h] <;> rfl
    rw [Tia.presence_p0 ((t.blanked_eq_false_iff x).mpr (.inl hblank)), hwidth]
    exact PlayerUnit.playerOn_solid_iff x hpos hnew hsolid hcopies

end Sys2Proof.Machine
end

section
/-!
PROOFS. Address decoding (spec/20_memory.md R60 to R65, R68) and the RAM behind it.
-/

namespace Sys2Proof.Machine

/-! ### What an address selects (R60, R62) -/

section
variable (a : Word)

theorem chipOf_eq_cart_iff : chipOf a = .cart ↔ a.toNat.testBit 12 = true := by
  change _ ↔ a.getLsbD 12 = true
  unfold chipOf
  cases a.getLsbD 12 <;> cases a.getLsbD 7 <;> cases a.getLsbD 9 <;> decide

theorem chipOf_eq_tia_iff : chipOf a = .tia ↔ a.toNat.testBit 12 = false ∧ a.toNat.testBit 7 = false := by
  change _ ↔ a.getLsbD 12 = false ∧ a.getLsbD 7 = false
  unfold chipOf
  cases a.getLsbD 12 <;> cases a.getLsbD 7 <;> cases a.getLsbD 9 <;> decide

theorem chipOf_eq_ram_iff :
    chipOf a = .ram ↔ a.toNat.testBit 12 = false ∧ a.toNat.testBit 7 = true ∧ a.toNat.testBit 9 = false := by
  change _ ↔ a.getLsbD 12 = false ∧ a.getLsbD 7 = true ∧ a.getLsbD 9 = false
  unfold chipOf
  cases a.getLsbD 12 <;> cases a.getLsbD 7 <;> cases a.getLsbD 9 <;> decide

theorem chipOf_eq_riot_iff :
    chipOf a = .riot ↔ a.toNat.testBit 12 = false ∧ a.toNat.testBit 7 = true ∧ a.toNat.testBit 9 = true := by
  change _ ↔ a.getLsbD 12 = false ∧ a.getLsbD 7 = true ∧ a.getLsbD 9 = true
  unfold chipOf
  cases a.getLsbD 12 <;> cases a.getLsbD 7 <;> cases a.getLsbD 9 <;> decide

theorem riotIndex_toNat : (riotIndex a).toNat = a.toNat % 32 := by
  rw [riotIndex, BitVec.extractLsb'_toNat, Nat.shiftRight_zero]

end

section
variable {a a' : Word} (h : a.toNat % 8192 = a'.toNat % 8192)
include h

/-- A bit below the 13th is the same in addresses equal mod 8192. -/
theorem getLsbD_eq_of_mod_eq {i : Nat} (hi : i < 13) : a.getLsbD i = a'.getLsbD i := by
  have hbit := congrArg (Nat.testBit · i) h
  simp only [show 8192 = 2 ^ 13 from rfl, Nat.testBit_mod_two_pow, decide_eq_true hi, Bool.true_and] at hbit
  exact hbit

theorem chipOf_eq_of_mod_eq : chipOf a = chipOf a' := by
  unfold chipOf
  rw [getLsbD_eq_of_mod_eq h (by decide : 12 < 13), getLsbD_eq_of_mod_eq h (by decide : 7 < 13),
    getLsbD_eq_of_mod_eq h (by decide : 9 < 13)]

/-- Addresses equal mod 8192 hand every chip the same index (R60, R62). -/
theorem indices_eq_of_mod_eq :
    addr13 a = addr13 a' ∧ ramIndex a = ramIndex a' ∧ tiaReadIndex a = tiaReadIndex a' ∧
      tiaWriteIndex a = tiaWriteIndex a' ∧ riotIndex a = riotIndex a' := by
  refine ⟨h, ?_, ?_, ?_, BitVec.eq_of_toNat_eq ?_⟩
  · unfold ramIndex; omega
  · unfold tiaReadIndex; omega
  · unfold tiaWriteIndex; omega
  · rw [riotIndex_toNat, riotIndex_toNat]; omega

theorem Bus.settle_eq_of_mod_eq (v : Byte) (b : Bus) : b.settle a v = b.settle a' v := by
  obtain ⟨haddr, -⟩ := indices_eq_of_mod_eq h
  rw [Bus.settle, Bus.settle, haddr]

theorem Bus.peek_eq_of_mod_eq (b : Bus) : b.peek a = b.peek a' := by
  obtain ⟨haddr, hram, htia, -, hriot⟩ := indices_eq_of_mod_eq h
  simp only [Bus.peek, chipOf_eq_of_mod_eq h, haddr, hram, htia, hriot, Bus.settle_eq_of_mod_eq h]

theorem Bus.poke_eq_of_mod_eq (v : Byte) (b : Bus) : b.poke a v = b.poke a' v := by
  obtain ⟨haddr, hram, -, htia, hriot⟩ := indices_eq_of_mod_eq h
  simp only [Bus.poke, chipOf_eq_of_mod_eq h, hram, htia, hriot, Bus.settle_eq_of_mod_eq h]

end

/-- Settles O34: equal low 13 bits give the same chip and indices; what a read and a write do to each chip is said by
the laws of the bus; the chips and the masks are bits of the address. -/
theorem addressDecoding : Obligations.AddressDecoding := by
  unfold Obligations.AddressDecoding
  refine ⟨?mirrors, ?access, ?table⟩
  case mirrors =>
    intro a a' v b h
    exact ⟨Bus.peek_eq_of_mod_eq h b, Bus.poke_eq_of_mod_eq h v b⟩
  case access =>
    intro a v b answer
    have hanswer : (b.peek a).1 = answer := by
      simp only [answer, Bus.peek]
      cases chipOf a <;> rfl
    have hcart := b.peek_cart a
    rw [hanswer] at hcart
    exact ⟨hanswer, hcart, b.peek_tia a, b.peek_riot a, b.peek_ram a, b.poke_cart a v, b.poke_tia a v, b.poke_riot a v,
      b.poke_ram a v⟩
  case table =>
    intro a n
    exact ⟨chipOf_eq_cart_iff a, chipOf_eq_tia_iff a, chipOf_eq_ram_iff a, chipOf_eq_riot_iff a,
      (Nat.and_two_pow_sub_one_eq_mod n 7).symm, (Nat.and_two_pow_sub_one_eq_mod n 6).symm,
      (Nat.and_two_pow_sub_one_eq_mod n 4).symm, (riotIndex_toNat a).trans (Nat.and_two_pow_sub_one_eq_mod n 5).symm,
      (Nat.and_two_pow_sub_one_eq_mod n 13).symm⟩

/-! ### RAM (R28, R68) -/

/-- A read that selects RAM answers the byte at its index. -/
theorem Bus.peek_fst_of_ram {b : Bus} {a : Word} (h : chipOf a = .ram) : (b.peek a).1 = b.ram.read (ramIndex a) := by
  rw [b.peek_ram_eq a h]

/-- Settles O36: between the write and the read only the write changes RAM. -/
theorem ramReadsLastWrite : Obligations.RamReadsLastWrite := by
  unfold Obligations.RamReadsLastWrite
  intro b a a' x v hwf ha ha'
  rw [Bus.peek_fst_of_ram ha', Bus.peek_fst_of_ram ha', Bus.tick_ram, Bus.peek_ram, Bus.tick_ram, Bus.poke_ram,
    if_pos ha, Memory.read_write hwf]

end Sys2Proof.Machine
end

section
/-!
PROOFS. The ports and flags of the I/O chip, and the calls that accesses make on the controllers (spec/61_riot.md R272,
R281 to R290; spec/62_tia_video.md R343, R345).
-/

namespace Sys2Proof.Machine

/-! ### Bits of the ports -/

/-- A port shows its output on output bits and its input on the others (R283, R285). -/
theorem getLsbD_portRead (out ddr inp : Byte) {j : Nat} (hj : j < 8) :
    (portRead out ddr inp).getLsbD j = if ddr.getLsbD j then out.getLsbD j else inp.getLsbD j := by
  simp only [portRead, BitVec.getLsbD_or, BitVec.getLsbD_and, BitVec.getLsbD_not, decide_eq_true hj, Bool.true_and]
  cases ddr.getLsbD j <;> simp

/-- The left port is the high nibble of port A (R283). -/
theorem Lines.getLsbD_portA (inp : Lines) (j : Nat) :
    inp.portA.getLsbD j = if j < 4 then inp.right.peek.getLsbD j else inp.left.peek.getLsbD (j - 4) :=
  BitVec.getLsbD_append

/-- PA7 is the left port's bit 3 (R287). -/
theorem Lines.getLsbD_portA_seven (inp : Lines) : inp.portA.getLsbD 7 = inp.left.peek.getLsbD 3 :=
  inp.getLsbD_portA 7

/-- The panel's byte as a sum of its bits (R288). -/
theorem Switches.byte_toNat (p : Switches) :
    p.byte.toNat =
      bitNat (!p.resetPressed) + 2 * bitNat (!p.selectPressed) + 4 + 8 * bitNat p.colour + 16 + 32 +
        64 * bitNat p.leftExpert + 128 * bitNat p.rightExpert := by
  obtain ⟨reset, select, colour, left, right⟩ := p
  revert reset select colour left right
  decide

/-! ### The registers after a catch-up -/

section
variable (r : Riot)

/-- A catch-up touches no port register and no sample of PA7 (R277). -/
theorem Riot.catchUp_ports :
    r.catchUp.ora = r.ora ∧ r.catchUp.ddra = r.ddra ∧ r.catchUp.orb = r.orb ∧ r.catchUp.ddrb = r.ddrb ∧
      r.catchUp.edgeIrq = r.edgeIrq ∧ r.catchUp.pa7Prev = r.pa7Prev := by
  simp only [Riot.catchUp]
  split <;> exact ⟨rfl, rfl, rfl, rfl, rfl, rfl⟩

/-- TIMINT shows the two flags in bits 7 and 6 (R282). -/
theorem Riot.timint_toNat : r.timint.toNat = 128 * bitNat r.timerIrq + 64 * bitNat r.edgeIrq := by
  unfold Riot.timint
  generalize r.timerIrq = timer
  generalize r.edgeIrq = edge
  revert timer edge
  decide

variable {r} {idx : BitVec 5} (h2 : idx.getLsbD 2 = true)
include h2

/-- A read of INTIM or TIMINT (R281, R282). -/
theorem Riot.read_timerRegister (inp : Lines) :
    r.read idx inp =
      if idx.getLsbD 0 then (r.catchUp.timint, { r.catchUp with edgeIrq := false })
      else (r.catchUp.visible, { r.catchUp with timerIrq := false }) :=
  if_pos h2

/-- The edge-control writes do nothing but catch up (R290). -/
theorem Riot.write_edgeControl (h4 : idx.getLsbD 4 = false) (v : Byte) : r.write idx v = r.catchUp := by
  simp only [Riot.write, h2, h4, if_true, Bool.false_eq_true, if_false]

end

/-! ### The calls -/

/-- SWCHA is the register whose low three index bits are 0 (R272). -/
theorem riotReadCalls_eq (idx : BitVec 5) :
    riotReadCalls idx = if idx.toNat % 8 = 0 then .both [.peek] else .none := by
  have hindex : (idx.getLsbD 2 = false ∧ idx.extractLsb' 0 2 = 0) ↔ idx.toNat % 8 = 0 := by
    revert idx
    decide
  simp only [riotReadCalls, hindex]

/-- SWCHA and SWACNT are the registers whose low three index bits are 0 and 1 (R272). -/
theorem notifiesControllers_iff (idx : BitVec 5) : notifiesControllers idx = true ↔ idx.toNat % 8 < 2 := by
  revert idx
  decide

section
variable (b : Bus) (a : Word) (v : Byte)

theorem Bus.peek_portCalls_of_tia (h : chipOf a = .tia) :
    (b.peek a).2.portCalls = (inptCalls (tiaReadIndex a)).after b.portCalls := by
  rw [Bus.peek_portCalls, if_pos h]

theorem Bus.peek_portCalls_of_riot (h : chipOf a = .riot) :
    (b.peek a).2.portCalls =
      if (riotIndex a).toNat % 8 = 0 then (PortCalls.both [.peek]).after b.portCalls else b.portCalls := by
  rw [Bus.peek_portCalls, h, if_neg (by decide), if_pos rfl, riotReadCalls_eq]
  split <;> rfl

theorem Bus.poke_portCalls_of_tia (h : chipOf a = .tia) :
    (b.poke a v).portCalls =
      if tiaWriteIndex a = 0x01 then
        (PortCalls.both [.ground (v.getLsbD 7), .latch (v.getLsbD 6)]).after b.portCalls
      else b.portCalls := by
  rw [Bus.poke_portCalls, if_pos h, tiaWriteCalls]
  split <;> rfl

/-- The controllers are poked with what port A presents after the write (R286). -/
theorem Bus.poke_portCalls_of_riot (h : chipOf a = .riot) :
    (b.poke a v).portCalls =
      if (riotIndex a).toNat % 8 < 2 then
        PortCalls.after
          { left := [.poke ((b.poke a v).riot.portOut.extractLsb' 4 4)]
            right := [.poke ((b.poke a v).riot.portOut.extractLsb' 0 4)] } b.portCalls
      else b.portCalls := by
  rw [Bus.poke_portCalls, Bus.poke_riot, if_pos h, h, if_neg (by decide), if_pos rfl, Riot.writeCalls]
  simp only [notifiesControllers_iff]
  split <;> rfl

end

/-- Settles O46: the ports bit by bit, the two timer registers, and the calls chip by chip. -/
theorem portsAndFlags : Obligations.PortsAndFlags := by
  unfold Obligations.PortsAndFlags
  refine ⟨?registers, ?calls, Controller.answers_covers, ?timerRegisters⟩
  case registers =>
    intro r inp v s new
    obtain ⟨hora, hddra, horb, hddrb, hedge, hprev⟩ := r.catchUp_ports
    refine ⟨?_, ?_, inp.switches.byte_toNat, hddra, hddrb, rfl, rfl, rfl, rfl, inp.getLsbD_portA_seven, ?_, rfl, rfl⟩
    · intro j hj
      refine (getLsbD_portRead _ _ _ hj).trans ?_
      rw [hora, hddra, inp.getLsbD_portA]
    · intro j hj
      refine (getLsbD_portRead _ _ _ hj).trans ?_
      rw [horb, hddrb]
    · rw [← hedge, ← hprev, ← inp.getLsbD_portA_seven]
      rfl
  case calls =>
    intro b a v made r out
    refine ⟨rfl, ?_, ?_⟩
    · cases hchip : chipOf a with
      | tia =>
        have hi : tiaReadIndex a < 16 := Nat.mod_lt _ (by decide)
        rw [b.peek_portCalls_of_tia a hchip]
        generalize tiaReadIndex a = i at hi
        interval_cases i <;> rfl
      | riot =>
        rw [b.peek_portCalls_of_riot a hchip]
        simp only [true_and, reduceCtorEq, if_false]
        rfl
      | ram | cart =>
        rw [Bus.peek_portCalls, hchip]
        rfl
    · cases hchip : chipOf a with
      | tia =>
        rw [b.poke_portCalls_of_tia a v hchip]
        simp only [true_and, reduceCtorEq, false_and, if_false]
        rfl
      | riot =>
        rw [b.poke_portCalls_of_riot a v hchip]
        simp only [true_and, reduceCtorEq, false_and, if_false]
        rfl
      | ram | cart =>
        rw [Bus.poke_portCalls, hchip]
        rfl
  case timerRegisters =>
    intro r idx inp h2
    refine ⟨?_, ?_, fun h4 v => Riot.write_edgeControl h2 h4 v⟩
    · intro h0
      rw [Riot.read_timerRegister h2, h0]
      exact ⟨rfl, rfl⟩
    · intro h0
      rw [Riot.read_timerRegister h2, h0]
      exact ⟨rfl, r.catchUp.timint_toNat⟩

end Sys2Proof.Machine
end

section
/-!
PROOFS. The step (spec/30_encoding.md R111, R113, R115) and the frames of instructions by what they reach on the bus
(spec/20_memory.md; spec/43_control_flow.md; spec/44_stack_flags_misc.md).
-/

namespace Sys2Proof.Machine

/-! ### The step -/

/-- The first byte of a list that decodes decides the instruction (R115). -/
theorem eq_decodeOpcode_of_decode {op : Byte} {tail operands rest : List Byte} {i : Instr}
    (h : decode (op :: tail) = .ok (i, operands, rest)) : i = decodeOpcode op := by
  simp only [decode] at h
  split at h
  · cases h
  · cases h
    rfl

/-- A cartridge address is in the window (R62, R390). -/
theorem addr13_of_cart {a : Word} (h : chipOf a = .cart) : 4096 ≤ addr13 a := by
  have hbit := (chipOf_eq_cart_iff a).mp h
  rw [Nat.testBit_eq_decide_div_mod_eq, decide_eq_true_eq] at hbit
  unfold addr13
  omega

/-- In its window a 4K cartridge shows its image (R400). -/
theorem access_fixed4K_of_cart (rom : Rom) (v : Byte) {a : Word} (h : chipOf a = .cart) :
    (Mapper.fixed4K.access rom (addr13 a) v).1 = some (rom.read (a.toNat % 4096)) := by
  have ho : 0 * 4096 + addr13 a % 4096 = a.toNat % 4096 := by unfold addr13; omega
  rw [← ho]
  exact if_pos (decide_eq_true (addr13_of_cart h))

/-- Settles O4: the instruction is the one of the byte fetched, and the fetch is a read at `pc`. -/
theorem stepRunsDecodedInstruction : Obligations.StepRunsDecodedInstruction := by
  unfold Obligations.StepRunsDecodedInstruction
  intro s tail i operands rest hdecode
  obtain rfl := eq_decodeOpcode_of_decode hdecode
  have hcart (h : chipOf s.cpu.pc = .cart) :
      s.fetch.1 = ((s.bus.cart.access (addr13 s.cpu.pc) s.bus.busTrash).1).getD s.bus.busTrash := by
    rw [State.fetch_fst, Bus.peek_cart_eq _ _ h]
    rfl
  refine ⟨rfl, rfl, rfl, ?_, hcart, ?_⟩
  · intro h
    rw [State.fetch_fst, Bus.peek_fst_of_ram h, Bus.tick_ram]
  · intro h h4K
    rw [hcart h, Cart.access, h4K, access_fixed4K_of_cart _ _ h, Option.getD_some]

/-- Settles O6: the cycles of the instruction, counted from the state after the opcode fetch. -/
theorem stepTakesTableCycles : Obligations.StepTakesTableCycles := by
  unfold Obligations.StepTakesTableCycles
  intro s
  obtain ⟨t, hnext, hcycles⟩ := exec_next_cycles (decodeOpcode s.fetch.1) s.fetch.2
  rw [s.fetch_cycles] at hcycles
  exact ⟨t, hnext, by omega⟩

/-! ### Operand reads -/

/-- Settles O8: an operand read is made of cycles and reads, which change neither RAM nor a register nor a fixture. -/
theorem operandRead : Obligations.OperandRead := by
  unfold Obligations.OperandRead
  intro o s
  have hram (m : Mem) : (s.effAddr m .read).2.bus.ram = s.bus.ram :=
    State.effAddr_bus_invariant (P := fun b => b.ram = s.bus.ram) (fun _ h => h)
      (fun b a h => (b.peek_ram a).trans h) m .read rfl
  refine ⟨by rintro rfl; rfl, ?_, s.readSrc_cpu o, ?_, ?_, ?_⟩
  · rintro m rfl
    refine ⟨rfl, fun h => ?_⟩
    change ((s.effAddr m .read).2.bus.tick.peek (s.effAddr m .read).1).1 = _
    rw [Bus.peek_fst_of_ram h, Bus.tick_ram, hram]
  · exact State.readSrc_bus_invariant (P := fun b => b.ram = s.bus.ram) (fun _ h => h)
      (fun b a h => (b.peek_ram a).trans h) o rfl
  · exact State.readSrc_bus_invariant (P := s.bus.SameRegisters) (fun _ => Bus.SameRegisters.tick)
      (fun _ a h => h.peek a) o (Bus.SameRegisters.refl s.bus)
  · exact State.readSrc_bus_invariant (P := s.bus.SameFixtures) (fun _ => Bus.SameFixtures.tick)
      (fun _ a h => h.peek a) o (Bus.SameFixtures.refl s.bus)

/-! ### Frames -/

theorem Bus.byteAt_of_ram (b : Bus) {a : Word} (h : chipOf a = .ram) :
    b.byteAt a = some (b.ram.read (ramIndex a)) := by
  rw [Bus.byteAt, h]

/-- Settles O30: such an instruction is made of cycles and reads. -/
theorem frameWithoutStore : Obligations.FrameWithoutStore := by
  unfold Obligations.FrameWithoutStore
  intro i s t hdest hpush hexec
  have hram : t.bus.ram = s.bus.ram :=
    exec_bus_invariant_reads (P := fun b => b.ram = s.bus.ram) (fun _ h => h) (fun b a h => (b.peek_ram a).trans h)
      hdest hpush rfl hexec
  refine ⟨?_, ?_, ?_⟩
  · intro a ha
    rw [Bus.byteAt_of_ram _ ha, Bus.byteAt_of_ram _ ha, hram]
  · exact exec_bus_invariant_reads (P := s.bus.SameRegisters) (fun _ => Bus.SameRegisters.tick)
      (fun _ a h => h.peek a) hdest hpush (Bus.SameRegisters.refl s.bus) hexec
  · exact exec_bus_invariant_reads (P := s.bus.SameFixtures) (fun _ => Bus.SameFixtures.tick)
      (fun _ a h => h.peek a) hdest hpush (Bus.SameFixtures.refl s.bus) hexec

/-- Fixtures are kept by every instruction. -/
theorem exec_sameFixtures {i : Instr} {s t : State} (h : exec i s = .next t) : s.bus.SameFixtures t.bus :=
  exec_bus_invariant (P := s.bus.SameFixtures) (fun _ => Bus.SameFixtures.tick) (fun _ a h => h.peek a)
    (fun _ a v h => h.poke a v) (Bus.SameFixtures.refl s.bus) h

section
variable {P : Bus → Prop} (tick : ∀ b, P b → P b.tick) (peek : ∀ b a, P b → P (b.peek a).2)
include tick peek

/-- A property kept by the passing of a cycle, by a read and by a write at the effective address is kept by an
instruction that stores to memory (R111). -/
theorem exec_store_bus_invariant {i : Instr} {m : Mem} {s t : State} (hdest : i.destination = some m)
    (poke : ∀ b v, P b → P (b.poke (s.effAddr m i.destinationClass).1 v)) (h : P s.bus)
    (hexec : exec i s = .next t) : P t.bus := by
  have haddr (cls : AccessClass) : P (s.effAddr m cls).2.bus := State.effAddr_bus_invariant tick peek m cls h
  have hstore (hcls : i.destinationClass = .write) (v : Byte) : P (s.store m v).bus := by
    rw [State.store_bus]
    exact hcls ▸ poke _ v (tick _ (haddr _))
  have hrmw (hcls : i.destinationClass = .rmw) (v : Byte) :
      P ((s.rmwRead m).2.2.memWrite (s.rmwRead m).1 v).bus := by
    rw [State.memWrite_bus, State.rmwRead_addr, State.rmwRead_bus]
    exact hcls ▸ poke _ v (tick _ (tick _ (peek _ _ (tick _ (haddr _)))))
  cases i
  case sta | stx | sty =>
    cases hdest
    cases hexec
    exact hstore rfl _
  case inc | dec =>
    cases hdest
    cases hexec
    exact hrmw rfl _
  case asl l | lsr l | rol l | ror l =>
    cases l
    · cases hdest
    · cases hdest
      cases hexec
      exact hrmw rfl _
  all_goals cases hdest

/-- A property kept by the passing of a cycle, by a read and by a write at each byte pushed is kept by an instruction
that pushes (R192, R195, R220, R221). -/
theorem exec_push_bus_invariant {i : Instr} {s t : State} (hpush : 0 < i.pushes)
    (poke : ∀ k, k < i.pushes → ∀ b v, P b → P (b.poke (stackAddr (s.cpu.s - BitVec.ofNat 8 k)) v))
    (h : P s.bus) (hexec : exec i s = .next t) : P t.bus := by
  have hzero : s.cpu.s - BitVec.ofNat 8 0 = s.cpu.s := BitVec.sub_zero _
  obtain ⟨-, -, hstack⟩ := stackInstructions
  obtain ⟨-, hcall⟩ := subroutineCallAndReturn
  obtain ⟨-, htrap⟩ := brkAndRti
  cases i
  case pha =>
    obtain ⟨hpha, -⟩ := hstack s
    rw [hpha] at hexec
    cases hexec
    exact hzero ▸ poke 0 (by decide) _ _ (tick _ (tick _ h))
  case php =>
    obtain ⟨-, hphp, -⟩ := hstack s
    rw [hphp] at hexec
    cases hexec
    exact hzero ▸ poke 0 (by decide) _ _ (tick _ (tick _ h))
  case jsr =>
    obtain ⟨hjsr, -⟩ := hcall s
    rw [hjsr] at hexec
    cases hexec
    have hhigh (b v) (hb : P b) : P (b.poke (stackAddr s.cpu.s) v) := hzero ▸ poke 0 (by decide) b v hb
    have hlow (b v) (hb : P b) : P (b.poke (stackAddr (s.cpu.s - 1)) v) := poke 1 (by decide) b v hb
    exact peek _ _ (tick _ (hlow _ _ (tick _ (hhigh _ _ (tick _ (tick _ (peek _ _ (tick _ h))))))))
  case brk =>
    obtain ⟨hbrk, -⟩ := htrap s
    rw [hbrk] at hexec
    cases hexec
    have hhigh (b v) (hb : P b) : P (b.poke (stackAddr s.cpu.s) v) := hzero ▸ poke 0 (by decide) b v hb
    have hlow (b v) (hb : P b) : P (b.poke (stackAddr (s.cpu.s - 1)) v) := poke 1 (by decide) b v hb
    have hstatus (b v) (hb : P b) : P (b.poke (stackAddr (s.cpu.s - 2)) v) := poke 2 (by decide) b v hb
    refine peek _ _ (tick _ (peek _ _ (tick _ ?_)))
    exact hstatus _ _ (tick _ (hlow _ _ (tick _ (hhigh _ _ (tick _ (tick _ h))))))
  all_goals exact absurd hpush (Nat.lt_irrefl 0)

end

/-- Byte `k` of RAM reads as it did, in canonical form: what a write to another byte keeps. -/
def Bus.SameRamByte (k : Nat) (b b' : Bus) : Prop := Memory.wf b'.ram ∧ b'.ram.read k = b.ram.read k

section
variable {b b' : Bus} {k : Nat} (h : b.SameRamByte k b')
include h

theorem Bus.SameRamByte.peek (a : Word) : b.SameRamByte k (b'.peek a).2 := by
  unfold Bus.SameRamByte
  rw [Bus.peek_ram]
  exact h

theorem Bus.SameRamByte.poke {a : Word} (ha : ¬(chipOf a = .ram ∧ k = ramIndex a)) (v : Byte) :
    b.SameRamByte k (b'.poke a v) := by
  obtain ⟨hwf, hread⟩ := h
  unfold Bus.SameRamByte
  rw [Bus.poke_ram]
  split
  · exact ⟨Memory.wf_write hwf _ _, (Memory.read_write_other hwf (fun hk => ha ⟨‹_›, hk⟩) v).trans hread⟩
  · exact ⟨hwf, hread⟩

/-- The byte of RAM seen at an address. -/
theorem Bus.SameRamByte.byteAt {a : Word} (ha : chipOf a = .ram) (hk : k = ramIndex a) :
    b'.byteAt a = b.byteAt a := by
  rw [Bus.byteAt_of_ram _ ha, Bus.byteAt_of_ram _ ha, ← hk, h.2]

end

/-- A read changes no timing-chip register a program wrote. -/
@[simp] theorem Bus.peek_tia_programmed (b : Bus) (a : Word) : (b.peek a).2.tia.programmed = b.tia.programmed := by
  rw [Bus.peek_tia]
  split
  · exact b.tia.catchUp_programmed
  · rfl

/-- A read changes no I/O-chip register a program wrote. -/
@[simp] theorem Bus.peek_riot_programmed (b : Bus) (a : Word) :
    (b.peek a).2.riot.programmed = b.riot.programmed := by
  rw [Bus.peek_riot]
  split
  · exact (b.riot.read_timer _ _).2.2
  · rfl

/-- Settles O31: the only write is at the effective address, and a write changes what its address selects. -/
theorem frameOfStore : Obligations.FrameOfStore := by
  unfold Obligations.FrameOfStore
  intro i m s t hwf hdest hexec ea
  refine ⟨?ram, ?tia, ?riot, exec_sameFixtures hexec⟩
  case ram =>
    intro a ha hother
    have hkeep : s.bus.SameRamByte (ramIndex a) t.bus :=
      exec_store_bus_invariant (P := s.bus.SameRamByte (ramIndex a)) (fun _ h => h) (fun _ a h => h.peek a) hdest
        (fun _ v h => h.poke hother v) ⟨hwf, rfl⟩ hexec
    exact hkeep.byteAt ha rfl
  case tia =>
    intro hchip
    refine exec_store_bus_invariant
      (P := fun b => b.tia.programmed = s.bus.tia.programmed ∧ b.audio.programmed = s.bus.audio.programmed)
      (fun b h => by simpa using h) (fun b a h => by simpa using h) hdest (fun b v h => ?_) ⟨rfl, rfl⟩ hexec
    rwa [Bus.poke_tia, Bus.poke_audio, if_neg hchip, if_neg hchip]
  case riot =>
    intro hchip
    refine exec_store_bus_invariant (P := fun b => b.riot.programmed = s.bus.riot.programmed)
      (fun b h => by simpa using h) (fun b a h => by simpa using h) hdest (fun b v h => ?_) rfl hexec
    rwa [Bus.poke_riot, if_neg hchip]

/-- The stack page never selects the I/O chip (R21, R62). -/
theorem chipOf_stackAddr_ne_riot (sp : Byte) : chipOf (stackAddr sp) ≠ .riot := by
  rw [chipOf_stackAddr]
  split <;> decide

/-- Settles O32: the only writes are the pushes, and a write changes what its address selects. -/
theorem frameOfPush : Obligations.FrameOfPush := by
  unfold Obligations.FrameOfPush
  intro i s t hwf hpush hexec slot
  refine ⟨?ram, ?registers, ?riot, exec_sameFixtures hexec⟩
  case ram =>
    intro a ha hother
    have hkeep : s.bus.SameRamByte (ramIndex a) t.bus :=
      exec_push_bus_invariant (P := s.bus.SameRamByte (ramIndex a)) (fun _ h => h) (fun _ a h => h.peek a) hpush
        (fun k hk _ v h => h.poke (hother k hk) v) ⟨hwf, rfl⟩ hexec
    exact hkeep.byteAt ha rfl
  case registers =>
    intro hram
    refine exec_push_bus_invariant (P := s.bus.SameRegisters) (fun _ => Bus.SameRegisters.tick)
      (fun _ a h => h.peek a) hpush (fun k hk _ v h => ?_) (Bus.SameRegisters.refl s.bus) hexec
    have hchip : chipOf (slot k) = .ram := hram k hk
    exact h.poke (a := slot k) (by rw [hchip]; decide) (by rw [hchip]; decide) v
  case riot =>
    refine exec_push_bus_invariant (P := fun b => b.riot.programmed = s.bus.riot.programmed)
      (fun b h => by simpa using h) (fun b a h => by simpa using h) hpush (fun k _ b v h => ?_) rfl hexec
    rwa [Bus.poke_riot, if_neg (chipOf_stackAddr_ne_riot _)]

end Sys2Proof.Machine
end

section
/-!
PROOFS. What instructions do to the registers and flags (spec/10_state.md R20, R23, R24, R252): the status byte, the
fields no instruction writes but those named for it, and the flag that gates nothing.
-/

namespace Sys2Proof.Machine

/-! ### The fields an instruction writes (R20, R23) -/

/-- The processors agree in every field outside the list. -/
def Cpu.SameBut (fs : List CpuField) (c c' : Cpu) : Prop := ∀ f, f ∉ fs → c'.field f = c.field f

/-- An instruction writes no register or flag but those the tables name for it. -/
theorem exec_cpu_sameBut {i : Instr} {s t : State} (hexec : exec i s = .next t) : s.cpu.SameBut i.writes t.cpu := by
  intro f hf
  cases i
  case lda o | and o | ora o | eor o | adc o | sbc o | ldx o | ldy o | cmp o | cpx o | cpy o =>
    cases hexec
    cases f <;> simp [Instr.writes] at hf <;> simp [Cpu.field]
  case bit m =>
    cases hexec
    cases f <;> simp [Instr.writes] at hf <;> simp [Cpu.field]
  case sta m | stx m | sty m | inc m | dec m =>
    cases hexec
    cases f <;> simp [Instr.writes] at hf <;> simp [Cpu.field]
  case asl l | lsr l | rol l | ror l =>
    cases hexec
    cases l <;> cases f <;> simp [Instr.writes] at hf <;> simp [Cpu.field, State.shift]
  case bcc | bcs | beq | bne | bmi | bpl | bvc | bvs =>
    cases hexec
    rw [State.branch_cpu]
    cases f <;> rfl
  case jmp m =>
    cases m <;> cases hexec <;> cases f <;> simp [Cpu.field]
  case jsr | rts | pha | php | pla | plp =>
    cases hexec
    cases f <;> simp [Instr.writes] at hf <;> simp [Cpu.field]
  case brk | rti =>
    cases hexec
    cases f <;> simp [Instr.writes] at hf <;> simp [Cpu.field, State.enterTrap, State.returnFromTrap, State.jumpVector]
  all_goals
    cases hexec
    cases f <;> simp [Instr.writes] at hf <;> rfl

/-- Settles O33: the fields by `exec_cpu_sameBut`; a step is made of cycles, reads and writes, which keep the
fixtures. -/
theorem onlyNamedStateChanges : Obligations.OnlyNamedStateChanges := by
  unfold Obligations.OnlyNamedStateChanges
  constructor
  · intro i s t f hexec hf
    exact exec_cpu_sameBut hexec f hf
  · intro s t hstep
    exact step_bus_invariant (P := s.bus.SameFixtures) (fun _ => Bus.SameFixtures.tick) (fun _ a h => h.peek a)
      (fun _ a v h => h.poke a v) (Bus.SameFixtures.refl s.bus) hstep

/-! ### The status byte (R24) -/

/-- The bits of the status byte, bit 0 first. -/
theorem Cpu.getLsbD_packP (c : Cpu) (b : Bool) (j : Nat) :
    (c.packP b).getLsbD j = [c.c, c.z, c.i, c.d, b, true, c.v, c.n].getD j false :=
  BitVec.getLsbD_ofBoolListLE

/-- Unpacking the status byte of `c` gives back its six flags. -/
theorem State.unpackP_packP (s : State) (c : Cpu) (b : Bool) :
    s.unpackP (c.packP b) =
      { s with cpu := { s.cpu with n := c.n, v := c.v, d := c.d, i := c.i, z := c.z, c := c.c } } := by
  simp only [State.unpackP, Cpu.getLsbD_packP]
  rfl

/-- Settles O25: the packed bits one by one; unpacking reads none but the six. -/
theorem statusByte : Obligations.StatusByte := by
  unfold Obligations.StatusByte
  intro c b s
  refine ⟨c.getLsbD_packP b 7, c.getLsbD_packP b 6, c.getLsbD_packP b 5, c.getLsbD_packP b 4, c.getLsbD_packP b 3,
    c.getLsbD_packP b 2, c.getLsbD_packP b 1, c.getLsbD_packP b 0, s.unpackP_packP c b, ?_⟩
  intro p q h
  rw [State.unpackP, State.unpackP, h 7 (by decide) (by decide), h 6 (by decide) (by decide),
    h 3 (by decide) (by decide), h 2 (by decide) (by decide), h 1 (by decide) (by decide), h 0 (by decide) (by decide)]

/-! ### Calls and returns (R193, R255) -/

/-- Stack bytes down to `k` below `S` lie in the RAM half of the page (R21). -/
theorem stackAddr_sub_ram {sp : Byte} {k : Nat} (h : 0x80 + k ≤ sp.toNat) :
    chipOf (stackAddr (sp - BitVec.ofNat 8 k)) = .ram ∧
      ramIndex (stackAddr (sp - BitVec.ofNat 8 k)) = sp.toNat - 0x80 - k := by
  have hsub : (sp - BitVec.ofNat 8 k).toNat = sp.toNat - k := by
    rw [BitVec.toNat_sub, BitVec.toNat_ofNat]
    omega
  have hupper : 0x80 ≤ (sp - BitVec.ofNat 8 k).toNat := by omega
  refine ⟨by rw [chipOf_stackAddr, if_pos hupper], ?_⟩
  rw [ramIndex_stackAddr hupper, hsub]
  omega

section
variable (s : State)

/-- JSR with the stack in RAM: the return address, high byte first (R192). -/
theorem exec_jsr_of_ram (h0 : chipOf (stackAddr s.cpu.s) = .ram) (h1 : chipOf (stackAddr (s.cpu.s - 1)) = .ram) :
    ∃ t target, exec .jsr s = .next t ∧ t.cpu = { s.cpu with pc := target, s := s.cpu.s - 2 } ∧
      t.bus.ram =
        (s.bus.ram.write (ramIndex (stackAddr s.cpu.s)) (page (s.cpu.pc + 1))).write
          (ramIndex (stackAddr (s.cpu.s - 1))) (lowByte (s.cpu.pc + 1)) := by
  obtain ⟨-, hcall⟩ := subroutineCallAndReturn
  obtain ⟨hjsr, -⟩ := hcall s
  exact ⟨_, _, hjsr, rfl, by
    simp only [Bus.peek_ram, Bus.tick_ram, Bus.poke_ram, if_pos h0, if_pos h1]⟩

/-- RTS with the stack in RAM (R193). -/
theorem exec_rts_of_ram (h1 : chipOf (stackAddr (s.cpu.s + 1)) = .ram)
    (h2 : chipOf (stackAddr (s.cpu.s + 2)) = .ram) :
    ∃ t, exec .rts s = .next t ∧
      t.cpu =
        { s.cpu with
          pc :=
            wordOf (s.bus.ram.read (ramIndex (stackAddr (s.cpu.s + 2))))
              (s.bus.ram.read (ramIndex (stackAddr (s.cpu.s + 1)))) + 1
          s := s.cpu.s + 2 } := by
  obtain ⟨-, hcall⟩ := subroutineCallAndReturn
  obtain ⟨-, hrts⟩ := hcall s
  refine ⟨_, hrts, ?_⟩
  simp only [Bus.peek_fst_of_ram h1, Bus.peek_fst_of_ram h2, Bus.peek_ram, Bus.tick_ram]

/-- BRK with the stack in RAM: the return address and below it the status byte (R195). -/
theorem exec_brk_of_ram (h0 : chipOf (stackAddr s.cpu.s) = .ram) (h1 : chipOf (stackAddr (s.cpu.s - 1)) = .ram)
    (h2 : chipOf (stackAddr (s.cpu.s - 2)) = .ram) :
    ∃ t target, exec .brk s = .next t ∧ t.cpu = { s.cpu with pc := target, s := s.cpu.s - 3, i := true } ∧
      t.bus.ram =
        ((s.bus.ram.write (ramIndex (stackAddr s.cpu.s)) (page (s.cpu.pc + 1))).write
          (ramIndex (stackAddr (s.cpu.s - 1))) (lowByte (s.cpu.pc + 1))).write
          (ramIndex (stackAddr (s.cpu.s - 2))) (s.cpu.packP true) := by
  obtain ⟨-, htrap⟩ := brkAndRti
  obtain ⟨hbrk, -⟩ := htrap s
  exact ⟨_, _, hbrk, rfl, by
    simp only [Bus.peek_ram, Bus.tick_ram, Bus.poke_ram, if_pos h0, if_pos h1, if_pos h2]⟩

/-- RTI with the stack in RAM (R194). -/
theorem exec_rti_of_ram (h1 : chipOf (stackAddr (s.cpu.s + 1)) = .ram)
    (h2 : chipOf (stackAddr (s.cpu.s + 2)) = .ram) (h3 : chipOf (stackAddr (s.cpu.s + 3)) = .ram) :
    let p := s.bus.ram.read (ramIndex (stackAddr (s.cpu.s + 1)))
    ∃ t, exec .rti s = .next t ∧
      t.cpu =
        { s.cpu with
          pc :=
            wordOf (s.bus.ram.read (ramIndex (stackAddr (s.cpu.s + 3))))
              (s.bus.ram.read (ramIndex (stackAddr (s.cpu.s + 2))))
          s := s.cpu.s + 3, n := p.getLsbD 7, v := p.getLsbD 6, d := p.getLsbD 3, i := p.getLsbD 2,
          z := p.getLsbD 1, c := p.getLsbD 0 } := by
  obtain ⟨-, htrap⟩ := brkAndRti
  obtain ⟨-, hrti⟩ := htrap s
  refine ⟨_, hrti, ?_⟩
  simp only [Bus.peek_fst_of_ram h1, Bus.peek_fst_of_ram h2, Bus.peek_fst_of_ram h3, Bus.peek_ram, Bus.tick_ram]

end

/-- The distances of a pull from what was pushed (R21). -/
theorem Byte.sub_two_add_one (b : Byte) : b - 2 + 1 = b - 1 := by bv_omega

theorem Byte.sub_three_add_one (b : Byte) : b - 3 + 1 = b - 2 := by bv_omega

theorem Byte.sub_three_add_two (b : Byte) : b - 3 + 2 = b - 1 := by bv_omega

section
variable {s : State} (hwf : Memory.wf s.bus.ram)
include hwf

/-- RTS pulls the two bytes JSR pushed (R193, corner cases). -/
theorem exec_rts_after_jsr (h : 0x81 ≤ s.cpu.s.toNat) :
    ∃ t u, exec .jsr s = .next t ∧ exec .rts t = .next u ∧ u.cpu = { s.cpu with pc := s.cpu.pc + 2 } := by
  obtain ⟨hchip0, hindex0⟩ := stackAddr_sub_ram (sp := s.cpu.s) (k := 0) (by omega)
  obtain ⟨hchip1, hindex1⟩ := stackAddr_sub_ram (sp := s.cpu.s) (k := 1) (by omega)
  rw [BitVec.sub_zero] at hchip0 hindex0
  have h10 : ramIndex (stackAddr (s.cpu.s - 1)) ≠ ramIndex (stackAddr s.cpu.s) := by
    rw [hindex0]
    exact ne_of_eq_of_ne hindex1 (by omega)
  obtain ⟨t, target, hjsr, hcpu, hram⟩ := exec_jsr_of_ram s hchip0 hchip1
  have hlow : t.cpu.s + 1 = s.cpu.s - 1 := by rw [hcpu, Byte.sub_two_add_one]
  have hhigh : t.cpu.s + 2 = s.cpu.s := by rw [hcpu, BitVec.sub_add_cancel]
  obtain ⟨u, hrts, hreturn⟩ := exec_rts_of_ram t (hlow ▸ hchip1) (hhigh ▸ hchip0)
  have hwf1 := Memory.wf_write hwf (ramIndex (stackAddr s.cpu.s)) (page (s.cpu.pc + 1))
  have hnext : s.cpu.pc + 1 + 1 = s.cpu.pc + 2 := Word.add_one_one _
  refine ⟨t, u, hjsr, hrts, ?_⟩
  rw [hreturn, hlow, hhigh, hram, Memory.read_write_same hwf1, Memory.read_write_other hwf1 h10.symm,
    Memory.read_write_same hwf, wordOf_page_lowByte, hnext, hcpu]

/-- RTI pulls the three bytes BRK pushed (R255, corner cases). -/
theorem exec_rti_after_brk (h : 0x82 ≤ s.cpu.s.toNat) :
    ∃ t u, exec .brk s = .next t ∧ exec .rti t = .next u ∧ u.cpu = { s.cpu with pc := s.cpu.pc + 1 } := by
  obtain ⟨hchip0, hindex0⟩ := stackAddr_sub_ram (sp := s.cpu.s) (k := 0) (by omega)
  obtain ⟨hchip1, hindex1⟩ := stackAddr_sub_ram (sp := s.cpu.s) (k := 1) (by omega)
  obtain ⟨hchip2, hindex2⟩ := stackAddr_sub_ram (sp := s.cpu.s) (k := 2) (by omega)
  rw [BitVec.sub_zero] at hchip0 hindex0
  have h10 : ramIndex (stackAddr (s.cpu.s - 1)) ≠ ramIndex (stackAddr s.cpu.s) := by
    rw [hindex0]
    exact ne_of_eq_of_ne hindex1 (by omega)
  have h20 : ramIndex (stackAddr (s.cpu.s - 2)) ≠ ramIndex (stackAddr s.cpu.s) := by
    rw [hindex0]
    exact ne_of_eq_of_ne hindex2 (by omega)
  have h21 : ramIndex (stackAddr (s.cpu.s - 2)) ≠ ramIndex (stackAddr (s.cpu.s - 1)) :=
    ne_of_eq_of_ne hindex2 (ne_of_ne_of_eq (by omega) hindex1.symm)
  obtain ⟨t, target, hbrk, hcpu, hram⟩ := exec_brk_of_ram s hchip0 hchip1 hchip2
  have hstatus : t.cpu.s + 1 = s.cpu.s - 2 := by rw [hcpu, Byte.sub_three_add_one]
  have hlow : t.cpu.s + 2 = s.cpu.s - 1 := by rw [hcpu, Byte.sub_three_add_two]
  have hhigh : t.cpu.s + 3 = s.cpu.s := by rw [hcpu, BitVec.sub_add_cancel]
  obtain ⟨u, hrti, hreturn⟩ := exec_rti_of_ram t (hstatus ▸ hchip2) (hlow ▸ hchip1) (hhigh ▸ hchip0)
  have hwf1 := Memory.wf_write hwf (ramIndex (stackAddr s.cpu.s)) (page (s.cpu.pc + 1))
  have hwf2 := Memory.wf_write hwf1 (ramIndex (stackAddr (s.cpu.s - 1))) (lowByte (s.cpu.pc + 1))
  refine ⟨t, u, hbrk, hrti, ?_⟩
  rw [hreturn, hstatus, hlow, hhigh, hram, Memory.read_write_same hwf2, Memory.read_write_other hwf2 h21.symm,
    Memory.read_write_same hwf1, Memory.read_write_other hwf2 h20.symm, Memory.read_write_other hwf1 h10.symm,
    Memory.read_write_same hwf, wordOf_page_lowByte, hcpu]
  simp only [Cpu.getLsbD_packP]
  rfl

end

/-- Settles O29: what each call pushed, its return pulls. -/
theorem callsReturn : Obligations.CallsReturn := by
  unfold Obligations.CallsReturn
  intro s hwf
  exact ⟨exec_rts_after_jsr hwf, exec_rti_after_brk hwf⟩

/-! ### The I flag (R252) -/

section
variable (s : State) (b : Bool)

theorem State.index_setI (cls : AccessClass) (base : Word) (idx : Byte) :
    (s.setI b).index cls base idx = ((s.index cls base idx).1, (s.index cls base idx).2.setI b) := by
  simp only [State.index]
  split <;> rfl

theorem State.effAddr_setI (m : Mem) (cls : AccessClass) :
    (s.setI b).effAddr m cls = ((s.effAddr m cls).1, (s.effAddr m cls).2.setI b) := by
  cases m
  case abx => exact s.fetchWord.2.index_setI b cls s.fetchWord.1 s.fetchWord.2.cpu.x
  case aby => exact s.fetchWord.2.index_setI b cls s.fetchWord.1 s.fetchWord.2.cpu.y
  case izy =>
    exact (s.fetch.2.zpPointer s.fetch.1).2.index_setI b cls (s.fetch.2.zpPointer s.fetch.1).1 s.cpu.y
  all_goals rfl

theorem State.readSrc_setI (o : Src) :
    (s.setI b).readSrc o = ((s.readSrc o).1, (s.readSrc o).2.setI b) := by
  cases o with
  | imm => rfl
  | mem m =>
    rw [State.readSrc, s.effAddr_setI]
    rfl

theorem State.store_setI (m : Mem) (v : Byte) : (s.setI b).store m v = (s.store m v).setI b := by
  rw [State.store, s.effAddr_setI]
  rfl

theorem State.rmwRead_setI (m : Mem) :
    (s.setI b).rmwRead m = ((s.rmwRead m).1, (s.rmwRead m).2.1, (s.rmwRead m).2.2.setI b) := by
  rw [State.rmwRead, s.effAddr_setI]
  rfl

theorem State.shift_setI (f : Byte → Bool → Byte × Bool) (l : ShiftLoc) :
    (s.setI b).shift f l = (s.shift f l).setI b := by
  cases l with
  | acc => rfl
  | mem m =>
    rw [State.shift, s.rmwRead_setI]
    rfl

theorem State.branch_setI (taken : Bool) : (s.setI b).branch taken = (s.branch taken).setI b := by
  rw [State.branch_eq, State.branch_eq]
  split <;> rfl

/-- An instruction that neither writes the flag nor pushes it runs alike under both of its values. -/
theorem exec_setI {i : Instr} (hphp : i ≠ .php) (hbrk : i ≠ .brk) (hwrites : .i ∉ i.writes) {t : State}
    (h : exec i s = .next t) : exec i (s.setI b) = .next (t.setI b) := by
  cases i
  case php => exact absurd rfl hphp
  case brk => exact absurd rfl hbrk
  case cli | sei | plp | rti => exact absurd (by decide) hwrites
  case adc o | sbc o | cmp o | cpx o | cpy o | lda o | ldx o | ldy o | and o | ora o | eor o =>
    cases h
    simp only [exec, execAdc, execSbc, execCmp, execCpx, execCpy, execLda, execLdx, execLdy, execAnd, execOra, execEor,
      s.readSrc_setI]
    rfl
  case bit m =>
    cases h
    simp only [exec, execBit, s.readSrc_setI]
    rfl
  case sta m | stx m | sty m =>
    cases h
    exact congrArg Host.Outcome.next (s.store_setI b m _)
  case inc m | dec m =>
    cases h
    simp only [exec, execInc, execDec, s.rmwRead_setI]
    rfl
  case asl l | lsr l | rol l | ror l =>
    cases h
    exact congrArg Host.Outcome.next (s.shift_setI b _ l)
  case bcc | bcs | beq | bne | bmi | bpl | bvc | bvs =>
    cases h
    exact congrArg Host.Outcome.next (s.branch_setI b _)
  case jmp m =>
    cases m <;> cases h <;> rfl
  all_goals
    cases h
    rfl

/-- An instruction that writes the flag, and does not push it, does so whatever its value was. -/
theorem exec_setI_of_writes {i : Instr} (hbrk : i ≠ .brk) (hwrites : .i ∈ i.writes) :
    exec i (s.setI b) = exec i s := by
  cases i
  case brk => exact absurd rfl hbrk
  case cli | sei | plp | rti => rfl
  case asl l | lsr l | rol l | ror l => cases l <;> exact absurd hwrites (by simp [Instr.writes])
  all_goals exact absurd hwrites (by simp [Instr.writes])

end

/-- Settles O59: an instruction that does not write `I` carries it through; one that does overwrites it. -/
theorem interruptFlagGatesNothing : Obligations.InterruptFlagGatesNothing := by
  unfold Obligations.InterruptFlagGatesNothing
  intro i s t b hphp hbrk hexec
  by_cases hwrites : .i ∈ i.writes
  · exact ⟨t, (exec_setI_of_writes s b hbrk hwrites).trans hexec, rfl⟩
  · exact ⟨t.setI b, exec_setI s b hphp hbrk hwrites hexec, rfl⟩

end Sys2Proof.Machine
end
